-- ==== Sys2Proof/Word.lean ====
section
/-! DEFINITION. The word types of the OSER: 64-strings, cells, and the number of a data register (R3, R10, R30). -/

namespace Sys2Proof

/-- A 64-string (R3): the contents of a data register, IP, a virtual address, a table entry. Bit `{i}` of the source is
bit `64 - i` counted from the least significant one (R4). -/
abbrev Word := BitVec 64

/-- The 8-string that one cell of primary memory holds (R30). -/
abbrev Byte := BitVec 8

/-- The number of a data register, 0 to 15 (R10). -/
abbrev Reg := Fin 16

end Sys2Proof
end

