-- ==== Sys2Proof/Syntax.lean ====
section
/-! DEFINITION. The instructions of the OSER: one constructor for each of the 63 rows of the opcode table, named after the
row's mnemonic and format (R72 to R76, R79, R86). The fields are the operand fields of the format figures (R6): `z` and `q`
register numbers (`r` where the figures write R), `w` the constant, `a` the address constant, `ae` the Ä-bit, `g` the field
G, `cond` the instruction condition, one bit per value of SR.C from the left (R90), so that its length is not tied to CW. `w` and
`a` are strings of any width: D17 and N26 leave their widths to ENCODING. Under RP-1 `w` has 16 bits, and `a` 12 in ML and MS and 16
in BA and UD (R78). -/

namespace Sys2Proof

/-- A constant of an instruction, W or A: a string of some width (R6, N26). -/
structure Const where
  width : Nat
  bits  : BitVec width
  deriving DecidableEq, Repr

/-- One constructor per row of the opcode table. -/
inductive Instr where
  /-- SCI, Skip, constant format (R92, R79). -/
  | sciK (cond : List Bool) (r : Reg) (w : Const)
  /-- SCI, memory format: the 64-string at x[q] + A (R92, R79). -/
  | sciBA (cond : List Bool) (r q : Reg) (a : Const)
  /-- SCI, register format (R92, R79). -/
  | sciRR (cond : List Bool) (r q : Reg)
  /-- JMP, Jump, constant format (R93, R79). -/
  | jmpK (cond : List Bool) (r : Reg) (w : Const)
  /-- JMP, memory format: the 64-string at x[q] + A (R93, R79). -/
  | jmpBA (cond : List Bool) (r q : Reg) (a : Const)
  /-- JMP, register format (R93, R79). -/
  | jmpRR (cond : List Bool) (r q : Reg)
  /-- LSH, Left Shift, constant format (R121, R76). -/
  | lshK (z : Reg) (w : Const)
  /-- LSH, memory format, load form (R121, R73). -/
  | lshML (z q : Reg) (ae : Bool) (g : BitVec 3) (a : Const)
  /-- LSH, memory format, store form (R121, R73). -/
  | lshMS (z q : Reg) (ae : Bool) (g : BitVec 3) (a : Const)
  /-- LSH, register format (R121, R72). -/
  | lshRR (z q : Reg)
  /-- RNS, Logical Right Shift, constant format (R122, R76). -/
  | rnsK (z : Reg) (w : Const)
  /-- RNS, memory format, load form (R122, R73). -/
  | rnsML (z q : Reg) (ae : Bool) (g : BitVec 3) (a : Const)
  /-- RNS, memory format, store form (R122, R73). -/
  | rnsMS (z q : Reg) (ae : Bool) (g : BitVec 3) (a : Const)
  /-- RNS, register format (R122, R72). -/
  | rnsRR (z q : Reg)
  /-- RFS, Arithmetic Right Shift, constant format (R123, R76). -/
  | rfsK (z : Reg) (w : Const)
  /-- RFS, memory format, load form (R123, R73). -/
  | rfsML (z q : Reg) (ae : Bool) (g : BitVec 3) (a : Const)
  /-- RFS, memory format, store form (R123, R73). -/
  | rfsMS (z q : Reg) (ae : Bool) (g : BitVec 3) (a : Const)
  /-- RFS, register format (R123, R72). -/
  | rfsRR (z q : Reg)
  /-- THR, Rotate, constant format (R124, R76). -/
  | thrK (z : Reg) (w : Const)
  /-- THR, memory format, load form (R124, R73). -/
  | thrML (z q : Reg) (ae : Bool) (g : BitVec 3) (a : Const)
  /-- THR, memory format, store form (R124, R73). -/
  | thrMS (z q : Reg) (ae : Bool) (g : BitVec 3) (a : Const)
  /-- THR, register format (R124, R72). -/
  | thrRR (z q : Reg)
  /-- AND, Conjunction, constant format (R125, R76). -/
  | andK (z : Reg) (w : Const)
  /-- AND, memory format, load form (R125, R73). -/
  | andML (z q : Reg) (ae : Bool) (g : BitVec 3) (a : Const)
  /-- AND, memory format, store form (R125, R73). -/
  | andMS (z q : Reg) (ae : Bool) (g : BitVec 3) (a : Const)
  /-- AND, register format (R125, R72). -/
  | andRR (z q : Reg)
  /-- OR, Union, constant format (R126, R76). -/
  | orK (z : Reg) (w : Const)
  /-- OR, memory format, load form (R126, R73). -/
  | orML (z q : Reg) (ae : Bool) (g : BitVec 3) (a : Const)
  /-- OR, memory format, store form (R126, R73). -/
  | orMS (z q : Reg) (ae : Bool) (g : BitVec 3) (a : Const)
  /-- OR, register format (R126, R72). -/
  | orRR (z q : Reg)
  /-- NOT, Complement, constant format (R127, R76). -/
  | notK (z : Reg) (w : Const)
  /-- NOT, memory format, load form (R127, R73). -/
  | notML (z q : Reg) (ae : Bool) (g : BitVec 3) (a : Const)
  /-- NOT, memory format, store form (R127, R73). -/
  | notMS (z q : Reg) (ae : Bool) (g : BitVec 3) (a : Const)
  /-- NOT, register format (R127, R72). -/
  | notRR (z q : Reg)
  /-- SSW, Sign Swap, constant format (R128, R76). -/
  | sswK (z : Reg) (w : Const)
  /-- SSW, memory format, load form (R128, R73). -/
  | sswML (z q : Reg) (ae : Bool) (g : BitVec 3) (a : Const)
  /-- SSW, memory format, store form (R128, R73). -/
  | sswMS (z q : Reg) (ae : Bool) (g : BitVec 3) (a : Const)
  /-- SSW, register format (R128, R72). -/
  | sswRR (z q : Reg)
  /-- GIV, Add, constant format (R141, R76). -/
  | givK (z : Reg) (w : Const)
  /-- GIV, memory format, load form (R141, R73). -/
  | givML (z q : Reg) (ae : Bool) (g : BitVec 3) (a : Const)
  /-- GIV, memory format, store form (R141, R73). -/
  | givMS (z q : Reg) (ae : Bool) (g : BitVec 3) (a : Const)
  /-- GIV, register format (R141, R72). -/
  | givRR (z q : Reg)
  /-- TAC, Subtract, constant format (R142, R76). -/
  | tacK (z : Reg) (w : Const)
  /-- TAC, memory format, load form (R142, R73). -/
  | tacML (z q : Reg) (ae : Bool) (g : BitVec 3) (a : Const)
  /-- TAC, memory format, store form (R142, R73). -/
  | tacMS (z q : Reg) (ae : Bool) (g : BitVec 3) (a : Const)
  /-- TAC, register format (R142, R72). -/
  | tacRR (z q : Reg)
  /-- FLD, Multiply, constant format (R143, R76). -/
  | fldK (z : Reg) (w : Const)
  /-- FLD, memory format, load form (R143, R73). -/
  | fldML (z q : Reg) (ae : Bool) (g : BitVec 3) (a : Const)
  /-- FLD, memory format, store form (R143, R73). -/
  | fldMS (z q : Reg) (ae : Bool) (g : BitVec 3) (a : Const)
  /-- FLD, register format (R143, R72). -/
  | fldRR (z q : Reg)
  /-- CUT, Divide, constant format (R144, R76). -/
  | cutK (z : Reg) (w : Const)
  /-- CUT, memory format, load form (R144, R73). -/
  | cutML (z q : Reg) (ae : Bool) (g : BitVec 3) (a : Const)
  /-- CUT, memory format, store form (R144, R73). -/
  | cutMS (z q : Reg) (ae : Bool) (g : BitVec 3) (a : Const)
  /-- CUT, register format (R144, R72). -/
  | cutRR (z q : Reg)
  /-- STR, Move, constant format (R101). -/
  | strK (z : Reg) (w : Const)
  /-- STR, memory format, load form (R102). -/
  | strML (z q : Reg) (ae : Bool) (g : BitVec 3) (a : Const)
  /-- STR, memory format, store form (R103). -/
  | strMS (z q : Reg) (ae : Bool) (g : BitVec 3) (a : Const)
  /-- STR, register format (R104). -/
  | strRR (z q : Reg)
  /-- USS, Atomic Move, first format: register target (R105). Bit 17 is the constant 0, so there is no Ä-bit. -/
  | ussML (z q : Reg) (g : BitVec 3) (a : Const)
  /-- USS, second format: memory target (R106). -/
  | ussMS (z q : Reg) (g : BitVec 3) (a : Const)
  /-- BRS, Context Switch, with address constant (R108). -/
  | brsBA (r q : Reg) (a : Const)
  /-- BRS, registers only (R109). -/
  | brsRR (r q : Reg)
  /-- UDB, Interruption (R111). `q` is the 4-bit number {13..16} of the first register of the pair, which is even. -/
  | udb (z q : Reg) (a : Const)
  deriving DecidableEq, Repr

/-- The 18 mnemonics (R84). -/
inductive Mnemonic where
  | sci | jmp | lsh | rns | rfs | thr | and | or | not | ssw | giv | tac | fld | cut | str | uss | brs | udb
  deriving DecidableEq, Repr

/-- The formats of R72 to R76: constant, load form, store form, register, with 16-bit address constant, UDB. -/
inductive Format where
  | k | ml | ms | rr | ba | ud
  deriving DecidableEq, Repr

/-- The two lengths of an instruction, in cells (R70, R83). -/
inductive Length where
  | two | four
  deriving DecidableEq, Repr

end Sys2Proof
end

