-- ==== Sys2Proof/Config.lean ====
section
/-! DEFINITION. The parameters of a model of the OSER (R9): every quantity whose figure is lost or on which the source is
silent. R9 says that a model takes them as arguments, so they form one record of plain data that State carries unchanged.
The parameters that are functions have their default of the spec and, beside it, an uninterpreted version: an opaque
constant, of which no proof can see a value. -/

namespace Sys2Proof

/-- The bits {first..last} of an instruction, in the source's numbering (R3); a field that a format does not have is {1..0}. -/
structure Field where
  first : Nat
  last  : Nat
  deriving DecidableEq, Repr

/-- No field. -/
def Field.none : Field := ⟨1, 0⟩

/-- One row of an ENCODING (R9, D16, D17): an instruction and format, its length, the mask and the values of its constant bits as
numbers (R4), and where its fields lie. -/
structure EncodingRow where
  mnemonic : Mnemonic
  format   : Format
  length   : Length
  mask     : Nat
  value    : Nat
  cond     : Field := Field.none
  z        : Field := Field.none
  q        : Field := Field.none
  ae       : Field := Field.none
  g        : Field := Field.none
  a        : Field := Field.none
  w        : Field := Field.none
  deriving DecidableEq, Repr

/-- ENCODING (D16, D17): the reconstruction RP-1, or any other record of opcodes and format layouts. The first row that fits
counts. -/
inductive Encoding where
  | rp1
  | table (rows : List EncodingRow)
  deriving DecidableEq, Repr

/-- IP_BASE (D11, R24): what "IP" means in the description of an instruction. -/
inductive IpBase where
  | next | this
  deriving DecidableEq, Repr

/-- CUT_ORDER (D22, R144). -/
inductive CutOrder where
  | sourceOverTarget | targetOverSource
  deriving DecidableEq, Repr

/-- DIV (D22, R145 (d)): the exact quotient rounded toward zero, or any other function. -/
inductive DivRule where
  | truncating | other
  deriving DecidableEq, Repr

/-- CROSS_FRAME (D8, R38). -/
inductive CrossFrame where
  | literal | fault
  deriving DecidableEq, Repr

/-- How a constant is extended to 64 bits: A_EXT and W_EXT (D19, D20, R78). -/
inductive Ext where
  | zero | sign
  deriving DecidableEq, Repr

/-- CC_UPDATE (D13, R14): never, or any other function of the instruction, its operands and its results. -/
inductive CcUpdate where
  | never | other
  deriving DecidableEq, Repr

/-- TRAP_ENTRY (D26, R164): a condition is the terminal outcome Trapped, or it starts a trap program. -/
inductive TrapEntry where
  | terminal | program
  deriving DecidableEq, Repr

/-- A fixed point format (R18): signed is Z, otherwise U; and its number of cells, in the source 1, 2, 4 or 8. N11 leaves it open that
G is a size code with other sizes, so any number may stand here. -/
structure NumFormat where
  signed : Bool
  cells  : Nat
  deriving DecidableEq, Repr

/-- SR_LAYOUT (D14, N3, N26): the number of cells of the SR image, the width of the root table pointer, and where the fields lie,
as the number of bits to the right of the field. A pointer of k bits is the first k bits of a 64-bit address (D3). -/
structure SrLayout where
  cells    : Nat
  rootBits : Fin 65
  rootLo   : Nat
  ccLo     : Nat
  ipLo     : Nat
  deriving DecidableEq, Repr

/-- IRQ_ENTRY_LAYOUT (D15, N26): the width of the root table pointer, and where it and the data address lie in an interrupt entry,
as the number of bits to the right of the field. -/
structure IrqLayout where
  rootBits : Fin 65
  rootLo   : Nat
  dataLo   : Nat
  deriving DecidableEq, Repr

/-- The parameters of R9. `cw` is the width of SR.C (D13); `gFormats` is G_MEANING (D18): the fixed point format that each value of field
G selects. -/
structure Config where
  physCells       : Nat
  cw              : Nat
  gates           : List (Nat × Nat)
  encoding        : Encoding
  ipBase          : IpBase
  cutOrder        : CutOrder
  division        : DivRule
  crossFrame      : CrossFrame
  gateFormatCheck : Bool
  aExt            : Ext
  wExtMove        : Ext
  wExtControl     : Ext
  wExtBitwise     : Ext
  gFormats        : Vector NumFormat 8
  ccUpdate        : CcUpdate
  trapEntry       : TrapEntry
  srLayout        : SrLayout
  irqLayout       : IrqLayout
  deriving DecidableEq, Repr

/-- The formats of G in the spec (R77): the first bit of G is the signedness, the other two the logarithm of the length. -/
def Config.standardFormats : Vector NumFormat 8 :=
  #v[⟨false, 1⟩, ⟨false, 2⟩, ⟨false, 4⟩, ⟨false, 8⟩, ⟨true, 1⟩, ⟨true, 2⟩, ⟨true, 4⟩, ⟨true, 8⟩]

/-- SR = R {1..54}, 0 {55..62}, C {63..64}, IP {65..128} (R13). -/
def Config.standardSr : SrLayout := { cells := 16, rootBits := 54, rootLo := 74, ccLo := 64, ipLo := 0 }

/-- Interrupt entry = T {1..64}, of which {1..54} is the root table pointer, and B {65..128} (R171). -/
def Config.standardIrq : IrqLayout := { rootBits := 54, rootLo := 74, dataLo := 0 }

/-- Every parameter at the default R9 gives it. PHYS_CELLS is open in the spec: DESIGN CHOICE, the whole physical address
space is populated (log 5). -/
def Config.standard : Config where
  physCells := 2 ^ 64
  cw := 2
  gates := []
  encoding := .rp1
  ipBase := .next
  cutOrder := .sourceOverTarget
  division := .truncating
  crossFrame := .literal
  gateFormatCheck := true
  aExt := .sign
  wExtMove := .sign
  wExtControl := .sign
  wExtBitwise := .zero
  gFormats := Config.standardFormats
  ccUpdate := .never
  trapEntry := .terminal
  srLayout := Config.standardSr
  irqLayout := Config.standardIrq

/-- The conditions of R161. -/
inductive Condition where
  /-- A table entry or gate of no format, or an access that the entry does not allow (R162). -/
  | zee
  /-- The S-bit of the holder is 1 (R163). -/
  | zsw
  /-- The instruction is not recognized (R165). -/
  | aea
  /-- The USS store format found a write after the last USS (R166). The name is the spec's. -/
  | ussfail
  deriving DecidableEq, Repr

/-- What the USS monitor holds for a cell that a USS has covered; a cell with no entry is `none` (R16). -/
inductive Mark where
  | clean | dirty
  deriving DecidableEq, Repr

/-- The register file of a processing unit: the data registers and the fields R, C, IP of SR (R10, R13). -/
structure RegFile where
  regs : Vector Word 16
  root : Nat
  cc   : Nat
  ip   : Word
  deriving DecidableEq, Repr, Inhabited

/-- A write of a string of cells at a physical address, by another agent than the unit's own instructions. -/
structure Store where
  addr  : Nat
  cells : List Byte
  deriving DecidableEq, Repr, Inhabited

/-- What a trap program is given (R164): the condition, and the unit's state at that time (R27) with the memory it can see. -/
structure TrapInput where
  cond : Condition
  file : RegFile
  mon  : List (Nat × Mark)
  mem  : List (Nat × Byte)
  deriving DecidableEq, Repr

/-- How the unit goes on from a condition where TRAP_ENTRY runs trap programs (R164): its register file, and what the entry wrote to
memory (the source does not say how the unit's state is handed over). -/
structure TrapStart where
  file   : RegFile
  stores : List Store
  deriving DecidableEq, Repr, Inhabited

/-- FREE: CC_UPDATE where it is not "never" (R14): from the instruction, its operands and its results, a new value of C or
"unchanged". DESIGN CHOICE (log 7): which values each instruction hands over as operands and results, which R14 does not say. -/
opaque Config.otherCc : Instr → List Word → List Word → Option Nat

/-- FREE: DIV where it is not the truncating quotient (R145 (d)): signedness, dividend, divisor. -/
opaque Config.otherDiv : Bool → Word → Word → Word

/-- FREE: TRAP_ENTRY where trap programs run (R164): how the unit goes on. DESIGN CHOICE (log 25): a condition raised while a trap
program runs, which R169 does not describe, enters the trap by this same function. -/
opaque Config.trapProgram : TrapInput → TrapStart

end Sys2Proof
end

