-- ==== Sys2Proof/WellFormed.lean ====
section
/-! DEFINITION. Which instructions have an encoding under RP-1: UDB names an even-odd register pair (R11, R75), the instruction
condition has the four bits of RP-1 (R79), and W and A have the widths of their formats (R78). -/

namespace Sys2Proof

/-- `q` is the first register of a pair `(q, q + 1)`: its number ends in the fixed 0 of bit {16} (R75). -/
def pairFirst (q : Reg) : Bool := q.val % 2 == 0

/-- The condition fills the field {5..8} of RP-1 (R79). -/
def condFits (cond : List Bool) : Bool := cond.length == 4

/-- The constant fills a field of `n` bits (R73 to R76, R78). -/
def constFits (n : Nat) (c : Const) : Bool := c.width == n

/-- The instruction has an encoding under RP-1 (R11, R73 to R79, R82). -/
def WellFormed : Instr → Bool
  | .sciK cond _ w => condFits cond && constFits 16 w
  | .sciBA cond _ _ a => condFits cond && constFits 16 a
  | .sciRR cond _ _ => condFits cond
  | .jmpK cond _ w => condFits cond && constFits 16 w
  | .jmpBA cond _ _ a => condFits cond && constFits 16 a
  | .jmpRR cond _ _ => condFits cond
  | .lshK _ w | .rnsK _ w | .rfsK _ w | .thrK _ w | .andK _ w | .orK _ w | .notK _ w
  | .sswK _ w | .givK _ w | .tacK _ w | .fldK _ w | .cutK _ w | .strK _ w => constFits 16 w
  | .lshML _ _ _ _ a | .rnsML _ _ _ _ a | .rfsML _ _ _ _ a | .thrML _ _ _ _ a | .andML _ _ _ _ a
  | .orML _ _ _ _ a | .notML _ _ _ _ a | .sswML _ _ _ _ a | .givML _ _ _ _ a | .tacML _ _ _ _ a
  | .fldML _ _ _ _ a | .cutML _ _ _ _ a | .strML _ _ _ _ a | .lshMS _ _ _ _ a | .rnsMS _ _ _ _ a
  | .rfsMS _ _ _ _ a | .thrMS _ _ _ _ a | .andMS _ _ _ _ a | .orMS _ _ _ _ a | .notMS _ _ _ _ a
  | .sswMS _ _ _ _ a | .givMS _ _ _ _ a | .tacMS _ _ _ _ a | .fldMS _ _ _ _ a | .cutMS _ _ _ _ a
  | .strMS _ _ _ _ a => constFits 12 a
  | .ussML _ _ _ a | .ussMS _ _ _ a => constFits 12 a
  | .brsBA _ _ a => constFits 16 a
  | .udb _ q a => pairFirst q && constFits 16 a
  | .lshRR _ _ | .rnsRR _ _ | .rfsRR _ _ | .thrRR _ _ | .andRR _ _ | .orRR _ _ | .notRR _ _
  | .sswRR _ _ | .givRR _ _ | .tacRR _ _ | .fldRR _ _ | .cutRR _ _ | .strRR _ _ | .brsRR _ _ => true

end Sys2Proof
end

