-- ==== Sys2Proof/Decode.lean ====
section
/-! DEFINITION. Decoding: byte order, the fields of the formats (R72 to R76, R79), the opcode map RP-1 (R80), recognition
(R81, R82), recognition under any other record of opcodes and layouts (R9, D16, D17), and after it the encoder. Claims about
encodings hold for RP-1 only (U6, log 2). -/

namespace Sys2Proof

/-! Byte order (R31): cell k of an 8n-string holds its bits 8k-7 to 8k, so the first cell is the most significant. -/

/-- The `n` cells of the 8n-string with the value `v` modulo 2^(8n), first cell first (R31). -/
def toCells : Nat → Nat → List Byte
  | 0, _ => []
  | n + 1, v => BitVec.ofNat 8 (v / 2 ^ (8 * n)) :: toCells n v

/-- The unsigned value u(S) of the string that these cells hold (R4, R31). -/
def fromCells : List Byte → Nat
  | [] => 0
  | b :: bs => b.toNat * 2 ^ (8 * bs.length) + fromCells bs

/-! The fields of the formats, as parts of the cells of an instruction. -/

/-- Bits {1..4} of a cell: the register number {9..12} in an instruction's second cell. -/
def hiNibble (b : Byte) : BitVec 4 := b.extractLsb' 4 4

/-- Bits {5..8} of a cell: the register number {13..16} in an instruction's second cell. -/
def loNibble (b : Byte) : BitVec 4 := b.extractLsb' 0 4

/-- A register number from its 4-bit field. -/
def regOf (n : BitVec 4) : Reg := n.toFin

/-- The 4-bit field of a register number. -/
def regBits (r : Reg) : BitVec 4 := BitVec.ofFin (w := 4) r

/-- W or A of 16 bits, {17..32} (R74 to R76). -/
def const16 (b3 b4 : Byte) : BitVec 16 := b3 ++ b4

/-- The constant with these bits. -/
def constOf {n : Nat} (b : BitVec n) : Const := ⟨n, b⟩

/-- The bits of a constant as a field of `n` bits. -/
def Const.field (c : Const) (n : Nat) : BitVec n := c.bits.setWidth n

/-- A of 12 bits, {21..32} (R73). -/
def disp12 (b3 b4 : Byte) : BitVec 12 := loNibble b3 ++ b4

/-- The Ä-bit {17} (R73). -/
def aeBit (b3 : Byte) : Bool := b3.getLsbD 7

/-- Field G, {18..20} (R73). -/
def gField (b3 : Byte) : BitVec 3 := b3.extractLsb' 4 3

/-- F {1..2} of the opcode (R80): 00 load form, 10 store form, 01 register, 11 constant. -/
def opForm (op : Byte) : BitVec 2 := op.extractLsb' 6 2

/-- K {3..4} of the opcode (R80): 00 SCI, 01 JMP, 10 bitwise and arithmetic, 11 move. -/
def opGroup (op : Byte) : BitVec 2 := op.extractLsb' 4 2

/-- N {5..8} of the opcode (R80), which is cond in SCI and JMP (R79). -/
def opNumber (op : Byte) : BitVec 4 := loNibble op

/-- The instruction condition in a 4-bit field, its first bit first (R79, R90). -/
def condBits (n : BitVec 4) : List Bool := [n.getMsbD 0, n.getMsbD 1, n.getMsbD 2, n.getMsbD 3]

/-- The 4-bit field of an instruction condition (R79). -/
def condField (cond : List Bool) : BitVec 4 :=
  BitVec.ofBool (cond.getD 0 false) ++ BitVec.ofBool (cond.getD 1 false) ++ BitVec.ofBool (cond.getD 2 false) ++
    BitVec.ofBool (cond.getD 3 false)

/-- The number of cells of a length (R70). -/
def Length.cells : Length → Nat
  | .two => 2
  | .four => 4

/-- The length of a format (R70, R76): the register format has 16 bits, every other one 32. -/
def Format.length : Format → Length
  | .rr => .two
  | .k => .four
  | .ml => .four
  | .ms => .four
  | .ba => .four
  | .ud => .four

/-- The format of an instruction: the second part of its row in the opcode table. -/
def Instr.format : Instr → Format
  | .sciK _ _ _ => .k
  | .sciBA _ _ _ _ => .ba
  | .sciRR _ _ _ => .rr
  | .jmpK _ _ _ => .k
  | .jmpBA _ _ _ _ => .ba
  | .jmpRR _ _ _ => .rr
  | .lshK _ _ => .k
  | .lshML _ _ _ _ _ => .ml
  | .lshMS _ _ _ _ _ => .ms
  | .lshRR _ _ => .rr
  | .rnsK _ _ => .k
  | .rnsML _ _ _ _ _ => .ml
  | .rnsMS _ _ _ _ _ => .ms
  | .rnsRR _ _ => .rr
  | .rfsK _ _ => .k
  | .rfsML _ _ _ _ _ => .ml
  | .rfsMS _ _ _ _ _ => .ms
  | .rfsRR _ _ => .rr
  | .thrK _ _ => .k
  | .thrML _ _ _ _ _ => .ml
  | .thrMS _ _ _ _ _ => .ms
  | .thrRR _ _ => .rr
  | .andK _ _ => .k
  | .andML _ _ _ _ _ => .ml
  | .andMS _ _ _ _ _ => .ms
  | .andRR _ _ => .rr
  | .orK _ _ => .k
  | .orML _ _ _ _ _ => .ml
  | .orMS _ _ _ _ _ => .ms
  | .orRR _ _ => .rr
  | .notK _ _ => .k
  | .notML _ _ _ _ _ => .ml
  | .notMS _ _ _ _ _ => .ms
  | .notRR _ _ => .rr
  | .sswK _ _ => .k
  | .sswML _ _ _ _ _ => .ml
  | .sswMS _ _ _ _ _ => .ms
  | .sswRR _ _ => .rr
  | .givK _ _ => .k
  | .givML _ _ _ _ _ => .ml
  | .givMS _ _ _ _ _ => .ms
  | .givRR _ _ => .rr
  | .tacK _ _ => .k
  | .tacML _ _ _ _ _ => .ml
  | .tacMS _ _ _ _ _ => .ms
  | .tacRR _ _ => .rr
  | .fldK _ _ => .k
  | .fldML _ _ _ _ _ => .ml
  | .fldMS _ _ _ _ _ => .ms
  | .fldRR _ _ => .rr
  | .cutK _ _ => .k
  | .cutML _ _ _ _ _ => .ml
  | .cutMS _ _ _ _ _ => .ms
  | .cutRR _ _ => .rr
  | .strK _ _ => .k
  | .strML _ _ _ _ _ => .ml
  | .strMS _ _ _ _ _ => .ms
  | .strRR _ _ => .rr
  | .ussML _ _ _ _ => .ml
  | .ussMS _ _ _ _ => .ms
  | .brsBA _ _ _ => .ba
  | .brsRR _ _ => .rr
  | .udb _ _ _ => .ud

/-- The mnemonic of an instruction: the first part of its row in the opcode table. -/
def Instr.mnemonic : Instr → Mnemonic
  | .sciK _ _ _ | .sciBA _ _ _ _ | .sciRR _ _ _ => .sci
  | .jmpK _ _ _ | .jmpBA _ _ _ _ | .jmpRR _ _ _ => .jmp
  | .lshK _ _ | .lshML _ _ _ _ _ | .lshMS _ _ _ _ _ | .lshRR _ _ => .lsh
  | .rnsK _ _ | .rnsML _ _ _ _ _ | .rnsMS _ _ _ _ _ | .rnsRR _ _ => .rns
  | .rfsK _ _ | .rfsML _ _ _ _ _ | .rfsMS _ _ _ _ _ | .rfsRR _ _ => .rfs
  | .thrK _ _ | .thrML _ _ _ _ _ | .thrMS _ _ _ _ _ | .thrRR _ _ => .thr
  | .andK _ _ | .andML _ _ _ _ _ | .andMS _ _ _ _ _ | .andRR _ _ => .and
  | .orK _ _ | .orML _ _ _ _ _ | .orMS _ _ _ _ _ | .orRR _ _ => .or
  | .notK _ _ | .notML _ _ _ _ _ | .notMS _ _ _ _ _ | .notRR _ _ => .not
  | .sswK _ _ | .sswML _ _ _ _ _ | .sswMS _ _ _ _ _ | .sswRR _ _ => .ssw
  | .givK _ _ | .givML _ _ _ _ _ | .givMS _ _ _ _ _ | .givRR _ _ => .giv
  | .tacK _ _ | .tacML _ _ _ _ _ | .tacMS _ _ _ _ _ | .tacRR _ _ => .tac
  | .fldK _ _ | .fldML _ _ _ _ _ | .fldMS _ _ _ _ _ | .fldRR _ _ => .fld
  | .cutK _ _ | .cutML _ _ _ _ _ | .cutMS _ _ _ _ _ | .cutRR _ _ => .cut
  | .strK _ _ | .strML _ _ _ _ _ | .strMS _ _ _ _ _ | .strRR _ _ => .str
  | .ussML _ _ _ _ | .ussMS _ _ _ _ => .uss
  | .brsBA _ _ _ | .brsRR _ _ => .brs
  | .udb _ _ _ => .udb

/-- The length of an instruction in cells under RP-1 (R70, R76). -/
def Instr.cells (i : Instr) : Nat := i.format.length.cells

/-- Length under RP-1 is a function of F alone (R81). -/
def lengthOfForm (f : BitVec 2) : Length := if f = 0b01#2 then .two else .four

/-- The opcode map RP-1 as step 2 of the instruction cycle looks it up (R80, R81): none where the opcode byte is absent. -/
def rp1Length (op : Byte) : Option Length :=
  let f := opForm op
  let n := opNumber op
  match opGroup op with
  | 0b00#2 => if f = 0b10#2 then none else some (lengthOfForm f)
  | 0b01#2 => if f = 0b10#2 then none else some (lengthOfForm f)
  | 0b10#2 => if n.toNat < 12 then some (lengthOfForm f) else none
  | _ =>
    if n = 0x0#4 ∨ (n = 0x1#4 ∧ (f = 0b00#2 ∨ f = 0b10#2)) ∨ (n = 0x2#4 ∧ f ≠ 0b11#2)
    then some (lengthOfForm f) else none

/-! Group K = 10 of R80, one function for each format. -/

/-- Constant formats of the bitwise and arithmetic instructions (R76, R80). -/
def aluK (n : BitVec 4) (z : Reg) (w : Const) : Option Instr :=
  match n with
  | 0x0#4 => some (.lshK z w)
  | 0x1#4 => some (.rnsK z w)
  | 0x2#4 => some (.rfsK z w)
  | 0x3#4 => some (.thrK z w)
  | 0x4#4 => some (.andK z w)
  | 0x5#4 => some (.orK z w)
  | 0x6#4 => some (.notK z w)
  | 0x7#4 => some (.sswK z w)
  | 0x8#4 => some (.givK z w)
  | 0x9#4 => some (.tacK z w)
  | 0xA#4 => some (.fldK z w)
  | 0xB#4 => some (.cutK z w)
  | _ => none

/-- Load forms of the bitwise and arithmetic instructions (R73, R80). -/
def aluML (n : BitVec 4) (z q : Reg) (ae : Bool) (g : BitVec 3) (a : Const) : Option Instr :=
  match n with
  | 0x0#4 => some (.lshML z q ae g a)
  | 0x1#4 => some (.rnsML z q ae g a)
  | 0x2#4 => some (.rfsML z q ae g a)
  | 0x3#4 => some (.thrML z q ae g a)
  | 0x4#4 => some (.andML z q ae g a)
  | 0x5#4 => some (.orML z q ae g a)
  | 0x6#4 => some (.notML z q ae g a)
  | 0x7#4 => some (.sswML z q ae g a)
  | 0x8#4 => some (.givML z q ae g a)
  | 0x9#4 => some (.tacML z q ae g a)
  | 0xA#4 => some (.fldML z q ae g a)
  | 0xB#4 => some (.cutML z q ae g a)
  | _ => none

/-- Store forms of the bitwise and arithmetic instructions (R73, R80). -/
def aluMS (n : BitVec 4) (z q : Reg) (ae : Bool) (g : BitVec 3) (a : Const) : Option Instr :=
  match n with
  | 0x0#4 => some (.lshMS z q ae g a)
  | 0x1#4 => some (.rnsMS z q ae g a)
  | 0x2#4 => some (.rfsMS z q ae g a)
  | 0x3#4 => some (.thrMS z q ae g a)
  | 0x4#4 => some (.andMS z q ae g a)
  | 0x5#4 => some (.orMS z q ae g a)
  | 0x6#4 => some (.notMS z q ae g a)
  | 0x7#4 => some (.sswMS z q ae g a)
  | 0x8#4 => some (.givMS z q ae g a)
  | 0x9#4 => some (.tacMS z q ae g a)
  | 0xA#4 => some (.fldMS z q ae g a)
  | 0xB#4 => some (.cutMS z q ae g a)
  | _ => none

/-- Register formats of the bitwise and arithmetic instructions (R72, R80). -/
def aluRR (n : BitVec 4) (z q : Reg) : Option Instr :=
  match n with
  | 0x0#4 => some (.lshRR z q)
  | 0x1#4 => some (.rnsRR z q)
  | 0x2#4 => some (.rfsRR z q)
  | 0x3#4 => some (.thrRR z q)
  | 0x4#4 => some (.andRR z q)
  | 0x5#4 => some (.orRR z q)
  | 0x6#4 => some (.notRR z q)
  | 0x7#4 => some (.sswRR z q)
  | 0x8#4 => some (.givRR z q)
  | 0x9#4 => some (.tacRR z q)
  | 0xA#4 => some (.fldRR z q)
  | 0xB#4 => some (.cutRR z q)
  | _ => none

/-- The instruction of a 2-cell string under RP-1 (R72, R80). -/
def rp1Half (op b2 : Byte) : Option Instr :=
  let z := regOf (hiNibble b2)
  let q := regOf (loNibble b2)
  let n := opNumber op
  if opForm op = 0b01#2 then
    match opGroup op with
    | 0b00#2 => some (.sciRR (condBits n) z q)
    | 0b01#2 => some (.jmpRR (condBits n) z q)
    | 0b10#2 => aluRR n z q
    | _ =>
      match n with
      | 0x0#4 => some (.strRR z q)
      | 0x2#4 => some (.brsRR z q)
      | _ => none
  else none

/-- The constant format under RP-1: bits {13..16} must be 0000 (R76, R82). -/
def rp1Constant (op b2 b3 b4 : Byte) : Option Instr :=
  let z := regOf (hiNibble b2)
  let w := constOf (const16 b3 b4)
  let n := opNumber op
  if loNibble b2 = 0x0#4 then
    match opGroup op with
    | 0b00#2 => some (.sciK (condBits n) z w)
    | 0b01#2 => some (.jmpK (condBits n) z w)
    | 0b10#2 => aluK n z w
    | _ => if n = 0x0#4 then some (.strK z w) else none
  else none

/-- The formats with F = 00 under RP-1: load forms, and the 16-bit A of BRS and the control instructions (R73, R74, R79). USS
must have bit {17} = 0 (R82). -/
def rp1Load (op b2 b3 b4 : Byte) : Option Instr :=
  let z := regOf (hiNibble b2)
  let q := regOf (loNibble b2)
  let n := opNumber op
  match opGroup op with
  | 0b00#2 => some (.sciBA (condBits n) z q (constOf (const16 b3 b4)))
  | 0b01#2 => some (.jmpBA (condBits n) z q (constOf (const16 b3 b4)))
  | 0b10#2 => aluML n z q (aeBit b3) (gField b3) (constOf (disp12 b3 b4))
  | _ =>
    match n with
    | 0x0#4 => some (.strML z q (aeBit b3) (gField b3) (constOf (disp12 b3 b4)))
    | 0x1#4 => if aeBit b3 then none else some (.ussML z q (gField b3) (constOf (disp12 b3 b4)))
    | 0x2#4 => some (.brsBA z q (constOf (const16 b3 b4)))
    | _ => none

/-- The formats with F = 10 under RP-1: store forms, and UDB, whose bit {16} must be 0 (R73, R75, R82). -/
def rp1Store (op b2 b3 b4 : Byte) : Option Instr :=
  let z := regOf (hiNibble b2)
  let q := regOf (loNibble b2)
  let n := opNumber op
  match opGroup op with
  | 0b00#2 => none
  | 0b01#2 => none
  | 0b10#2 => aluMS n z q (aeBit b3) (gField b3) (constOf (disp12 b3 b4))
  | _ =>
    match n with
    | 0x0#4 => some (.strMS z q (aeBit b3) (gField b3) (constOf (disp12 b3 b4)))
    | 0x1#4 => if aeBit b3 then none else some (.ussMS z q (gField b3) (constOf (disp12 b3 b4)))
    | 0x2#4 => if pairFirst q then some (.udb z q (constOf (const16 b3 b4))) else none
    | _ => none

/-- The instruction of a 4-cell string under RP-1 (R80, R82). -/
def rp1Full (op b2 b3 b4 : Byte) : Option Instr :=
  match opForm op with
  | 0b00#2 => rp1Load op b2 b3 b4
  | 0b10#2 => rp1Store op b2 b3 b4
  | 0b11#2 => rp1Constant op b2 b3 b4
  | _ => none

/-- The instruction that these cells, all of it and nothing more, hold under RP-1. -/
def rp1Instr : List Byte → Option Instr
  | [op, b2] => rp1Half op b2
  | [op, b2, b3, b4] => rp1Full op b2 b3 b4
  | _ => none

/-! Any other record of opcodes and format layouts (R9, D16, D17). -/

/-- The fields of an instruction, each as its own type. -/
structure Operands where
  cond : List Bool
  z    : Reg
  q    : Reg
  ae   : Bool
  g    : BitVec 3
  a    : Const
  w    : Const
  deriving DecidableEq, Repr

/-- The number N of a bitwise or arithmetic instruction (R80), a name for it whatever the ENCODING. -/
def Mnemonic.aluNumber : Mnemonic → Option (BitVec 4)
  | .lsh => some 0x0#4
  | .rns => some 0x1#4
  | .rfs => some 0x2#4
  | .thr => some 0x3#4
  | .and => some 0x4#4
  | .or => some 0x5#4
  | .not => some 0x6#4
  | .ssw => some 0x7#4
  | .giv => some 0x8#4
  | .tac => some 0x9#4
  | .fld => some 0xA#4
  | .cut => some 0xB#4
  | .sci | .jmp | .str | .uss | .brs | .udb => none

/-- The instruction of a mnemonic and format with these operands; none where the instruction has no such format (R86). -/
def buildInstr (m : Mnemonic) (f : Format) (o : Operands) : Option Instr :=
  match f, m with
  | .k, .sci => some (.sciK o.cond o.z o.w)
  | .k, .jmp => some (.jmpK o.cond o.z o.w)
  | .k, .str => some (.strK o.z o.w)
  | .k, m => m.aluNumber.bind fun n => aluK n o.z o.w
  | .ml, .str => some (.strML o.z o.q o.ae o.g o.a)
  | .ml, .uss => some (.ussML o.z o.q o.g o.a)
  | .ml, m => m.aluNumber.bind fun n => aluML n o.z o.q o.ae o.g o.a
  | .ms, .str => some (.strMS o.z o.q o.ae o.g o.a)
  | .ms, .uss => some (.ussMS o.z o.q o.g o.a)
  | .ms, m => m.aluNumber.bind fun n => aluMS n o.z o.q o.ae o.g o.a
  | .rr, .sci => some (.sciRR o.cond o.z o.q)
  | .rr, .jmp => some (.jmpRR o.cond o.z o.q)
  | .rr, .str => some (.strRR o.z o.q)
  | .rr, .brs => some (.brsRR o.z o.q)
  | .rr, m => m.aluNumber.bind fun n => aluRR n o.z o.q
  | .ba, .sci => some (.sciBA o.cond o.z o.q o.a)
  | .ba, .jmp => some (.jmpBA o.cond o.z o.q o.a)
  | .ba, .brs => some (.brsBA o.z o.q o.a)
  | .ba, _ => none
  | .ud, .udb => if pairFirst o.q then some (.udb o.z o.q o.a) else none
  | .ud, _ => none

/-- The number of bits of a field. -/
def Field.width (f : Field) : Nat := f.last + 1 - f.first

/-- The number of bits of the instructions of a row (R70). -/
def EncodingRow.bits (r : EncodingRow) : Nat := 8 * r.length.cells

/-- The value of a field in an instruction with the value `v` (R4). -/
def EncodingRow.get (r : EncodingRow) (f : Field) (v : Nat) : Nat := v / 2 ^ (r.bits - f.last) % 2 ^ f.width

/-- The constant bits of the row among {1..8} have their values in this opcode byte (R71, R81). -/
def EncodingRow.opFits (r : EncodingRow) (op : Byte) : Bool :=
  (op.toNat &&& (r.mask / 2 ^ (r.bits - 8))) == r.value / 2 ^ (r.bits - 8)

/-- All constant bits of the row have their values (R82). -/
def EncodingRow.fits (r : EncodingRow) (cells : List Byte) : Bool :=
  r.length.cells == cells.length && (fromCells cells &&& r.mask) == r.value

/-- A field as a string, of the width it has in the row. -/
def EncodingRow.const (r : EncodingRow) (f : Field) (v : Nat) : Const := ⟨f.width, BitVec.ofNat f.width (r.get f v)⟩

/-- The operands of an instruction of the row. -/
def EncodingRow.operands (r : EncodingRow) (v : Nat) : Operands where
  cond := (List.range r.cond.width).map fun i => (r.get r.cond v).testBit (r.cond.width - 1 - i)
  z := regOf (BitVec.ofNat 4 (r.get r.z v))
  q := regOf (BitVec.ofNat 4 (r.get r.q v))
  ae := (r.get r.ae v).testBit 0
  g := BitVec.ofNat 3 (r.get r.g v)
  a := r.const r.a v
  w := r.const r.w v

/-- The instruction that these cells, all of it and nothing more, hold under a record of rows. -/
def tableInstr (rows : List EncodingRow) (cells : List Byte) : Option Instr :=
  match rows.find? (fun r => r.fits cells) with
  | some r => buildInstr r.mnemonic r.format (r.operands (fromCells cells))
  | none => none

/-- Looking up the opcode byte (step 2 of R160): the length, or none where the opcode is absent. -/
def Config.lengthOf (c : Config) (op : Byte) : Option Length :=
  match c.encoding with
  | .rp1 => rp1Length op
  | .table rows =>
    match rows.find? (fun r => r.opFits op) with
    | some r => some r.length
    | none => none

/-- Recognizing an instruction that has been read whole (step 2 of R160, R82). -/
def Config.recognize (c : Config) (cells : List Byte) : Option Instr :=
  match c.encoding with
  | .rp1 => rp1Instr cells
  | .table rows => tableInstr rows cells

/-- The length of an instruction in cells, by which IP advances (R24): that of its row. -/
def Config.cellsOf (c : Config) (i : Instr) : Nat :=
  match c.encoding with
  | .rp1 => i.cells
  | .table rows =>
    match rows.find? (fun r => r.mnemonic == i.mnemonic && r.format == i.format) with
    | some r => r.length.cells
    | none => i.cells

/-- Why a byte string is not an instruction. -/
inductive DecodeError where
  /-- The string ends before the instruction does. -/
  | truncated
  /-- The opcode byte is not in the opcode map (R82). -/
  | unknownOpcode
  /-- A constant bit of the format has the wrong value (R82, D33). -/
  | constantBits
  deriving DecidableEq, Repr

/-- The instruction at the front of a byte string, and the bytes after it; total, rejecting by name (R81, R82). -/
def decode : List Byte → Except DecodeError (Instr × List Byte)
  | [] => .error .truncated
  | op :: rest =>
    match rp1Length op with
    | none => .error .unknownOpcode
    | some len =>
      if (op :: rest).length < len.cells then .error .truncated
      else
        match rp1Instr ((op :: rest).take len.cells) with
        | some i => .ok (i, (op :: rest).drop len.cells)
        | none => .error .constantBits

/-- The cells of an instruction whose bits the opcode table numbers as `w` (bit 0 the last bit of the instruction's string,
R4): `nbits` bits, most significant cell first, and cells of zeros up to the longest instruction. -/
def tableCells (nbits w : Nat) : List Byte := toCells (nbits / 8) w ++ List.replicate (4 - nbits / 8) 0#8

/-- What the decoder reads from an instruction of the opcode table. -/
def decodeTableWord (nbits w : Nat) : Option Instr :=
  match decode (tableCells nbits w) with
  | .ok (i, _) => some i
  | .error _ => none

/-! The encoder, from the table of opcode bytes of R80. -/

/-- Register format (R72). -/
def packRR (op : Byte) (z q : Reg) : List Byte := [op, regBits z ++ regBits q]

/-- Constant format (R76). -/
def packK (op : Byte) (z : Reg) (w : BitVec 16) : List Byte :=
  [op, regBits z ++ 0x0#4, w.extractLsb' 8 8, w.extractLsb' 0 8]

/-- The third cell of a memory format: the Ä-bit {17}, G {18..20}, and the first four bits of A (R73). -/
def memCell (ae : Bool) (g : BitVec 3) (x : BitVec 4) : Byte := BitVec.ofBool ae ++ g ++ x

/-- Memory format (R73). -/
def packM (op : Byte) (z q : Reg) (ae : Bool) (g : BitVec 3) (a : BitVec 12) : List Byte :=
  [op, regBits z ++ regBits q, memCell ae g (a.extractLsb' 8 4), a.extractLsb' 0 8]

/-- The formats with a 16-bit A: BRS, the control instructions, UDB (R74, R75, R79). -/
def packBA (op : Byte) (r q : Reg) (a : BitVec 16) : List Byte :=
  [op, regBits r ++ regBits q, a.extractLsb' 8 8, a.extractLsb' 0 8]

/-- The opcode byte of a control instruction: F and K, then cond (R79, R80). -/
def condOp (fk cond : BitVec 4) : Byte := fk ++ cond

/-- The cells of an instruction under RP-1 (R80). -/
def encode : Instr → List Byte
  | .sciK cond r w => packK (condOp 0xC#4 (condField cond)) r (w.field 16)
  | .sciBA cond r q a => packBA (condOp 0x0#4 (condField cond)) r q (a.field 16)
  | .sciRR cond r q => packRR (condOp 0x4#4 (condField cond)) r q
  | .jmpK cond r w => packK (condOp 0xD#4 (condField cond)) r (w.field 16)
  | .jmpBA cond r q a => packBA (condOp 0x1#4 (condField cond)) r q (a.field 16)
  | .jmpRR cond r q => packRR (condOp 0x5#4 (condField cond)) r q
  | .lshK z w => packK 0xE0#8 z (w.field 16)
  | .lshML z q ae g a => packM 0x20#8 z q ae g (a.field 12)
  | .lshMS z q ae g a => packM 0xA0#8 z q ae g (a.field 12)
  | .lshRR z q => packRR 0x60#8 z q
  | .rnsK z w => packK 0xE1#8 z (w.field 16)
  | .rnsML z q ae g a => packM 0x21#8 z q ae g (a.field 12)
  | .rnsMS z q ae g a => packM 0xA1#8 z q ae g (a.field 12)
  | .rnsRR z q => packRR 0x61#8 z q
  | .rfsK z w => packK 0xE2#8 z (w.field 16)
  | .rfsML z q ae g a => packM 0x22#8 z q ae g (a.field 12)
  | .rfsMS z q ae g a => packM 0xA2#8 z q ae g (a.field 12)
  | .rfsRR z q => packRR 0x62#8 z q
  | .thrK z w => packK 0xE3#8 z (w.field 16)
  | .thrML z q ae g a => packM 0x23#8 z q ae g (a.field 12)
  | .thrMS z q ae g a => packM 0xA3#8 z q ae g (a.field 12)
  | .thrRR z q => packRR 0x63#8 z q
  | .andK z w => packK 0xE4#8 z (w.field 16)
  | .andML z q ae g a => packM 0x24#8 z q ae g (a.field 12)
  | .andMS z q ae g a => packM 0xA4#8 z q ae g (a.field 12)
  | .andRR z q => packRR 0x64#8 z q
  | .orK z w => packK 0xE5#8 z (w.field 16)
  | .orML z q ae g a => packM 0x25#8 z q ae g (a.field 12)
  | .orMS z q ae g a => packM 0xA5#8 z q ae g (a.field 12)
  | .orRR z q => packRR 0x65#8 z q
  | .notK z w => packK 0xE6#8 z (w.field 16)
  | .notML z q ae g a => packM 0x26#8 z q ae g (a.field 12)
  | .notMS z q ae g a => packM 0xA6#8 z q ae g (a.field 12)
  | .notRR z q => packRR 0x66#8 z q
  | .sswK z w => packK 0xE7#8 z (w.field 16)
  | .sswML z q ae g a => packM 0x27#8 z q ae g (a.field 12)
  | .sswMS z q ae g a => packM 0xA7#8 z q ae g (a.field 12)
  | .sswRR z q => packRR 0x67#8 z q
  | .givK z w => packK 0xE8#8 z (w.field 16)
  | .givML z q ae g a => packM 0x28#8 z q ae g (a.field 12)
  | .givMS z q ae g a => packM 0xA8#8 z q ae g (a.field 12)
  | .givRR z q => packRR 0x68#8 z q
  | .tacK z w => packK 0xE9#8 z (w.field 16)
  | .tacML z q ae g a => packM 0x29#8 z q ae g (a.field 12)
  | .tacMS z q ae g a => packM 0xA9#8 z q ae g (a.field 12)
  | .tacRR z q => packRR 0x69#8 z q
  | .fldK z w => packK 0xEA#8 z (w.field 16)
  | .fldML z q ae g a => packM 0x2A#8 z q ae g (a.field 12)
  | .fldMS z q ae g a => packM 0xAA#8 z q ae g (a.field 12)
  | .fldRR z q => packRR 0x6A#8 z q
  | .cutK z w => packK 0xEB#8 z (w.field 16)
  | .cutML z q ae g a => packM 0x2B#8 z q ae g (a.field 12)
  | .cutMS z q ae g a => packM 0xAB#8 z q ae g (a.field 12)
  | .cutRR z q => packRR 0x6B#8 z q
  | .strK z w => packK 0xF0#8 z (w.field 16)
  | .strML z q ae g a => packM 0x30#8 z q ae g (a.field 12)
  | .strMS z q ae g a => packM 0xB0#8 z q ae g (a.field 12)
  | .strRR z q => packRR 0x70#8 z q
  | .ussML z q g a => packM 0x31#8 z q false g (a.field 12)
  | .ussMS z q g a => packM 0xB1#8 z q false g (a.field 12)
  | .brsBA r q a => packBA 0x32#8 r q (a.field 16)
  | .brsRR r q => packRR 0x72#8 r q
  | .udb z q a => packBA 0xB2#8 z q (a.field 16)

end Sys2Proof
end

