-- ==== Sys2Proof/Machine/State.lean ====
section
/-! DEFINITION. The state of the machine (R27): one processing unit, primary memory, the interruptions it caused, and the
model's own fields (the environment's writes to come, whose turn it is, the parameters). Plain data throughout. -/

namespace Sys2Proof.Machine

/-- Primary memory (R15): the cells that do not read as an unlisted cell reads, at strictly rising physical addresses. -/
abbrev Memory := List Host.Cell

/-- The USS monitor (R16): the cells that a USS of this unit has covered, at strictly rising physical addresses. -/
abbrev Monitor := List (Nat × Mark)

/-- The event Interruption(target, entry) of R172. -/
structure Interruption where
  target : Nat
  entry  : BitVec 128
  deriving DecidableEq, Repr

/-- Why the rules give no next state: the outcome Stuck of R195. Safe: the model stops where the spec gives no step. -/
inductive Fault where
  /-- An access to a physical address with no cell behind it (R33, D10). Raised by readCell, writeCell and storeClean. Safe. -/
  | absentCell (pa : Nat)
  /-- CUT with divisor 0: DivideUndefined (R145 (e)). Raised by the meanings of CUT. Safe. -/
  | divideUndefined
  /-- An access that runs past the end of its frame, under CROSS_FRAME = fault (R38). Raised by translate. Safe. -/
  | crossFrame (va : Word)
  deriving DecidableEq, Repr

/-- What a target's translation of an entry's data address gave (R172 step 2): the physical address of the data; or a condition,
which is the target's; or nothing, where the target is the unit that is stuck (R33; DESIGN CHOICE, log 29). -/
inductive ServedResult where
  | address (pa : Nat)
  | condition (c : Condition)
  | stuck (r : Fault)
  deriving DecidableEq, Repr

/-- A translation that a target made for the interruption with this place in `irqs`. -/
structure Served where
  event  : Nat
  result : ServedResult
  deriving DecidableEq, Repr

/-- One application of TARGET_BEHAVIOUR (D31): which interruption, whether the access to the data is a write, and what
processing the data writes. -/
structure TargetMove where
  event  : Nat
  write  : Bool
  stores : List Store
  deriving DecidableEq, Repr

/-- The agent that takes a step (R196). -/
inductive Turn where
  | unit
  | target (m : TargetMove)
  deriving DecidableEq, Repr

/-- The state of a system instance (R27), and the model's own fields `env`, `turns`, `cfg`. -/
structure State where
  /-- x[0] .. x[15] (R10). -/
  regs    : Vector Word 16
  /-- SR.R (R13), a number below 2^k for the k bits that SR_LAYOUT gives it (D14). -/
  root    : Nat
  /-- SR.C (R14), a number below 2^CW (D13). -/
  cc      : Nat
  /-- IP, which is SR.IP (R12, R13). -/
  ip      : Word
  /-- Primary memory (R15). -/
  mem     : Memory
  /-- The USS monitor (R16). -/
  mon     : Monitor
  /-- The condition of the terminal outcome Trapped, if the unit is in it (R164, R195). -/
  trapped : Option Condition
  /-- The interruptions that happened, oldest first (R172, R173). -/
  irqs    : List Interruption
  /-- The translations that targets made (R172 step 2). -/
  served  : List Served
  /-- The model's own: what other units write before each of the next cell accesses (D30, log 28). -/
  env     : List (List Store)
  /-- The model's own: which agents take the next steps; the processing unit takes those after them (log 29). -/
  turns   : List Turn
  /-- The model's own: the parameters (R9, log 1). -/
  cfg     : Config
  deriving DecidableEq, Repr

/-- Why an instruction has no meaning. Safe. -/
inductive Refusal where
  /-- The instruction has no meaning in the model yet. Raised by exec's arms only. Safe. -/
  | notModelled (mnemonic : String)
  deriving DecidableEq, Repr

/-- How a piece of an instruction's pseudocode ends: it goes on with a value, it raises a condition in the state so far
(R164: every line before the raise has taken effect), or it is stuck (R195) in the state so far. -/
inductive Res (α : Type) where
  | ok (a : α) (s : State)
  | trap (c : Condition) (s : State)
  | stuck (r : Fault) (s : State)
  deriving DecidableEq, Repr

/-- A piece of pseudocode: from a state, how it ends. -/
abbrev Act (α : Type) := State → Res α

/-- The launch state the model calls reset. The source states no reset at all (R22, R190); the spec states that the USS
monitor is `none` for every cell. Every other value is a DESIGN CHOICE: log 3 (registers), log 4 (memory), log 1 (the
parameters at the defaults of R9), logs 28 and 29 (no writes of other units, no turns of targets). -/
def State.reset : State where
  regs := Vector.replicate 16 0#64
  root := 0
  cc := 0
  ip := 0#64
  mem := []
  mon := []
  trapped := none
  irqs := []
  served := []
  env := []
  turns := []
  cfg := Config.standard

end Sys2Proof.Machine
end

