-- ==== Sys2Proof/Machine/Ops.lean ====
section
/-! DEFINITION. The named operations over registers, cells and primary memory (R33), the writes of other agents (D30, D31),
the USS monitor (R16), taking a condition (R164), the advance of IP (R24), and how the pseudocode of an instruction becomes its
outcome (R160 step 3, R195). -/

namespace Sys2Proof.Machine

/-! Sparse data by key, in rising order. -/

/-- The value at a key. -/
def lookupKey {β : Type} (k : Nat) : List (Nat × β) → Option β
  | [] => none
  | (j, v) :: l => if j = k then some v else lookupKey k l

/-- Set the value at a key, keeping the keys rising. -/
def putKey {β : Type} (k : Nat) (v : β) : List (Nat × β) → List (Nat × β)
  | [] => [(k, v)]
  | (j, w) :: l =>
    if k < j then (k, v) :: (j, w) :: l
    else if k = j then (k, v) :: l
    else (j, w) :: putKey k v l

/-- Remove a key. -/
def eraseKey {β : Type} (k : Nat) : List (Nat × β) → List (Nat × β)
  | [] => []
  | (j, w) :: l => if j = k then eraseKey k l else (j, w) :: eraseKey k l

/-- The keys are strictly rising. -/
abbrev keysRise {β : Type} (l : List (Nat × β)) : Prop := l.Pairwise (fun x y => x.1 < y.1)

/-! Primary memory. -/

/-- What a cell reads as that memory does not list. The source gives no contents (R22): DESIGN CHOICE, log 4. -/
def blankCell : Byte := 0x00#8

/-- The 8-string in the cell at a physical address (R30). -/
def Memory.read (m : Memory) (a : Nat) : Byte := (lookupKey a m).getD blankCell

/-- Memory with another 8-string in one cell, in its canonical form. -/
def Memory.write (m : Memory) (a : Nat) (b : Byte) : Memory :=
  if b = blankCell then eraseKey a m else putKey a b m

/-- The canonical form of memory: rising addresses, and no cell listed that reads as an unlisted one. -/
abbrev Memory.wf (m : Memory) : Prop := keysRise m ∧ ∀ c ∈ m, c.2 ≠ blankCell

/-- The canonical form of the monitor. -/
abbrev Monitor.wf (m : Monitor) : Prop := keysRise m

/-- The cell exists (D10): it is below PHYS_CELLS, and no physical address exceeds 2^64 - 1 (R33). -/
def populated (c : Config) (a : Nat) : Bool := decide (a < c.physCells ∧ a < 2 ^ 64)

/-- The `n` cells from `a` on, as they read. -/
def Memory.readCells (m : Memory) : Nat → Nat → List Byte
  | _, 0 => []
  | a, n + 1 => m.read a :: m.readCells (a + 1) n

/-- Memory with the strings of these cells from `a` on. -/
def Memory.writeCells (m : Memory) : Nat → List Byte → Memory
  | _, [] => m
  | a, b :: bs => (m.write a b).writeCells (a + 1) bs

/-! The USS monitor (R16). -/

/-- A write to a cell: its entry goes from clean to dirty; none and dirty are unchanged (R33). -/
def Monitor.dirty (m : Monitor) (a : Nat) : Monitor :=
  match lookupKey a m with
  | some .clean => putKey a .dirty m
  | _ => m

/-- A USS covered the `n` cells from `a` on: their entries are clean (R105, R106). -/
def Monitor.clean (m : Monitor) : Nat → Nat → Monitor
  | _, 0 => m
  | a, n + 1 => Monitor.clean (putKey a .clean m) (a + 1) n

/-- The entries of the `n` cells from `a` on are all clean (R106). -/
def Monitor.allClean (m : Monitor) : Nat → Nat → Bool
  | _, 0 => true
  | a, n + 1 => decide (lookupKey a m = some .clean) && m.allClean (a + 1) n

/-! Registers (R10, R11): no register is hardwired. -/

/-- x[r]. -/
def State.getReg (s : State) (r : Reg) : Word := s.regs[r]

/-- x[r] <- v. -/
def State.setReg (s : State) (r : Reg) (v : Word) : State := { s with regs := s.regs.set r v }

/-- IP <- v: all 64 bits (R5). -/
def State.setIp (s : State) (v : Word) : State := { s with ip := v }

/-- SR.C <- v, a field of CW bits (R14, D13). -/
def State.setCc (s : State) (v : Nat) : State := { s with cc := v % 2 ^ s.cfg.cw }

/-- SR.R <- v, a field of the width that SR_LAYOUT gives (R13, D14). -/
def State.setRoot (s : State) (v : Nat) : State := { s with root := v % 2 ^ s.cfg.srLayout.rootBits.val }

/-- The monitor becomes `m`. -/
def State.setMon (s : State) (m : Monitor) : State := { s with mon := m }

/-- One cell is written, by whatever unit: the 8-string changes, and the monitor entry of the cell (R33). -/
def State.storeCell (s : State) (a : Nat) (b : Byte) : State :=
  { s with mem := s.mem.write a b, mon := s.mon.dirty a }

/-- The cells from `a` on are written. -/
def State.storeCells (s : State) : Nat → List Byte → State
  | _, [] => s
  | a, b :: bs => (s.storeCell a b).storeCells (a + 1) bs

/-- The event Interruption(t, entry) is recorded (R172, R173). -/
def State.addIrq (s : State) (e : Interruption) : State := { s with irqs := s.irqs ++ [e] }

/-- A target's translation is recorded (R172 step 2). -/
def State.addServed (s : State) (v : Served) : State := { s with served := s.served ++ [v] }

/-- IP.S (R12): 1 is Stopped. -/
def State.stopped (s : State) : Bool := s.ip.getLsbD 0

/-- IP.T ++ 0, the address of the next instruction (R12). -/
def State.instrAddr (s : State) : Word := s.ip &&& ~~~1#64

/-! Sequencing pseudocode. -/

/-- End with a value. -/
def Act.pure {α : Type} (a : α) : Act α := fun s => .ok a s

/-- One piece of pseudocode and then, with its value, another; a raise ends both (R164). -/
def Act.bind {α β : Type} (m : Act α) (f : α → Act β) : Act β := fun s =>
  match m s with
  | .ok a s' => f a s'
  | .trap c s' => .trap c s'
  | .stuck r s' => .stuck r s'

/-- raise C (R164). -/
def raise {α : Type} (c : Condition) : Act α := fun s => .trap c s

/-- The rules give no next state (R195). -/
def stick {α : Type} (r : Fault) : Act α := fun s => .stuck r s

/-- A change of state that raises nothing. -/
def Act.modify (f : State → State) : Act Unit := fun s => .ok () (f s)

/-- A value read from the state. -/
def Act.get {α : Type} (f : State → α) : Act α := fun s => .ok (f s) s

/-! Interruptions (R170, R172). -/

/-- What a write of 16 cells that starts at an interrupt gate adds to the state: it is the write of an interrupt entry, and the
event is recorded (R172, D31, C7, U21), whichever instruction or unit made it (R170). DESIGN CHOICE (log 29): of another agent, one
`Store` is one write. -/
def signalled (pa : Nat) (bs : List Byte) (s : State) : State :=
  if bs.length = 16 then
    match lookupKey pa s.cfg.gates with
    | some t => s.addIrq ⟨t, BitVec.ofNat 128 (fromCells bs)⟩
    | none => s
  else s

/-- A write through a translation may be an interruption (R172). -/
def signalGate (pa : Nat) (bs : List Byte) : Act Unit := .modify (signalled pa bs)

/-! Writes by other agents than the unit's own instructions (D30, D31). -/

/-- All of the `n` cells from `a` on exist (D10). -/
def allExist (c : Config) : Nat → Nat → Bool
  | _, 0 => true
  | a, n + 1 => populated c a && allExist c (a + 1) n

/-- The first of the `n` cells from `a` on that does not exist, if there is one (D10). -/
def firstAbsent (c : Config) : Nat → Nat → Option Nat
  | _, 0 => none
  | a, n + 1 => if populated c a then firstAbsent c (a + 1) n else some a

/-- Those of the cells from `a` on that exist are written (log 28). -/
def State.storeExisting (s : State) : Nat → List Byte → State
  | _, [] => s
  | a, b :: bs => (if populated s.cfg a then s.storeCell a b else s).storeExisting (a + 1) bs

/-- Another agent writes a string of cells. Where all of it exists it may be an interruption: "a source is a unit" (R170). A string
that reaches cells that do not exist writes the others and is none (DESIGN CHOICE, log 28). -/
def State.otherStore (s : State) (w : Store) : State :=
  if allExist s.cfg w.addr w.cells.length then signalled w.addr w.cells (s.storeExisting w.addr w.cells)
  else s.storeExisting w.addr w.cells

/-- Other agents write these strings, one after the other. -/
def State.otherWrites (s : State) : List Store → State
  | [] => s
  | w :: ws => (s.otherStore w).otherWrites ws

/-- What other units do before the next cell access of this one. -/
def State.envTick (s : State) : State :=
  match s.env with
  | [] => s
  | ws :: rest => ({ s with env := rest } : State).otherWrites ws

/-! Cell accesses (R33, R39): each is indivisible, and other units may write memory before each (D30). -/

/-- The unit reads a cell. -/
def readCell (a : Nat) : Act Byte := fun s =>
  let s' := s.envTick
  if populated s'.cfg a then .ok (s'.mem.read a) s' else .stuck (.absentCell a) s'

/-- The unit writes a cell. -/
def writeCell (a : Nat) (b : Byte) : Act Unit := fun s =>
  let s' := s.envTick
  if populated s'.cfg a then .ok () (s'.storeCell a b) else .stuck (.absentCell a) s'

/-- PhysRead(pa, n) (R33). DESIGN CHOICE (log 38): the cells of an access are read one after the other from the lowest address up;
R33, R39 and D30 fix no order in time, which other units that write in between could see. -/
def physRead : Nat → Nat → Act (List Byte)
  | _, 0 => .pure []
  | a, n + 1 => (readCell a).bind fun b => (physRead (a + 1) n).bind fun bs => .pure (b :: bs)

/-- PhysWrite(pa, n, v), the string given as its n cells (R33). DESIGN CHOICE (log 38): they are written from the lowest address up. -/
def physWrite : Nat → List Byte → Act Unit
  | _, [] => .pure ()
  | a, b :: bs => (writeCell a b).bind fun _ => physWrite (a + 1) bs

/-! Conditions (R164). -/

/-- The register file of the unit. -/
def State.regFile (s : State) : RegFile := ⟨s.regs, s.root, s.cc, s.ip⟩

/-- The trap of TRAP_ENTRY = program (R164): the unit goes on with the register file that the free function gives, from the condition
and the unit's state at that time with all of memory, and what the entry wrote to memory is written; a trap does not clear the
monitor (R107). DESIGN CHOICE (log 25): a condition raised while a trap program runs enters the trap by this same function, with the
state at its own time; R169 does not describe it. DESIGN CHOICE (log 25): of what the entry writes, cells that do not exist are left
out, and the unit goes on; R33 leaves such an access without a step. -/
def trapStarts (c : Condition) (s : State) : State :=
  let r := Config.trapProgram ⟨c, s.regFile, s.mon, s.mem⟩
  let s' : State :=
    { s with regs := r.file.regs, root := r.file.root % 2 ^ s.cfg.srLayout.rootBits.val, cc := r.file.cc % 2 ^ s.cfg.cw, ip := r.file.ip }
  s'.otherWrites r.stores

/-- A condition happens: the unit executes a trap (R164). TRAP_ENTRY terminal: the outcome Trapped(C, st) of R195, st being
the state at the time of the condition, all of it kept. TRAP_ENTRY a program: the trap program starts. -/
def takeTrap (c : Condition) (s : State) : State :=
  match s.cfg.trapEntry with
  | .terminal => { s with trapped := some c }
  | .program => trapStarts c s

/-! The return from a trap: the source names no instruction for it (R169); the one instruction that installs a saved IP, C
and root table pointer together is BRS, whose loading of an SR image is `State.loadSr` below. -/

/-- The field of `k` bits with `lo` bits to its right in a string with the value `v` (R4). -/
def fieldAt (v lo k : Nat) : Nat := v / 2 ^ lo % 2 ^ k

/-- The value of the SR image (R13): bits that no field covers are 0 (U4). -/
def srImage (c : Config) (root cc : Nat) (ip : Word) : Nat :=
  (root % 2 ^ c.srLayout.rootBits.val) <<< c.srLayout.rootLo ||| (cc % 2 ^ c.cw) <<< c.srLayout.ccLo |||
    ip.toNat <<< c.srLayout.ipLo

/-- SR is replaced by the fields of an image with this value; the other bits are ignored (R13, R110). -/
def State.loadSr (s : State) (img : Nat) : State :=
  { s with root := fieldAt img s.cfg.srLayout.rootLo s.cfg.srLayout.rootBits.val
           cc := fieldAt img s.cfg.srLayout.ccLo s.cfg.cw
           ip := BitVec.ofNat 64 (fieldAt img s.cfg.srLayout.ipLo 64) }

/-! Instructions as steps (R160 step 3). -/

/-- IP plus the length of the instruction, modulo 2^64 (R24). -/
def nextIp (i : Instr) (s : State) : Word := s.ip + BitVec.ofNat 64 (s.cfg.cellsOf i)

/-- The advance of IP (R24). -/
def advanceIp (i : Instr) (s : State) : State := s.setIp (nextIp i s)

/-- The outcome of an instruction from its pseudocode, whose value says whether it wrote IP. Under IP_BASE = this, IP is
advanced after an instruction that did not (R24); a condition raised in it starts the trap (R164). -/
def finish (i : Instr) (body : Act Bool) (s : State) : Host.Outcome State Fault Refusal :=
  match body s with
  | .ok wroteIp s' =>
    if s'.cfg.ipBase = .this ∧ wroteIp = false then .next (advanceIp i s') else .next s'
  | .trap c s' => .next (takeTrap c s')
  | .stuck r _ => .fault r

end Sys2Proof.Machine
end

