-- ==== Sys2Proof/Machine/Flags.lean ====
section
/-! DEFINITION. The condition code C, the only flag-like state (R14): how control instructions read it (R90), and the one
hook through which an instruction other than BRS could write it (CC_UPDATE, R14). -/

namespace Sys2Proof.Machine

/-- The instruction condition is fulfilled: the bit of `cond` that designates the value of SR.C is 1, the first bit
designating C = 0 (R90, D13). A value that has no bit in `cond` is not in the set it designates (log 6). -/
def fulfilled (cond : List Bool) (cc : Nat) : Bool := cond.getD cc false

/-- CC_UPDATE(instruction, operands, results): unchanged, or a new value of C (R14). DESIGN CHOICE (log 7): which values an
instruction hands over. The operands are the source and, in the bitwise and arithmetic instructions, before it the old target (also
where the function does not use it; in a store form that does not read it, 0); of UDB the two registers of its pair. The results are
what the instruction gives its target; of SCI and JMP the new IP, not the old one that goes to x[R]. BRS is not asked. -/
def ccUpdate (c : Config) (i : Instr) (operands results : List Word) : Option Nat :=
  match c.ccUpdate with
  | .never => none
  | .other => Config.otherCc i operands results

/-- The hook, at the end of an instruction (R14). -/
def updateCc (i : Instr) (operands results : List Word) : Act Unit :=
  .modify fun s =>
    match ccUpdate s.cfg i operands results with
    | some v => s.setCc v
    | none => s

end Sys2Proof.Machine
end

