-- ==== Sys2Proof/Machine/Translate.lean ====
section
/-! DEFINITION. Virtual addresses, the frame table, the translation procedure (R40 to R59) and the accesses through it
(R58). -/

namespace Sys2Proof.Machine

/-- The number S{a..b} of a 64-string, in the source's numbering (R3, R4). -/
def fieldOf (e : Word) (a b : Nat) : Nat := e.toNat / 2 ^ (64 - b) % 2 ^ (b + 1 - a)

/-- S{i} of a 64-string. -/
def bitOf (e : Word) (i : Nat) : Bool := e.getLsbD (64 - i)

/-- The four kinds of access (R59). -/
inductive AccessKind where
  | write | data | instr | srload
  deriving DecidableEq, Repr

/-- off(n): the width of the offset into a frame of order n, so frames have 2^off(n) cells (R41, R44). -/
def offBits (n : Nat) : Nat := 12 + 9 * (n - 1)

/-- Tend(n): the last bit of the frame base in an entry of order n (R44). -/
def tEnd (n : Nat) : Nat := 64 - offBits n

/-- The nth order table index of a virtual address; the root index for n = 6 (R41, R54). -/
def tableIndex (n : Nat) (va : Word) : Nat :=
  if n = 6 then fieldOf va 1 7 else fieldOf va (8 + 9 * (5 - n)) (16 + 9 * (5 - n))

/-- The kinds of table entries (R42, R43). -/
inductive EntryKind where
  | descriptor | key | table | noFormat
  deriving DecidableEq, Repr

/-- Which kind an entry of an nth order table is: every drawn constant bit is compared (R43 to R46, D5). -/
def entryKind (n : Nat) (e : Word) : EntryKind :=
  if bitOf e 60 = true ∧ bitOf e 64 = false ∧ fieldOf e (tEnd n + 1) 57 = 0 then .descriptor
  else if bitOf e 60 = false ∧ bitOf e 64 = true then .key
  else if 1 < n ∧ fieldOf e 53 64 = 0b000010000000 then .table
  else .noFormat

/-- The constant bits of an nth order gate are as drawn (R47). -/
def gateFormat (n : Nat) (h : Word) : Bool :=
  decide (fieldOf h (tEnd n + 1) 57 = 1 ∧ fieldOf h 60 64 = 0)

/-- The entry, a descriptor or a key, allows the access (R59). -/
def permits (kind : AccessKind) (e : Word) : Bool :=
  match kind with
  | .write => bitOf e 61
  | .data => bitOf e 62
  | .instr => bitOf e 63
  | .srload => !bitOf e 61 && !bitOf e 62 && !bitOf e 63

/-- {58} := 1, the Modified bit of a holder (R57 step 4). -/
def setModified (h : Word) : Word := h ||| 0x40#64

/-- PhysRead(a, 8) as a 64-string: a table entry or a gate (R54). -/
def readEntry (a : Nat) : Act Word :=
  (physRead a 8).bind fun bs => .pure (BitVec.ofNat 64 (fromCells bs))

/-- What a translation found: the physical address of the first cell, the order of the frame, and the address of the holder
(the gate if there was a key, else the descriptor), whose M bit a write sets (R57). -/
structure Mapped where
  pa     : Nat
  order  : Nat
  holder : Nat
  deriving DecidableEq, Repr

/-- The physical address: the frame base followed by the offset (R57 step 5). -/
def framePa (n : Nat) (holder va : Word) : Nat :=
  fieldOf holder 1 (tEnd n) * 2 ^ offBits n + va.toNat % 2 ^ offBits n

/-- The holder and its address: the entry itself, or the gate that a key points to (R45, R57 step 2). -/
def findHolder (n : Nat) (e : Word) (ea : Nat) (isKey : Bool) : Act (Nat × Word) :=
  if isKey then
    (readEntry (fieldOf e 1 59 * 32)).bind fun h => fun s =>
      if s.cfg.gateFormatCheck && !gateFormat n h then .trap .zee s
      else .ok (fieldOf e 1 59 * 32, h) s
  else .pure (ea, e)

/-- Phase 2, the nth order frame access (R57, R56 FrameAccess). -/
def frameAccess (n : Nat) (e : Word) (ea : Nat) (isKey : Bool) (va : Word) (kind : AccessKind) : Act Mapped :=
  if permits kind e then
    (findHolder n e ea isKey).bind fun h =>
      if bitOf h.2 59 then raise .zsw
      else
        (if kind = .write then physWrite h.1 (toCells 8 (setModified h.2).toNat) else .pure ()).bind fun _ =>
          .pure ⟨framePa n h.2 va, n, h.1⟩
  else raise .zee

/-- Phase 1, the frame table walk from the table of order n at `tb` (R55, R56 Translate). -/
def walk (va : Word) (kind : AccessKind) : Nat → Nat → Act Mapped
  | 0, _ => raise .zee
  | n + 1, tb =>
    let ea := tb + 8 * tableIndex (n + 1) va
    (readEntry ea).bind fun e =>
      match entryKind (n + 1) e with
      | .descriptor => frameAccess (n + 1) e ea false va kind
      | .key => frameAccess (n + 1) e ea true va kind
      | .table => walk va kind n (fieldOf e 1 52 * 2 ^ 12)
      | .noFormat => raise .zee

/-- The physical address that a pointer of `k` bits is the first `k` bits of, the missing low bits 0 (D3). -/
def pointerAddr (k : Fin 65) (v : Nat) : Nat := v % 2 ^ k.val * 2 ^ (64 - k.val)

/-- The physical address of the root table that SR.R points to (R13, R48). -/
def rootAddr (s : State) : Nat := pointerAddr s.cfg.srLayout.rootBits s.root

/-- An access of `n` cells runs past the end of the frame that its walk ended in (R38). -/
def crosses (m : Mapped) (va : Word) (n : Nat) : Bool :=
  decide (2 ^ offBits m.order < va.toNat % 2 ^ offBits m.order + n)

/-- Translate(root, va, kind) for an access of `n` cells (R56), with the check of CROSS_FRAME (R38): under `fault` an access
that passes every other check and crosses its frame's end is stuck (log 15). -/
def translate (root : Nat) (va : Word) (kind : AccessKind) (n : Nat) : Act Mapped :=
  (walk va kind 6 root).bind fun m => fun s =>
    if s.cfg.crossFrame = .fault ∧ crosses m va n = true then .stuck (.crossFrame va) s else .ok m s

/-- The translation of an address of the unit, with the root table SR.R points to (R40, R58). -/
def unitTranslate (va : Word) (kind : AccessKind) (n : Nat) : Act Mapped := fun s =>
  translate (rootAddr s) va kind n s

/-- MemRead(va, n, kind) (R58). -/
def memRead (va : Word) (n : Nat) (kind : AccessKind) : Act (List Byte) :=
  (unitTranslate va kind n).bind fun m => physRead m.pa n

/-- MemWrite(va, n, v), the string given as its cells (R58); a 16-cell write may be an interruption (R172). -/
def memWrite (va : Word) (bs : List Byte) : Act Unit :=
  (unitTranslate va .write bs.length).bind fun m =>
    (physWrite m.pa bs).bind fun _ => signalGate m.pa bs

end Sys2Proof.Machine
end

