-- ==== Sys2Proof/Machine/Operands.lean ====
section
/-! DEFINITION. The operand forms (R73 to R79): constants and their extension, field G, addresses, the Ä-bit. -/

namespace Sys2Proof.Machine

/-- The extension of a constant to 64 bits (R78). -/
def extend (e : Ext) (c : Const) : Word :=
  match e with
  | .zero => c.bits.setWidth 64
  | .sign => c.bits.signExtend 64

/-- A, extended (R78). -/
def dispOf (s : State) (a : Const) : Word := extend s.cfg.aExt a

/-- The fixed point format that field G selects (R77). -/
def formatOf (c : Config) (g : BitVec 3) : NumFormat := c.gFormats[g.toFin]

/-- n, the number of cells that field G selects (R77). -/
def gCells (s : State) (g : BitVec 3) : Nat := (formatOf s.cfg g).cells

/-- Field G selects a signed format (R77). -/
def gSigned (s : State) (g : BitVec 3) : Bool := (formatOf s.cfg g).signed

/-- ext_G of the string in these cells: zero or sign extension to 64 bits (R77). Of a string of more than 64 bits, which no format of the
source has, the rightmost 64 (DESIGN CHOICE, log 19). -/
def widen (signed : Bool) (bs : List Byte) : Word :=
  if signed then (BitVec.ofNat (8 * bs.length) (fromCells bs)).signExtend 64
  else BitVec.ofNat 64 (fromCells bs)

/-- The cells of trunc_8n of a register value (R77); more than 8 cells begin with zeros (DESIGN CHOICE, log 19). -/
def narrow (n : Nat) (v : Word) : List Byte := toCells n v.toNat

/-- The address of a memory operand with address register `r` (R73): x[r] + A, or x[r] itself where the Ä-bit is 1 (after A
was added to it, in a store form; before, in a load form). -/
def effAddr (s : State) (r : Reg) (ae : Bool) (a : Const) : Word :=
  if ae then s.getReg r else s.getReg r + dispOf s a

/-- Ä = 1: A is added to the address register; Ä = 0: nothing (R73). -/
def addDisp (r : Reg) (ae : Bool) (a : Const) : Act Unit :=
  .modify fun s => if ae then s.setReg r (s.getReg r + dispOf s a) else s

/-- The source of a load form (R73): the datum at its address, widened by G. -/
def loadSource (q : Reg) (ae : Bool) (g : BitVec 3) (a : Const) : Act Word := fun s =>
  ((memRead (effAddr s q ae a) (gCells s g) .data).bind fun bs => .pure (widen (gSigned s g) bs)) s

/-- x[r] <- v. -/
def writeReg (r : Reg) (v : Word) : Act Unit := .modify fun s => s.setReg r v

end Sys2Proof.Machine
end

