-- ==== Sys2Proof/Machine/Alu.lean ====
section
/-! DEFINITION. The formats that the bitwise and the arithmetic instructions share (R120, R140): a function of the old target
and the source gives the new target. The function is told whether the operation is signed, which only CUT looks at
(R145 (d)). -/

namespace Sys2Proof.Machine

/-- A function of R120 or R140 on 64-strings: signedness, old target, source. -/
abbrev AluFn := Bool → Word → Word → Act Word

/-- K and RR (R120, R140): x[Z] <- f(x[Z], source), signed (R145 (d)). CC_UPDATE is given the old target
and the source, and the new target (DESIGN CHOICE, log 7). -/
def aluReg (f : AluFn) (i : Instr) (z : Reg) (src : Word) : State → Host.Outcome State Fault Refusal :=
  finish i fun s =>
    ((f true (s.getReg z) src).bind fun v =>
      (writeReg z v).bind fun _ =>
        (updateCc i [s.getReg z, src] [v]).bind fun _ => .pure false) s

/-- ML (R120, R140): the source is memory; x[Z] <- f(x[Z], source); then A is added to x[Q] if Ä = 1. CC_UPDATE is
given the old target and the source, and the new target (DESIGN CHOICE, log 7). -/
def aluLoad (f : AluFn) (i : Instr) (z q : Reg) (ae : Bool) (g : BitVec 3) (a : Const) :
    State → Host.Outcome State Fault Refusal :=
  finish i <| (loadSource q ae g a).bind fun src => fun s =>
    ((f (gSigned s g) (s.getReg z) src).bind fun v =>
      (writeReg z v).bind fun _ =>
        (addDisp q ae a).bind fun _ =>
          (updateCc i [s.getReg z, src] [v]).bind fun _ => .pure false) s

end Sys2Proof.Machine
end

