-- ==== Sys2Proof/Machine/Arithmetic.lean ====
section
/-! DEFINITION. The arithmetic instructions GIV, TAC, FLD, CUT (R140 to R145). -/

namespace Sys2Proof.Machine

/-- GIV (R141): T + S modulo 2^64. -/
def gGiv : AluFn := fun _ t s => .pure (t + s)

/-- TAC (R142): T - S modulo 2^64. -/
def gTac : AluFn := fun _ t s => .pure (t - s)

/-- FLD (R143): T * S modulo 2^64. -/
def gFld : AluFn := fun _ t s => .pure (t * s)

/-- The quotient a / b of the two numbers, rounded toward zero, modulo 2^64 (R145 (d)). -/
def quotient (signed : Bool) (a b : Word) : Word :=
  if signed then BitVec.ofInt 64 (a.toInt.tdiv b.toInt) else BitVec.ofNat 64 (a.toNat / b.toNat)

/-- DIV(signed, a, b) for b not 0 (R145 (d)); for b = 0 it has no value, and the unit is stuck (R145 (e), log 23). -/
def divide (signed : Bool) (a b : Word) : Act Word := fun s =>
  if b = 0#64 then .stuck .divideUndefined s
  else
    match s.cfg.division with
    | .truncating => .ok (quotient signed a b) s
    | .other => .ok (Config.otherDiv signed a b) s

/-- CUT (R144): the source divided by the target, or the reverse under CUT_ORDER = target_over_source. -/
def gCut : AluFn := fun signed t src => fun s =>
  match s.cfg.cutOrder with
  | .sourceOverTarget => divide signed src t s
  | .targetOverSource => divide signed t src s

/-- W of an arithmetic instruction: "In the constant format, the source is sign-extended." (R140, R78). -/
def wArith (w : Const) : Word := extend .sign w

/-- MS (R140): A is added to x[Z] first if Ä = 1; the memory operand is widened by G, the calculation is made on 64 bits, and
the rightmost 8n bits are written back (D23). CC_UPDATE is given the widened operand and the source, and the result on 64 bits
(DESIGN CHOICE, log 7). -/
def arithStore (f : AluFn) (i : Instr) (z q : Reg) (ae : Bool) (g : BitVec 3) (a : Const) :
    State → Host.Outcome State Fault Refusal :=
  finish i <| (addDisp z ae a).bind fun _ => fun s =>
    ((memRead (effAddr s z ae a) (gCells s g) .data).bind fun bs =>
      (f (gSigned s g) (widen (gSigned s g) bs) (s.getReg q)).bind fun v =>
        (memWrite (effAddr s z ae a) (narrow (gCells s g) v)).bind fun _ =>
          (updateCc i [widen (gSigned s g) bs, s.getReg q] [v]).bind fun _ => .pure false) s

/-- GIV, constant format (R141). -/
def execGivK (z : Reg) (w : Const) (s : State) : Host.Outcome State Fault Refusal :=
  aluReg gGiv (.givK z w) z (wArith w) s

/-- GIV, load form (R141). -/
def execGivML (z q : Reg) (ae : Bool) (g : BitVec 3) (a : Const) (s : State) :
    Host.Outcome State Fault Refusal :=
  aluLoad gGiv (.givML z q ae g a) z q ae g a s

/-- GIV, store form (R141). -/
def execGivMS (z q : Reg) (ae : Bool) (g : BitVec 3) (a : Const) (s : State) :
    Host.Outcome State Fault Refusal :=
  arithStore gGiv (.givMS z q ae g a) z q ae g a s

/-- GIV, register format (R141). -/
def execGivRR (z q : Reg) (s : State) : Host.Outcome State Fault Refusal :=
  aluReg gGiv (.givRR z q) z (s.getReg q) s

/-- TAC, constant format (R142). -/
def execTacK (z : Reg) (w : Const) (s : State) : Host.Outcome State Fault Refusal :=
  aluReg gTac (.tacK z w) z (wArith w) s

/-- TAC, load form (R142). -/
def execTacML (z q : Reg) (ae : Bool) (g : BitVec 3) (a : Const) (s : State) :
    Host.Outcome State Fault Refusal :=
  aluLoad gTac (.tacML z q ae g a) z q ae g a s

/-- TAC, store form (R142). -/
def execTacMS (z q : Reg) (ae : Bool) (g : BitVec 3) (a : Const) (s : State) :
    Host.Outcome State Fault Refusal :=
  arithStore gTac (.tacMS z q ae g a) z q ae g a s

/-- TAC, register format (R142). -/
def execTacRR (z q : Reg) (s : State) : Host.Outcome State Fault Refusal :=
  aluReg gTac (.tacRR z q) z (s.getReg q) s

/-- FLD, constant format (R143). -/
def execFldK (z : Reg) (w : Const) (s : State) : Host.Outcome State Fault Refusal :=
  aluReg gFld (.fldK z w) z (wArith w) s

/-- FLD, load form (R143). -/
def execFldML (z q : Reg) (ae : Bool) (g : BitVec 3) (a : Const) (s : State) :
    Host.Outcome State Fault Refusal :=
  aluLoad gFld (.fldML z q ae g a) z q ae g a s

/-- FLD, store form (R143). -/
def execFldMS (z q : Reg) (ae : Bool) (g : BitVec 3) (a : Const) (s : State) :
    Host.Outcome State Fault Refusal :=
  arithStore gFld (.fldMS z q ae g a) z q ae g a s

/-- FLD, register format (R143). -/
def execFldRR (z q : Reg) (s : State) : Host.Outcome State Fault Refusal :=
  aluReg gFld (.fldRR z q) z (s.getReg q) s

/-- CUT, constant format (R144). -/
def execCutK (z : Reg) (w : Const) (s : State) : Host.Outcome State Fault Refusal :=
  aluReg gCut (.cutK z w) z (wArith w) s

/-- CUT, load form (R144). -/
def execCutML (z q : Reg) (ae : Bool) (g : BitVec 3) (a : Const) (s : State) :
    Host.Outcome State Fault Refusal :=
  aluLoad gCut (.cutML z q ae g a) z q ae g a s

/-- CUT, store form (R144). -/
def execCutMS (z q : Reg) (ae : Bool) (g : BitVec 3) (a : Const) (s : State) :
    Host.Outcome State Fault Refusal :=
  arithStore gCut (.cutMS z q ae g a) z q ae g a s

/-- CUT, register format (R144). -/
def execCutRR (z q : Reg) (s : State) : Host.Outcome State Fault Refusal :=
  aluReg gCut (.cutRR z q) z (s.getReg q) s

end Sys2Proof.Machine
end

