-- ==== Sys2Proof/Machine/Bitwise.lean ====
section
/-! DEFINITION. The bitwise instructions LSH, RNS, RFS, THR, AND, OR, NOT, SSW (R120 to R129). Each is a function of the old
target, a w-bit string, the source, a 64-string, and w (R120). -/

namespace Sys2Proof.Machine

/-- A function f(t, s, w) of R120. -/
abbrev BitFn := (w : Nat) → BitVec w → Word → BitVec w

/-- LSH (R121): zeros come in on the right; a count of w or more leaves 0 (R129). -/
def fLsh : BitFn := fun w t s => if s.toNat < w then t <<< s.toNat else 0#w

/-- RNS (R122): zeros come in on the left; a count of w or more leaves 0 (R129). -/
def fRns : BitFn := fun w t s => if s.toNat < w then t >>> s.toNat else 0#w

/-- RFS (R123): copies of the first bit come in on the left; a count of w or more leaves w of them (R129). -/
def fRfs : BitFn := fun w t s =>
  if s.toNat < w then t.sshiftRight s.toNat else if t.msb then BitVec.allOnes w else 0#w

/-- THR (R124): rotation to the right by the count modulo w (R129). -/
def fThr : BitFn := fun w t s => (t >>> (s.toNat % w)) ||| (t <<< (w - s.toNat % w))

/-- AND (R125), with the rightmost w bits of the source. DESIGN CHOICE (log 19): where w is more than 64, which only a G_MEANING that
is not the spec's gives, R120's trunc of the source has no value; the source is then extended with zeros to w bits, so AND clears the
bits of the target that match none of it. -/
def fAnd : BitFn := fun w t s => t &&& s.setWidth w

/-- OR (R126). DESIGN CHOICE (log 19): where w is more than 64 the source is extended with zeros, so the other bits stay. -/
def fOr : BitFn := fun w t s => t ||| s.setWidth w

/-- NOT (R127): the old target is not used. DESIGN CHOICE (log 19): where w is more than 64 the source is extended with zeros, so the
other bits become 1. -/
def fNot : BitFn := fun w _ s => ~~~(s.setWidth w)

/-- SSW (R128): the negative of the source modulo 2^w; the old target is not used. DESIGN CHOICE (log 19): where w is more than 64 the
source is extended with zeros, so it counts as unsigned. -/
def fSsw : BitFn := fun w _ s => -(s.setWidth w)

/-- A bitwise function at the width of a register (R120). -/
def onWord (f : BitFn) : AluFn := fun _ t s => .pure (f 64 t s)

/-- W of a bitwise instruction other than SSW (R78, D20). -/
def wBitwise (s : State) (w : Const) : Word := extend s.cfg.wExtBitwise w

/-- The old target of a store form: read if the function uses it, else zeros (R120). -/
def bitTarget (usesT : Bool) (va : Word) (n : Nat) : Act (List Byte) :=
  if usesT then memRead va n .data else .pure (List.replicate n 0#8)

/-- MS (R120): A is added to x[Z] first if Ä = 1; the target is the 8n-bit string in memory, and the operation is made at
that width (D23). CC_UPDATE is given the old target, zero-extended and 0 where it is not read, and the source, and the new target,
zero-extended (DESIGN CHOICE, log 7), of a string of more than 64 bits its rightmost 64. Where the string has more than 64 bits, AND,
OR, NOT and SSW extend the source with zeros to its width (DESIGN CHOICE, log 19). -/
def bitStore (f : BitFn) (usesT : Bool) (i : Instr) (z q : Reg) (ae : Bool) (g : BitVec 3) (a : Const) :
    State → Host.Outcome State Fault Refusal :=
  finish i <| (addDisp z ae a).bind fun _ => fun s =>
    ((bitTarget usesT (effAddr s z ae a) (gCells s g)).bind fun bs =>
      let t := BitVec.ofNat (8 * gCells s g) (fromCells bs)
      let v := f (8 * gCells s g) t (s.getReg q)
      (memWrite (effAddr s z ae a) (toCells (gCells s g) v.toNat)).bind fun _ =>
        (updateCc i [t.setWidth 64, s.getReg q] [v.setWidth 64]).bind fun _ => .pure false) s

/-- LSH, constant format (R121). -/
def execLshK (z : Reg) (w : Const) (s : State) : Host.Outcome State Fault Refusal :=
  aluReg (onWord fLsh) (.lshK z w) z (wBitwise s w) s

/-- LSH, load form (R121). -/
def execLshML (z q : Reg) (ae : Bool) (g : BitVec 3) (a : Const) (s : State) :
    Host.Outcome State Fault Refusal :=
  aluLoad (onWord fLsh) (.lshML z q ae g a) z q ae g a s

/-- LSH, store form (R121). -/
def execLshMS (z q : Reg) (ae : Bool) (g : BitVec 3) (a : Const) (s : State) :
    Host.Outcome State Fault Refusal :=
  bitStore fLsh true (.lshMS z q ae g a) z q ae g a s

/-- LSH, register format (R121). -/
def execLshRR (z q : Reg) (s : State) : Host.Outcome State Fault Refusal :=
  aluReg (onWord fLsh) (.lshRR z q) z (s.getReg q) s

/-- RNS, constant format (R122). -/
def execRnsK (z : Reg) (w : Const) (s : State) : Host.Outcome State Fault Refusal :=
  aluReg (onWord fRns) (.rnsK z w) z (wBitwise s w) s

/-- RNS, load form (R122). -/
def execRnsML (z q : Reg) (ae : Bool) (g : BitVec 3) (a : Const) (s : State) :
    Host.Outcome State Fault Refusal :=
  aluLoad (onWord fRns) (.rnsML z q ae g a) z q ae g a s

/-- RNS, store form (R122). -/
def execRnsMS (z q : Reg) (ae : Bool) (g : BitVec 3) (a : Const) (s : State) :
    Host.Outcome State Fault Refusal :=
  bitStore fRns true (.rnsMS z q ae g a) z q ae g a s

/-- RNS, register format (R122). -/
def execRnsRR (z q : Reg) (s : State) : Host.Outcome State Fault Refusal :=
  aluReg (onWord fRns) (.rnsRR z q) z (s.getReg q) s

/-- RFS, constant format (R123). -/
def execRfsK (z : Reg) (w : Const) (s : State) : Host.Outcome State Fault Refusal :=
  aluReg (onWord fRfs) (.rfsK z w) z (wBitwise s w) s

/-- RFS, load form (R123). -/
def execRfsML (z q : Reg) (ae : Bool) (g : BitVec 3) (a : Const) (s : State) :
    Host.Outcome State Fault Refusal :=
  aluLoad (onWord fRfs) (.rfsML z q ae g a) z q ae g a s

/-- RFS, store form (R123). -/
def execRfsMS (z q : Reg) (ae : Bool) (g : BitVec 3) (a : Const) (s : State) :
    Host.Outcome State Fault Refusal :=
  bitStore fRfs true (.rfsMS z q ae g a) z q ae g a s

/-- RFS, register format (R123). -/
def execRfsRR (z q : Reg) (s : State) : Host.Outcome State Fault Refusal :=
  aluReg (onWord fRfs) (.rfsRR z q) z (s.getReg q) s

/-- THR, constant format (R124). -/
def execThrK (z : Reg) (w : Const) (s : State) : Host.Outcome State Fault Refusal :=
  aluReg (onWord fThr) (.thrK z w) z (wBitwise s w) s

/-- THR, load form (R124). -/
def execThrML (z q : Reg) (ae : Bool) (g : BitVec 3) (a : Const) (s : State) :
    Host.Outcome State Fault Refusal :=
  aluLoad (onWord fThr) (.thrML z q ae g a) z q ae g a s

/-- THR, store form (R124). -/
def execThrMS (z q : Reg) (ae : Bool) (g : BitVec 3) (a : Const) (s : State) :
    Host.Outcome State Fault Refusal :=
  bitStore fThr true (.thrMS z q ae g a) z q ae g a s

/-- THR, register format (R124). -/
def execThrRR (z q : Reg) (s : State) : Host.Outcome State Fault Refusal :=
  aluReg (onWord fThr) (.thrRR z q) z (s.getReg q) s

/-- AND, constant format (R125). -/
def execAndK (z : Reg) (w : Const) (s : State) : Host.Outcome State Fault Refusal :=
  aluReg (onWord fAnd) (.andK z w) z (wBitwise s w) s

/-- AND, load form (R125). -/
def execAndML (z q : Reg) (ae : Bool) (g : BitVec 3) (a : Const) (s : State) :
    Host.Outcome State Fault Refusal :=
  aluLoad (onWord fAnd) (.andML z q ae g a) z q ae g a s

/-- AND, store form (R125). -/
def execAndMS (z q : Reg) (ae : Bool) (g : BitVec 3) (a : Const) (s : State) :
    Host.Outcome State Fault Refusal :=
  bitStore fAnd true (.andMS z q ae g a) z q ae g a s

/-- AND, register format (R125). -/
def execAndRR (z q : Reg) (s : State) : Host.Outcome State Fault Refusal :=
  aluReg (onWord fAnd) (.andRR z q) z (s.getReg q) s

/-- OR, constant format (R126). -/
def execOrK (z : Reg) (w : Const) (s : State) : Host.Outcome State Fault Refusal :=
  aluReg (onWord fOr) (.orK z w) z (wBitwise s w) s

/-- OR, load form (R126). -/
def execOrML (z q : Reg) (ae : Bool) (g : BitVec 3) (a : Const) (s : State) :
    Host.Outcome State Fault Refusal :=
  aluLoad (onWord fOr) (.orML z q ae g a) z q ae g a s

/-- OR, store form (R126). -/
def execOrMS (z q : Reg) (ae : Bool) (g : BitVec 3) (a : Const) (s : State) :
    Host.Outcome State Fault Refusal :=
  bitStore fOr true (.orMS z q ae g a) z q ae g a s

/-- OR, register format (R126). -/
def execOrRR (z q : Reg) (s : State) : Host.Outcome State Fault Refusal :=
  aluReg (onWord fOr) (.orRR z q) z (s.getReg q) s

/-- NOT, constant format (R127). -/
def execNotK (z : Reg) (w : Const) (s : State) : Host.Outcome State Fault Refusal :=
  aluReg (onWord fNot) (.notK z w) z (wBitwise s w) s

/-- NOT, load form (R127). -/
def execNotML (z q : Reg) (ae : Bool) (g : BitVec 3) (a : Const) (s : State) :
    Host.Outcome State Fault Refusal :=
  aluLoad (onWord fNot) (.notML z q ae g a) z q ae g a s

/-- NOT, store form (R127). -/
def execNotMS (z q : Reg) (ae : Bool) (g : BitVec 3) (a : Const) (s : State) :
    Host.Outcome State Fault Refusal :=
  bitStore fNot false (.notMS z q ae g a) z q ae g a s

/-- NOT, register format (R127). -/
def execNotRR (z q : Reg) (s : State) : Host.Outcome State Fault Refusal :=
  aluReg (onWord fNot) (.notRR z q) z (s.getReg q) s

/-- SSW, constant format (R128). -/
def execSswK (z : Reg) (w : Const) (s : State) : Host.Outcome State Fault Refusal :=
  aluReg (onWord fSsw) (.sswK z w) z (extend .zero w) s

/-- SSW, load form (R128). -/
def execSswML (z q : Reg) (ae : Bool) (g : BitVec 3) (a : Const) (s : State) :
    Host.Outcome State Fault Refusal :=
  aluLoad (onWord fSsw) (.sswML z q ae g a) z q ae g a s

/-- SSW, store form (R128). -/
def execSswMS (z q : Reg) (ae : Bool) (g : BitVec 3) (a : Const) (s : State) :
    Host.Outcome State Fault Refusal :=
  bitStore fSsw false (.sswMS z q ae g a) z q ae g a s

/-- SSW, register format (R128). -/
def execSswRR (z q : Reg) (s : State) : Host.Outcome State Fault Refusal :=
  aluReg (onWord fSsw) (.sswRR z q) z (s.getReg q) s

end Sys2Proof.Machine
end

