-- ==== Sys2Proof/Machine/Control.lean ====
section
/-! DEFINITION. The control instructions SCI and JMP (R90 to R94). -/

namespace Sys2Proof.Machine

/-- SCI: the new IP is the sum of IP and the source (R92). -/
def skipTarget (old src : Word) : Word := old + src

/-- JMP: the new IP is the source (R93). -/
def jumpTarget (_old src : Word) : Word := src

/-- A control instruction (R90 to R93): the source is read; if the condition is fulfilled, IP gets its new value and x[R] the
old IP; otherwise nothing changes. CC_UPDATE is asked only where the condition is fulfilled, and given the source and the new IP, not the
old one that goes to x[R] (DESIGN CHOICE, log 7). -/
def control (target : Word → Word → Word) (i : Instr) (cond : List Bool) (r : Reg) (source : Act Word) :
    State → Host.Outcome State Fault Refusal :=
  finish i <| source.bind fun src => fun s =>
    if fulfilled cond s.cc then
      ((updateCc i [src] [target s.ip src]).bind fun _ => .pure true)
        ((s.setIp (target s.ip src)).setReg r s.ip)
    else .ok false s

/-- Constant source: W (R91, R78). -/
def wControl (w : Const) : Act Word := .get fun s => extend s.cfg.wExtControl w

/-- Memory source: the 64-string at x[q] + A (R91). -/
def mControl (q : Reg) (a : Const) : Act Word := fun s =>
  ((memRead (s.getReg q + dispOf s a) 8 .data).bind fun bs => .pure (BitVec.ofNat 64 (fromCells bs))) s

/-- Register source (R91). -/
def rControl (q : Reg) : Act Word := .get fun s => s.getReg q

/-- SCI, constant format (R92). -/
def execSciK (cond : List Bool) (r : Reg) (w : Const) (s : State) : Host.Outcome State Fault Refusal :=
  control skipTarget (.sciK cond r w) cond r (wControl w) s

/-- SCI, memory format (R92). -/
def execSciBA (cond : List Bool) (r q : Reg) (a : Const) (s : State) : Host.Outcome State Fault Refusal :=
  control skipTarget (.sciBA cond r q a) cond r (mControl q a) s

/-- SCI, register format (R92). -/
def execSciRR (cond : List Bool) (r q : Reg) (s : State) : Host.Outcome State Fault Refusal :=
  control skipTarget (.sciRR cond r q) cond r (rControl q) s

/-- JMP, constant format (R93). -/
def execJmpK (cond : List Bool) (r : Reg) (w : Const) (s : State) : Host.Outcome State Fault Refusal :=
  control jumpTarget (.jmpK cond r w) cond r (wControl w) s

/-- JMP, memory format (R93). -/
def execJmpBA (cond : List Bool) (r q : Reg) (a : Const) (s : State) : Host.Outcome State Fault Refusal :=
  control jumpTarget (.jmpBA cond r q a) cond r (mControl q a) s

/-- JMP, register format (R93). -/
def execJmpRR (cond : List Bool) (r q : Reg) (s : State) : Host.Outcome State Fault Refusal :=
  control jumpTarget (.jmpRR cond r q) cond r (rControl q) s

end Sys2Proof.Machine
end

