-- ==== Sys2Proof/Machine/Move.lean ====
section
/-! DEFINITION. The move instructions STR, USS, BRS and UDB (R100 to R111). -/

namespace Sys2Proof.Machine

/-! STR (R100 to R104). -/

/-- x[Z] <- source (R101, R104). CC_UPDATE is given the source, and the new target (DESIGN CHOICE, log 7: so too in the other forms of
STR and in USS). -/
def moveReg (i : Instr) (z : Reg) (src : Word) : State → Host.Outcome State Fault Refusal :=
  finish i <| (writeReg z src).bind fun _ => (updateCc i [src] [src]).bind fun _ => .pure false

/-- STR, constant format (R101). -/
def execStrK (z : Reg) (w : Const) (s : State) : Host.Outcome State Fault Refusal :=
  moveReg (.strK z w) z (extend s.cfg.wExtMove w) s

/-- STR, memory format, load form (R102): the datum goes to x[Z], then A is added to x[Q] if Ä = 1. -/
def execStrML (z q : Reg) (ae : Bool) (g : BitVec 3) (a : Const) (s : State) :
    Host.Outcome State Fault Refusal :=
  finish (.strML z q ae g a) ((loadSource q ae g a).bind fun v =>
    (writeReg z v).bind fun _ =>
      (addDisp q ae a).bind fun _ =>
        (updateCc (.strML z q ae g a) [v] [v]).bind fun _ => .pure false) s

/-- STR, memory format, store form (R103): A is added to x[Z] first if Ä = 1; then x[Q], cut to n cells, goes to memory. -/
def execStrMS (z q : Reg) (ae : Bool) (g : BitVec 3) (a : Const) (s : State) :
    Host.Outcome State Fault Refusal :=
  finish (.strMS z q ae g a) ((addDisp z ae a).bind fun _ => fun s1 =>
    ((memWrite (effAddr s1 z ae a) (narrow (gCells s1 g) (s1.getReg q))).bind fun _ =>
      (updateCc (.strMS z q ae g a) [s1.getReg q] [s1.getReg q]).bind fun _ => .pure false) s1) s

/-- STR, register format (R104). -/
def execStrRR (z q : Reg) (s : State) : Host.Outcome State Fault Refusal :=
  moveReg (.strRR z q) z (s.getReg q) s

/-! USS (R105 to R107). -/

/-- The `n` cells from `pa` on are clean in this unit's monitor (R105, R106). -/
def watch (pa n : Nat) : Act Unit := .modify fun s => s.setMon (s.mon.clean pa n)

/-- The unit reads `n` cells, and each is clean in its monitor from its own read on, so that no write after it goes unnoticed (R105,
R107). DEDUCED (log 26): R105 lists the marks after the whole read, which would miss a write by another unit in between. From the lowest address up (DESIGN CHOICE, log 38). -/
def readWatched : Nat → Nat → Act (List Byte)
  | _, 0 => .pure []
  | a, n + 1 => (readCell a).bind fun b => (watch a 1).bind fun _ => (readWatched (a + 1) n).bind fun bs => .pure (b :: bs)

/-- The check, the write and the marks of a USS store (R106): if a cell of the target is not clean, USSFAIL, and nothing is written.
DEDUCED (log 26): the three are indivisible, so that no other unit writes between the check and the write (R107). A write of 16 cells,
under a G_MEANING with such a size, may be an interruption (R172). -/
def storeClean (pa : Nat) (bs : List Byte) : Act Unit := fun s =>
  let s1 := s.envTick
  if s1.mon.allClean pa bs.length then
    match firstAbsent s1.cfg pa bs.length with
    | some a => .stuck (.absentCell a) s1
    | none => watch pa bs.length (signalled pa bs (s1.storeCells pa bs))
  else .trap .ussfail s1

/-- USS, first format (R105): load, and start the watch. -/
def execUssML (z q : Reg) (g : BitVec 3) (a : Const) (s : State) : Host.Outcome State Fault Refusal :=
  finish (.ussML z q g a) ((unitTranslate (s.getReg q + dispOf s a) .data (gCells s g)).bind fun m =>
    (readWatched m.pa (gCells s g)).bind fun bs =>
      (writeReg z (widen (gSigned s g) bs)).bind fun _ =>
        (updateCc (.ussML z q g a) [widen (gSigned s g) bs] [widen (gSigned s g) bs]).bind fun _ => .pure false) s

/-- USS, second format (R106): after the translation, every cell of the target must be clean, or the unit traps. -/
def execUssMS (z q : Reg) (g : BitVec 3) (a : Const) (s : State) : Host.Outcome State Fault Refusal :=
  finish (.ussMS z q g a) ((unitTranslate (s.getReg z + dispOf s a) .write (gCells s g)).bind fun m =>
    (storeClean m.pa (narrow (gCells s g) (s.getReg q))).bind fun _ =>
      (updateCc (.ussMS z q g a) [s.getReg q] [s.getReg q]).bind fun _ => .pure false) s

/-! BRS (R108 to R110). -/

/-- The IP in the stored image is the advanced IP, so that loading the image resumes after the BRS (R110, log 8). -/
def resumeIp (i : Instr) (s : State) : Word :=
  match s.cfg.ipBase with
  | .next => s.ip
  | .this => nextIp i s

/-- The cells of the SR image that BRS stores (R13, R110). -/
def savedSr (i : Instr) (s : State) : List Byte :=
  toCells s.cfg.srLayout.cells (srImage s.cfg s.root s.cc (resumeIp i s))

/-- BRS(wa, ra) (R110): the old SR is written at `wa`; the new one is read at `ra`, an access of kind srload, with the old
root table; SR is replaced. It writes C itself, and CC_UPDATE is not asked (DESIGN CHOICE, log 7). -/
def contextSwitch (i : Instr) (wa ra : Word) : State → Host.Outcome State Fault Refusal := fun s =>
  finish i ((memWrite wa (savedSr i s)).bind fun _ =>
    (memRead ra s.cfg.srLayout.cells .srload).bind fun bs =>
      (Act.modify fun s1 => s1.loadSr (fromCells bs)).bind fun _ => .pure true) s

/-- BRS with address constant (R108). -/
def execBrsBA (r q : Reg) (a : Const) (s : State) : Host.Outcome State Fault Refusal :=
  contextSwitch (.brsBA r q a) (s.getReg r) (s.getReg q + dispOf s a) s

/-- BRS, registers only (R109). -/
def execBrsRR (r q : Reg) (s : State) : Host.Outcome State Fault Refusal :=
  contextSwitch (.brsRR r q) (s.getReg r) (s.getReg q) s

/-! UDB (R111). -/

/-- The cells of the interrupt entry: x[q] ++ x[q+1] (R111, R171). -/
def entryCells (s : State) (q : Reg) : List Byte :=
  narrow 8 (s.getReg q) ++ narrow 8 (s.getReg (q + 1))

/-- UDB (R111): the register pair is written, 16 cells, at x[Z] + A; at a gate this is an interruption (R172).
CC_UPDATE is given the pair, as operands and as results (DESIGN CHOICE, log 7). -/
def execUdb (z q : Reg) (a : Const) (s : State) : Host.Outcome State Fault Refusal :=
  finish (.udb z q a) ((memWrite (s.getReg z + dispOf s a) (entryCells s q)).bind fun _ =>
    (updateCc (.udb z q a) [s.getReg q, s.getReg (q + 1)] [s.getReg q, s.getReg (q + 1)]).bind fun _ =>
      .pure false) s

end Sys2Proof.Machine
end

