-- ==== Sys2Proof/Machine/Dispatch.lean ====
section
/-! DEFINITION. The dispatch: one arm per instruction, each a direct call of its meaning. -/

namespace Sys2Proof.Machine

def exec (i : Instr) (s : State) : Host.Outcome State Fault Refusal :=
  match i with
  | .sciK cond r w => Sys2Proof.Machine.execSciK cond r w s
  | .sciBA cond r q a => Sys2Proof.Machine.execSciBA cond r q a s
  | .sciRR cond r q => Sys2Proof.Machine.execSciRR cond r q s
  | .jmpK cond r w => Sys2Proof.Machine.execJmpK cond r w s
  | .jmpBA cond r q a => Sys2Proof.Machine.execJmpBA cond r q a s
  | .jmpRR cond r q => Sys2Proof.Machine.execJmpRR cond r q s
  | .lshK z w => Sys2Proof.Machine.execLshK z w s
  | .lshML z q ae g a => Sys2Proof.Machine.execLshML z q ae g a s
  | .lshMS z q ae g a => Sys2Proof.Machine.execLshMS z q ae g a s
  | .lshRR z q => Sys2Proof.Machine.execLshRR z q s
  | .rnsK z w => Sys2Proof.Machine.execRnsK z w s
  | .rnsML z q ae g a => Sys2Proof.Machine.execRnsML z q ae g a s
  | .rnsMS z q ae g a => Sys2Proof.Machine.execRnsMS z q ae g a s
  | .rnsRR z q => Sys2Proof.Machine.execRnsRR z q s
  | .rfsK z w => Sys2Proof.Machine.execRfsK z w s
  | .rfsML z q ae g a => Sys2Proof.Machine.execRfsML z q ae g a s
  | .rfsMS z q ae g a => Sys2Proof.Machine.execRfsMS z q ae g a s
  | .rfsRR z q => Sys2Proof.Machine.execRfsRR z q s
  | .thrK z w => Sys2Proof.Machine.execThrK z w s
  | .thrML z q ae g a => Sys2Proof.Machine.execThrML z q ae g a s
  | .thrMS z q ae g a => Sys2Proof.Machine.execThrMS z q ae g a s
  | .thrRR z q => Sys2Proof.Machine.execThrRR z q s
  | .andK z w => Sys2Proof.Machine.execAndK z w s
  | .andML z q ae g a => Sys2Proof.Machine.execAndML z q ae g a s
  | .andMS z q ae g a => Sys2Proof.Machine.execAndMS z q ae g a s
  | .andRR z q => Sys2Proof.Machine.execAndRR z q s
  | .orK z w => Sys2Proof.Machine.execOrK z w s
  | .orML z q ae g a => Sys2Proof.Machine.execOrML z q ae g a s
  | .orMS z q ae g a => Sys2Proof.Machine.execOrMS z q ae g a s
  | .orRR z q => Sys2Proof.Machine.execOrRR z q s
  | .notK z w => Sys2Proof.Machine.execNotK z w s
  | .notML z q ae g a => Sys2Proof.Machine.execNotML z q ae g a s
  | .notMS z q ae g a => Sys2Proof.Machine.execNotMS z q ae g a s
  | .notRR z q => Sys2Proof.Machine.execNotRR z q s
  | .sswK z w => Sys2Proof.Machine.execSswK z w s
  | .sswML z q ae g a => Sys2Proof.Machine.execSswML z q ae g a s
  | .sswMS z q ae g a => Sys2Proof.Machine.execSswMS z q ae g a s
  | .sswRR z q => Sys2Proof.Machine.execSswRR z q s
  | .givK z w => Sys2Proof.Machine.execGivK z w s
  | .givML z q ae g a => Sys2Proof.Machine.execGivML z q ae g a s
  | .givMS z q ae g a => Sys2Proof.Machine.execGivMS z q ae g a s
  | .givRR z q => Sys2Proof.Machine.execGivRR z q s
  | .tacK z w => Sys2Proof.Machine.execTacK z w s
  | .tacML z q ae g a => Sys2Proof.Machine.execTacML z q ae g a s
  | .tacMS z q ae g a => Sys2Proof.Machine.execTacMS z q ae g a s
  | .tacRR z q => Sys2Proof.Machine.execTacRR z q s
  | .fldK z w => Sys2Proof.Machine.execFldK z w s
  | .fldML z q ae g a => Sys2Proof.Machine.execFldML z q ae g a s
  | .fldMS z q ae g a => Sys2Proof.Machine.execFldMS z q ae g a s
  | .fldRR z q => Sys2Proof.Machine.execFldRR z q s
  | .cutK z w => Sys2Proof.Machine.execCutK z w s
  | .cutML z q ae g a => Sys2Proof.Machine.execCutML z q ae g a s
  | .cutMS z q ae g a => Sys2Proof.Machine.execCutMS z q ae g a s
  | .cutRR z q => Sys2Proof.Machine.execCutRR z q s
  | .strK z w => Sys2Proof.Machine.execStrK z w s
  | .strML z q ae g a => Sys2Proof.Machine.execStrML z q ae g a s
  | .strMS z q ae g a => Sys2Proof.Machine.execStrMS z q ae g a s
  | .strRR z q => Sys2Proof.Machine.execStrRR z q s
  | .ussML z q g a => Sys2Proof.Machine.execUssML z q g a s
  | .ussMS z q g a => Sys2Proof.Machine.execUssMS z q g a s
  | .brsBA r q a => Sys2Proof.Machine.execBrsBA r q a s
  | .brsRR r q => Sys2Proof.Machine.execBrsRR r q s
  | .udb z q a => Sys2Proof.Machine.execUdb z q a s

end Sys2Proof.Machine
end

