-- ==== Sys2Proof/Machine/Fetch.lean ====
section
/-! DEFINITION. Steps 1 and 2 of the instruction cycle (R160): the unit reads an instruction and recognizes it. Also the data
address of an interrupt entry (R171), and the cells that a load from outside puts where the next fetch reads. -/

namespace Sys2Proof.Machine

/-- Recognition of the cells of an instruction read whole; if there is none, AEA (R160 step 2, R82). -/
def recognized (cells : List Byte) : Act Instr := fun s =>
  match s.cfg.recognize cells with
  | some i => .ok i s
  | none => .trap .aea s

/-- Steps 1 and 2 of R160: two cells are read at IP.T ++ 0; the opcode is looked up; a 4-cell instruction needs a second read,
translated separately (D35); the constant bits are compared. IP is not advanced here. -/
def fetchInstr : Act Instr := fun s =>
  ((memRead s.instrAddr 2 .instr).bind fun h1 => fun s1 =>
    match s1.cfg.lengthOf (h1.headD 0#8) with
    | none => .trap .aea s1
    | some .two => recognized h1 s1
    | some .four =>
      ((memRead (s.instrAddr + 2#64) 2 .instr).bind fun h2 => recognized (h1 ++ h2)) s1) s

/-- What happens between steps 2 and 3 of R160: IP advances by the length of the instruction, or, under IP_BASE = this, not
yet (R24). -/
def beforeExec (i : Instr) (s : State) : State :=
  match s.cfg.ipBase with
  | .next => advanceIp i s
  | .this => s

/-- The root table that an interrupt entry points to (R171). -/
def entryRoot (c : Config) (e : BitVec 128) : Nat :=
  pointerAddr c.irqLayout.rootBits (fieldAt e.toNat c.irqLayout.rootLo c.irqLayout.rootBits.val)

/-- The data address B of an interrupt entry (R171). -/
def entryData (c : Config) (e : BitVec 128) : Word := BitVec.ofNat 64 (fieldAt e.toNat c.irqLayout.dataLo 64)

/-- The target's translation of the entry's data address (R172 step 2). -/
def targetTranslate (e : BitVec 128) (write : Bool) : Act Mapped := fun s =>
  translate (entryRoot s.cfg e) (entryData s.cfg e) (if write then .write else .data) 1 s

/-- A target has reached a cell that does not exist: it is stuck (R33; log 29). -/
def targetStuck (s : State) (t : Nat) : Bool :=
  s.served.any fun v =>
    match v.result, s.irqs[v.event]? with
    | .stuck _, some e => e.target == t
    | _, _ => false

/-- A target's turn (R172 steps 2 and 3): it translates the entry's data address with the entry's root table; the translation
is recorded; what processing the data writes is written, and may be an interruption with the target as its source (R170). A condition
is the target's, and nothing is processed. DESIGN CHOICE (log 29): a target whose translation reaches a cell that does not exist is
the unit that is stuck (R33); that is recorded, the target makes no further turn, and the processing unit goes on. Of what processing
writes, cells that do not exist are left out, and the target goes on. -/
def targetStep (m : TargetMove) (s : State) : Host.Outcome State Fault Refusal :=
  match s.irqs[m.event]? with
  | none => .next s
  | some e =>
    if targetStuck s e.target then .next s
    else
      match targetTranslate e.entry m.write s with
      | .ok t s' => .next ((s'.addServed ⟨m.event, .address t.pa⟩).otherWrites m.stores)
      | .trap c s' => .next (s'.addServed ⟨m.event, .condition c⟩)
      | .stuck r s' => .next (s'.addServed ⟨m.event, .stuck r⟩)

/-! Loading one instruction from outside (log 32). -/

/-- A 6th order frame descriptor with W = R = X = 1, S = M = 0 and the frame base `t` (R44). -/
def loaderDescriptor (t : Nat) : Nat := t * 2 ^ 57 + 0b11110

/-- The root table pointer that the load leaves in SR.R: the one that is there, or 0 where its table would run past the last physical
address, which a pointer of more than 54 bits can say. -/
def loaderRoot (s : State) : Nat := if rootAddr s + 1024 ≤ 2 ^ 64 then s.root else 0

/-- A frame of order 6 that holds no cell of the root table at `root`. -/
def loaderFrame (root : Nat) : Nat := if root < 2 ^ 58 then 3 else 0

/-- Memory in which the virtual address `va` is mapped, through an entry of the root table at `root`, to the loader's frame
with all of W, R, X. -/
def loaderMap (root : Nat) (va : Word) (m : Memory) : Memory :=
  m.writeCells (root + 8 * tableIndex 6 va) (toCells 8 (loaderDescriptor (loaderFrame root)))

/-- The physical address of `va` under that mapping. -/
def loaderPa (root : Nat) (va : Word) : Nat := loaderFrame root * 2 ^ 57 + va.toNat % 2 ^ 57

/-- Memory in which a fetch at `ia` through the root table at `root` reads these four cells. -/
def loaderMemory (root : Nat) (ia : Word) (cells : List Byte) (m : Memory) : Memory :=
  let m1 := loaderMap root (ia + 2#64) (loaderMap root ia m)
  (m1.writeCells (loaderPa root ia) (cells.take 2)).writeCells (loaderPa root (ia + 2#64)) (cells.drop 2)

end Sys2Proof.Machine
end

