-- ==== Sys2Proof/Machine/Step.lean ====
section
/-! DEFINITION. One step of the machine (R160, R196). -/

namespace Sys2Proof.Machine

/-- One instruction cycle of the processing unit (R160). A unit that is Stopped or Trapped makes no step: nothing changes
(R23, R164, log 25, log 27). -/
def unitStep (s : State) : Host.Outcome State Fault Refusal :=
  if s.stopped || s.trapped.isSome then .next s
  else
    match fetchInstr s with
    | .ok i s1 => exec i (beforeExec i s1)
    | .trap c s1 => .next (takeTrap c s1)
    | .stuck r _ => .fault r

/-- One step of the machine: the agent whose turn it is takes it; without a schedule, the processing unit (R196). -/
def step (s : State) : Host.Outcome State Fault Refusal :=
  match s.turns with
  | [] => unitStep s
  | .unit :: ts => unitStep { s with turns := ts }
  | .target m :: ts => targetStep m { s with turns := ts }

/-- An instruction loaded from outside where the next step fetches (log 32): the unit is Running, its turn is next, the
address of its next instruction is mapped, through the root table that SR.R points to, to a frame with W = R = X = 1, and the
instruction's cells stand there. -/
def State.withFetchWord (s : State) (nbits w : Nat) : State :=
  { s with
    ip := s.instrAddr
    root := loaderRoot s
    mem := loaderMemory (rootAddr { s with root := loaderRoot s }) s.instrAddr (tableCells nbits w) s.mem
    trapped := none
    env := []
    turns := []
    cfg := { s.cfg with physCells := 2 ^ 64, encoding := .rp1 } }

end Sys2Proof.Machine
end

