-- ==== Sys2Proof/Machine/Formats.lean ====
section
/-! DEFINITION. The numbers that bitstrings express (R17, R19). No instruction reads the floating point formats (R20); their
field widths are lost, so they are arguments here (log 33). -/

namespace Sys2Proof.Machine

/-- S_i, the bit i of a string (R3): bit 1 is the most significant. -/
def stringBit {w : Nat} (s : BitVec w) (i : Nat) : ℚ := if s.getMsbD (i - 1) then 1 else 0

/-- Z_U(S, M) = 2^M * sum over i = 1 .. |S| of 2^(|S|-i) * S_i (R17). -/
def zU {w : Nat} (s : BitVec w) (m : Int) : ℚ :=
  (2 : ℚ) ^ m * ∑ i ∈ Finset.Icc 1 w, (2 : ℚ) ^ (w - i) * stringBit s i

/-- Z_Z(S, M) = 2^M * (-2^(|S|-1) * S_1 + sum over i = 2 .. |S| of 2^(|S|-i) * S_i) (R17). -/
def zZ {w : Nat} (s : BitVec w) (m : Int) : ℚ :=
  (2 : ℚ) ^ m * (-(2 : ℚ) ^ (w - 1) * stringBit s 1 + ∑ i ∈ Finset.Icc 2 w, (2 : ℚ) ^ (w - i) * stringBit s i)

/-- X(V, M, B) = (-1)^V * 2^(Z_U(M,0) - 2^(|M|-1)) * Z_U(B, -1-|B|) (R19). -/
def xValue {m b : Nat} (v : Bool) (e : BitVec m) (f : BitVec b) : ℚ :=
  (if v then -1 else 1) * (2 : ℚ) ^ ((e.toNat : Int) - 2 ^ (m - 1)) * zU f (-1 - (b : Int))

end Sys2Proof.Machine
end

