-- ==== Sys2Proof/Safety.lean ====
section
/-! DEFINITION. The terms in which claims about the machine are stated: the invariant of its state, the absence of other units
(D30), an operand that can be read or written, how an instruction ends, and how a run ends (R195). -/

namespace Sys2Proof.Machine

/-- The invariant of the state: memory and monitor keep their canonical forms, and hold entries for cells that exist only; SR.C has CW
bits, and SR.R those of its field. -/
def Inv (s : State) : Prop :=
  Memory.wf s.mem ∧ Monitor.wf s.mon ∧ (∀ c ∈ s.mem, populated s.cfg c.1 = true) ∧
    (∀ c ∈ s.mon, populated s.cfg c.1 = true) ∧ s.cc < 2 ^ s.cfg.cw ∧
    s.root < 2 ^ s.cfg.srLayout.rootBits.val

/-- No other unit writes memory (the premise of single-program claims, D30). -/
def Quiet (s : State) : Prop := s.env = []

/-- The `n` cells from `pa` on exist (D10). -/
def CellsExist (c : Config) (pa n : Nat) : Prop := ∀ k, k < n → populated c (pa + k) = true

/-- Without other units, the `n` cells at the virtual address `va` can be read by an access of this kind, and the first of
them is the physical cell `pa`. -/
def Readable (s : State) (va : Word) (kind : AccessKind) (n pa : Nat) : Prop :=
  Quiet s ∧ (∃ m, unitTranslate va kind n s = .ok m s ∧ m.pa = pa) ∧ CellsExist s.cfg pa n

/-- Without other units, the `n` cells at `va` can be written: the translation gives `m` and leaves the state `s'` (R57 step 4
sets the holder's M bit), and the cells exist. -/
def Writable (s : State) (va : Word) (n : Nat) (m : Mapped) (s' : State) : Prop :=
  Quiet s ∧ unitTranslate va .write n s = .ok m s' ∧ CellsExist s.cfg m.pa n

/-- After a string is written from `pa` on: its cells are, and the interruption is recorded if it is one (R33, R172). -/
def State.written (s : State) (pa : Nat) (bs : List Byte) : State := signalled pa bs (s.storeCells pa bs)

/-- The 64-string in the 8 cells at `a`: a table entry, a gate (R42), or a 64-string operand (R91). -/
def entryAt (m : Memory) (a : Nat) : Word := BitVec.ofNat 64 (fromCells (m.readCells a 8))

/-- The datum that a memory operand at the physical address `pa` holds, widened by field G (R77). -/
def datum (s : State) (g : BitVec 3) (pa : Nat) : Word := widen (gSigned s g) (s.mem.readCells pa (gCells s g))

/-- The state after the hook for C, at the end of an instruction (R14). Under the default of the spec it is the same. -/
def hooked (i : Instr) (operands results : List Word) (s : State) : State :=
  match ccUpdate s.cfg i operands results with
  | some v => s.setCc v
  | none => s

/-- The state after an instruction that did not write IP: under IP_BASE = this, IP is advanced now (R24). Under the default of
the spec, where it was advanced before, it is the same. -/
def trailing (i : Instr) (s : State) : State :=
  if s.cfg.ipBase = .this then advanceIp i s else s

/-- The end of an instruction that did not write IP: the hook for C, and the advance of IP if it is due. -/
def ended (i : Instr) (operands results : List Word) (s : State) : State := trailing i (hooked i operands results s)

/-- A is added to the address register if Ä = 1 (R73). -/
def withDisp (s : State) (r : Reg) (ae : Bool) (a : Const) : State :=
  if ae then s.setReg r (s.getReg r + dispOf s a) else s

/-- The registers an instruction may change: its target register, and the address register that the Ä-bit updates (R11, R73). -/
def destRegs : Instr → List Reg
  | .sciK _ r _ | .sciBA _ r _ _ | .sciRR _ r _ | .jmpK _ r _ | .jmpBA _ r _ _ | .jmpRR _ r _ => [r]
  | .lshK z _ | .rnsK z _ | .rfsK z _ | .thrK z _ | .andK z _ | .orK z _ | .notK z _ | .sswK z _ => [z]
  | .givK z _ | .tacK z _ | .fldK z _ | .cutK z _ | .strK z _ => [z]
  | .lshRR z _ | .rnsRR z _ | .rfsRR z _ | .thrRR z _ | .andRR z _ | .orRR z _ | .notRR z _ | .sswRR z _ => [z]
  | .givRR z _ | .tacRR z _ | .fldRR z _ | .cutRR z _ | .strRR z _ => [z]
  | .lshML z q ae _ _ | .rnsML z q ae _ _ | .rfsML z q ae _ _ | .thrML z q ae _ _ | .andML z q ae _ _
  | .orML z q ae _ _ | .notML z q ae _ _ | .sswML z q ae _ _ | .givML z q ae _ _ | .tacML z q ae _ _
  | .fldML z q ae _ _ | .cutML z q ae _ _ | .strML z q ae _ _ => if ae then [z, q] else [z]
  | .lshMS z _ ae _ _ | .rnsMS z _ ae _ _ | .rfsMS z _ ae _ _ | .thrMS z _ ae _ _ | .andMS z _ ae _ _
  | .orMS z _ ae _ _ | .notMS z _ ae _ _ | .sswMS z _ ae _ _ | .givMS z _ ae _ _ | .tacMS z _ ae _ _
  | .fldMS z _ ae _ _ | .cutMS z _ ae _ _ | .strMS z _ ae _ _ => if ae then [z] else []
  | .ussML z _ _ _ => [z]
  | .ussMS _ _ _ _ | .brsBA _ _ _ | .brsRR _ _ | .udb _ _ _ => []

/-- Where a form that stores stores to: the state in which the address is translated (after the update of the address
register), the virtual address, and the number of cells. -/
def storesAt (i : Instr) (s : State) : Option (State × Word × Nat) :=
  match i with
  | .lshMS z _ ae g a | .rnsMS z _ ae g a | .rfsMS z _ ae g a | .thrMS z _ ae g a | .andMS z _ ae g a
  | .orMS z _ ae g a | .notMS z _ ae g a | .sswMS z _ ae g a | .givMS z _ ae g a | .tacMS z _ ae g a
  | .fldMS z _ ae g a | .cutMS z _ ae g a | .strMS z _ ae g a =>
    some (withDisp s z ae a, effAddr (withDisp s z ae a) z ae a, gCells s g)
  | .ussMS z _ g a => some (s, s.getReg z + dispOf s a, gCells s g)
  | .brsBA r _ _ => some (s, s.getReg r, s.cfg.srLayout.cells)
  | .brsRR r _ => some (s, s.getReg r, s.cfg.srLayout.cells)
  | .udb z _ a => some (s, s.getReg z + dispOf s a, 16)
  | _ => none

/-- The instruction is a context switch, the one that replaces SR (R110). -/
def isBrs : Instr → Bool
  | .brsBA _ _ _ | .brsRR _ _ => true
  | _ => false

/-- The instruction is a control instruction, the one other kind that writes IP (R92, R93). -/
def isControl : Instr → Bool
  | .sciK _ _ _ | .sciBA _ _ _ _ | .sciRR _ _ _ | .jmpK _ _ _ | .jmpBA _ _ _ _ | .jmpRR _ _ _ => true
  | _ => false

/-- The instruction is one of the two that set entries of the USS monitor to clean (R105, R106). -/
def isUss : Instr → Bool
  | .ussML _ _ _ _ | .ussMS _ _ _ _ => true
  | _ => false

/-- No virtual address can be written through the frame table in force (the premise of R175). -/
def NothingWritable (s : State) : Prop := ∀ va n m t, unitTranslate va .write n s ≠ .ok m t

/-- The unit is Running and not Trapped, and its turn is next. -/
def Running (s : State) : Prop := s.stopped = false ∧ s.trapped = none ∧ s.turns = []

/-- How a run of at most `k` steps ends (R195). -/
inductive RunEnd where
  | stopped (st : State)
  | trapped (c : Condition) (st : State)
  /-- The rules give no next state: `st` is the state that has none (DESIGN CHOICE, log 37). -/
  | stuck (r : Fault) (st : State)
  | outOfSteps (st : State)
  /-- Not one of R195: an instruction without a meaning. No instruction of this model is. -/
  | rejected (r : Refusal)

/-- The run from a launch state: steps while the unit is Running (R191, R195). -/
def runEnd : Nat → State → RunEnd
  | 0, s =>
    match s.trapped with
    | some c => .trapped c s
    | none => if s.stopped then .stopped s else .outOfSteps s
  | k + 1, s =>
    match s.trapped with
    | some c => .trapped c s
    | none =>
      if s.stopped then .stopped s
      else
        match step s with
        | .next s' => runEnd k s'
        | .fault r => .stuck r s
        | .refused r => .rejected r

end Sys2Proof.Machine
end

