-- ==== Sys2Proof/Certificates/Slice0/Obligations.lean ====
section
/-! DEFINITION. The statements about the model, and the terms they share: the forms of an instruction, and the functions of the
bitwise instructions as the rules of `42_bitwise.md` give them in numbers. Every statement holds for all settings of the parameters
of R9 that its text does not fix. -/

open Sys2Proof Sys2Proof.Machine

namespace Sys2Proof.Claims

/-- The four forms of a bitwise or arithmetic instruction (R86). -/
structure Forms where
  k  : Reg → Const → Instr
  ml : Reg → Reg → Bool → BitVec 3 → Const → Instr
  ms : Reg → Reg → Bool → BitVec 3 → Const → Instr
  rr : Reg → Reg → Instr

/-- The opcode bytes of the four forms are these (R80). -/
def Forms.opcodes (F : Forms) (k ml ms rr : Byte) : Prop :=
  ∀ z q ae g a w, (encode (F.k z w)).head? = some k ∧ (encode (F.ml z q ae g a)).head? = some ml ∧
    (encode (F.ms z q ae g a)).head? = some ms ∧ (encode (F.rr z q)).head? = some rr

def giv : Forms := ⟨.givK, .givML, .givMS, .givRR⟩
def tac : Forms := ⟨.tacK, .tacML, .tacMS, .tacRR⟩
def fld : Forms := ⟨.fldK, .fldML, .fldMS, .fldRR⟩
def cut : Forms := ⟨.cutK, .cutML, .cutMS, .cutRR⟩

/-- A bitwise instruction: its forms, its function f(t, s, w), whether that uses t, and the extension of W (R120, R78). -/
structure BitwiseRow where
  forms : Forms
  f     : (w : Nat) → BitVec w → Word → BitVec w
  usesT : Bool
  wExt  : State → Ext

/-- The eight bitwise instructions, their functions as numbers: u(t) * 2^c mod 2^w, floor(u(t) / 2^c), floor(s(t) / 2^c), the
rotation by c mod w, the operations on matching bits, and (2^w - u(s')) mod 2^w (R121 to R129). -/
def bitwiseRows : List BitwiseRow :=
  [⟨⟨.lshK, .lshML, .lshMS, .lshRR⟩, fun w t s => BitVec.ofNat w (t.toNat * 2 ^ s.toNat), true, fun s => s.cfg.wExtBitwise⟩,
   ⟨⟨.rnsK, .rnsML, .rnsMS, .rnsRR⟩, fun w t s => BitVec.ofNat w (t.toNat / 2 ^ s.toNat), true, fun s => s.cfg.wExtBitwise⟩,
   ⟨⟨.rfsK, .rfsML, .rfsMS, .rfsRR⟩, fun w t s => BitVec.ofInt w (t.toInt / 2 ^ s.toNat), true, fun s => s.cfg.wExtBitwise⟩,
   ⟨⟨.thrK, .thrML, .thrMS, .thrRR⟩, fun w t s => t.rotateRight (s.toNat % w), true, fun s => s.cfg.wExtBitwise⟩,
   ⟨⟨.andK, .andML, .andMS, .andRR⟩, fun w t s => t &&& s.setWidth w, true, fun s => s.cfg.wExtBitwise⟩,
   ⟨⟨.orK, .orML, .orMS, .orRR⟩, fun w t s => t ||| s.setWidth w, true, fun s => s.cfg.wExtBitwise⟩,
   ⟨⟨.notK, .notML, .notMS, .notRR⟩, fun w _ s => ~~~s.setWidth w, false, fun s => s.cfg.wExtBitwise⟩,
   ⟨⟨.sswK, .sswML, .sswMS, .sswRR⟩, fun w _ s => BitVec.ofNat w (2 ^ w - (s.setWidth w).toNat), false, fun _ => .zero⟩]

/-- A register form completes: x[z] becomes v, and nothing else changes but what the end of an instruction does. -/
def SetsRegister (i : Instr) (z : Reg) (src v : Word) (s : State) : Prop :=
  exec i s = .next (ended i [s.getReg z, src] [v] (s.setReg z v))

/-- A load form completes: x[z] becomes v, and then A is added to x[q] if Ä = 1. -/
def LoadsInto (i : Instr) (z q : Reg) (ae : Bool) (a : Const) (src v : Word) (s : State) : Prop :=
  exec i s = .next (ended i [s.getReg z, src] [v] (withDisp (s.setReg z v) q ae a))

/-- The four forms of an arithmetic instruction with the function `g` (signedness, T, S) complete wherever their operands can be
accessed and meet `ok` (R140). -/
def ArithCompletes (F : Forms) (g : State → Bool → Word → Word → Word) (ok : State → Word → Word → Prop) : Prop :=
  ∀ (z q : Reg) (ae : Bool) (gf : BitVec 3) (a w : Const) (s : State),
    (ok s (s.getReg z) (w.bits.signExtend 64) →
      SetsRegister (F.k z w) z (w.bits.signExtend 64) (g s true (s.getReg z) (w.bits.signExtend 64)) s) ∧
    (ok s (s.getReg z) (s.getReg q) → SetsRegister (F.rr z q) z (s.getReg q) (g s true (s.getReg z) (s.getReg q)) s) ∧
    (∀ pa, Readable s (effAddr s q ae a) .data (gCells s gf) pa → ok s (s.getReg z) (datum s gf pa) →
      LoadsInto (F.ml z q ae gf a) z q ae a (datum s gf pa) (g s (gSigned s gf) (s.getReg z) (datum s gf pa)) s) ∧
    (∀ pa m s1 s', s1 = withDisp s z ae a → Readable s1 (effAddr s1 z ae a) .data (gCells s gf) pa →
      Writable s1 (effAddr s1 z ae a) (gCells s gf) m s' → ok s (datum s gf pa) (s1.getReg q) →
      exec (F.ms z q ae gf a) s =
        .next (ended (F.ms z q ae gf a) [datum s gf pa, s1.getReg q] [g s (gSigned s gf) (datum s gf pa) (s1.getReg q)]
          (s'.written m.pa (narrow (gCells s gf) (g s (gSigned s gf) (datum s gf pa) (s1.getReg q))))))

/-- DIV of the parameters in force, for a divisor that is not 0 (R145 (d)). -/
def divOf (c : Config) (signed : Bool) (a b : Word) : Word :=
  match c.division with
  | .truncating => quotient signed a b
  | .other => Config.otherDiv signed a b

/-- The dividend and the divisor of CUT, from the old target and the source (R144). -/
def cutOperands (c : Config) (t src : Word) : Word × Word :=
  match c.cutOrder with
  | .sourceOverTarget => (src, t)
  | .targetOverSource => (t, src)

/-- A control instruction with the source `src` and the new IP `new`: where the bit of cond that designates SR.C is 1, IP gets its
new value and x[r] the old IP; where it is 0, nothing changes (R90, R92, R93). -/
def ControlFrom (i : Instr) (cond : List Bool) (r : Reg) (src new : Word) (s : State) : Prop :=
  (cond.getD s.cc false = true →
    exec i s = .next (hooked i [src] [new] ((s.setIp new).setReg r s.ip))) ∧
  (cond.getD s.cc false = false → exec i s = .next (trailing i s))

/-- The two formats of BRS with the addresses of its write and of its read (R108, R109). -/
def BrsForm (i : Instr) (wa ra : Word) (s : State) : Prop :=
  (∃ r q a, i = .brsBA r q a ∧ wa = s.getReg r ∧ ra = s.getReg q + dispOf s a) ∨
    ∃ r q, i = .brsRR r q ∧ wa = s.getReg r ∧ ra = s.getReg q

/-- The frame table lets no program write anything, no other unit writes, and a condition is the end (R175, R195, R196). -/
def Confined (s : State) : Prop :=
  Quiet s ∧ s.turns = [] ∧ s.cfg.trapEntry = .terminal ∧ NothingWritable s

/-- The opcode byte `op` is not in the opcode map RP-1: the first six cases of R82. -/
def UnknownOpcode (op : Byte) : Prop :=
  (opGroup op = 0b10#2 ∧ 12 ≤ (opNumber op).toNat) ∨ (opGroup op = 0b11#2 ∧ 3 ≤ (opNumber op).toNat) ∨
    ((opGroup op = 0b00#2 ∨ opGroup op = 0b01#2) ∧ opForm op = 0b10#2) ∨ op = 0x71#8 ∨ op = 0xF1#8 ∨ op = 0xF2#8

/-- A constant bit of the format is wrong: the last three cases of R82. -/
def WrongConstant (op b2 b3 : Byte) : Prop :=
  (op = 0xB2#8 ∧ b2.getLsbD 0 = true) ∨ ((op = 0x31#8 ∨ op = 0xB1#8) ∧ b3.getMsbD 0 = true) ∨
    (opForm op = 0b11#2 ∧ loNibble b2 ≠ 0x0#4)

/-- The state in which the agent whose turn it is takes it (R196). -/
def afterTurn (s : State) : State :=
  match s.turns with
  | [] => s
  | _ :: ts => { s with turns := ts }

/-- The next step is a target's, or the instruction that the unit reads in it is no USS. -/
def NoUss (s : State) : Prop :=
  (∃ m ts, s.turns = .target m :: ts) ∨ ∀ i u, fetchInstr (afterTurn s) = .ok i u → isUss i = false

/-- `k` steps of the machine lead from `s` to `t`, and in none of them the unit runs a USS. -/
def StepsWithoutUss : Nat → State → State → Prop
  | 0, s, t => s = t
  | k + 1, s, t => NoUss s ∧ ∃ u, step s = .next u ∧ StepsWithoutUss k u t

/-- The interruption that a write by another agent is: 16 cells, all of which exist, from a gate on (R170, R172). -/
def eventOf (c : Config) (w : Store) : Option Interruption :=
  if w.cells.length = 16 ∧ allExist c w.addr 16 = true then
    (lookupKey w.addr c.gates).map fun t => ⟨t, BitVec.ofNat 128 (fromCells w.cells)⟩
  else none

/-- The physical address is none of the cells that these writes write. -/
def Outside (a : Nat) (ws : List Store) : Prop := ∀ w ∈ ws, a < w.addr ∨ w.addr + w.cells.length ≤ a

/-- An instruction's outcome `t` is that of its effect, the state `u`, or the trap of a condition raised in `u` (R164). -/
def EndsIn (u t : State) : Prop := t = u ∨ ∃ c, t = takeTrap c u

end Sys2Proof.Claims

open Sys2Proof.Claims

/-! ## Encoding (RP-1) -/

/-- Decoding the encoding of an instruction, whatever follows, gives the instruction, every operand at every value (R72 to R82). -/
def Obligations.DecodeOfEncode : Prop :=
  ∀ (i : Instr) (rest : List Byte), WellFormed i = true → decode (encode i ++ rest) = .ok (i, rest)

/-- A byte string that decodes is the encoding of the instruction it decodes to: each instruction has one encoding (R82). -/
def Obligations.EncodeOfDecode : Prop :=
  ∀ (bs rest : List Byte) (i : Instr), decode bs = .ok (i, rest) → WellFormed i = true ∧ bs = encode i ++ rest

/-- Words written out from the format figures and the opcode map decode to the instructions they stand for (R72 to R80). -/
def Obligations.WordsOfTheSpecDecode : Prop :=
  decode [0xB1#8, 0x21#8, 0x30#8, 0x00#8] = .ok (.ussMS 2 1 3#3 ⟨12, 0#12⟩, []) ∧
  decode [0xB2#8, 0x34#8, 0x00#8, 0x10#8] = .ok (.udb 3 4 ⟨16, 16#16⟩, []) ∧
  decode [0x32#8, 0x12#8, 0x00#8, 0x10#8] = .ok (.brsBA 1 2 ⟨16, 16#16⟩, []) ∧
  decode [0x30#8, 0x12#8, 0xD0#8, 0x02#8] = .ok (.strML 1 2 true 5#3 ⟨12, 2#12⟩, []) ∧
  decode [0xCF#8, 0xE0#8, 0x00#8, 0x06#8] = .ok (.sciK [true, true, true, true] 14 ⟨16, 6#16⟩, []) ∧
  decode [0x58#8, 0xE3#8] = .ok (.jmpRR [true, false, false, false] 14 3, []) ∧
  decode [0xE1#8, 0x10#8, 0x00#8, 0x04#8] = .ok (.rnsK 1 ⟨16, 4#16⟩, []) ∧
  decode [0x69#8, 0x12#8] = .ok (.tacRR 1 2, [])

/-- What is not recognized is exactly what R82 lists: first by the opcode, then by a constant bit. -/
def Obligations.UnrecognizedEncodings : Prop :=
  ∀ (op b2 b3 b4 : Byte) (rest : List Byte),
    (decode (op :: b2 :: b3 :: b4 :: rest) = .error .unknownOpcode ↔ UnknownOpcode op) ∧
    (decode (op :: b2 :: b3 :: b4 :: rest) = .error .constantBits ↔ ¬UnknownOpcode op ∧ WrongConstant op b2 b3)

/-! ## Steps -/

/-- A Running unit, where the cells at its instruction address can be read and decode to an instruction, steps as that instruction
does; before it, IP is advanced by its length, or under IP_BASE = this not yet (R160, R24). -/
def Obligations.StepRunsDecoded : Prop :=
  ∀ (s : State) (i : Instr) (pa : Nat), Running s → s.cfg.encoding = .rp1 → Readable s s.instrAddr .instr 2 pa →
    (decode (s.mem.readCells pa 2) = .ok (i, []) → step s = exec i (beforeExec i s)) ∧
    (∀ pb, Readable s (s.instrAddr + 2#64) .instr 2 pb →
      decode (s.mem.readCells pa 2 ++ s.mem.readCells pb 2) = .ok (i, []) → step s = exec i (beforeExec i s)) ∧
    (s.cfg.ipBase = .next → beforeExec i s = s.setIp (s.ip + BitVec.ofNat 64 i.cells)) ∧
    (s.cfg.ipBase = .this → beforeExec i s = s)

/-- An instruction loaded from outside is the one the next step runs (R191; how a program is loaded is the model's, log 32). -/
def Obligations.LoadedWordRuns : Prop :=
  ∀ (s : State) (nbits w : Nat) (i : Instr), nbits ≤ 32 → decodeTableWord nbits w = some i →
    step (s.withFetchWord nbits w) = exec i (beforeExec i (s.withFetchWord nbits w))

/-- A Stopped unit makes no step, and a Trapped one none: the state stays (R23, R178, R164). Under TRAP_ENTRY terminal a condition
keeps the whole state and only records itself. -/
def Obligations.StoppedOrTrappedUnitRests : Prop :=
  ∀ (s : State) (c : Condition),
    (s.turns = [] → s.stopped = true → step s = .next s) ∧
    (s.turns = [] → s.trapped ≠ none → step s = .next s) ∧
    (s.cfg.trapEntry = .terminal → takeTrap c s = { s with trapped := some c }) ∧
    (s.cfg.trapEntry = .terminal → s.turns = [] → step (takeTrap c s) = .next (takeTrap c s))

/-- AEA: without other units (`Readable`), an instruction whose opcode is not in the opcode map, or that has a wrong constant bit
(under RP-1 only 4-cell formats have constant bits; that a wrong one is unrecognized is D33, log 20), raises it in step 2, with IP
still the address of that instruction; no instruction that is recognized raises it. That nothing but the record of the condition
changes is TRAP_ENTRY = terminal, in the form that log 25 chose. -/
def Obligations.UnrecognizedRaisesAea : Prop :=
  ∀ (s : State) (pa : Nat), Running s → s.cfg.encoding = .rp1 → Readable s s.instrAddr .instr 2 pa →
    (rp1Length ((s.mem.readCells pa 2).headD 0#8) = none → step s = .next (takeTrap .aea s)) ∧
    (∀ pb, rp1Length ((s.mem.readCells pa 2).headD 0#8) = some .four → Readable s (s.instrAddr + 2#64) .instr 2 pb →
      rp1Instr (s.mem.readCells pa 2 ++ s.mem.readCells pb 2) = none → step s = .next (takeTrap .aea s)) ∧
    (s.cfg.trapEntry = .terminal → takeTrap .aea s = { s with trapped := some .aea }) ∧
    (∀ i t, s.cfg.trapEntry = .terminal → exec i (beforeExec i s) = .next t → t.trapped ≠ some .aea)

/-- A condition raised before the instruction is recognized is ZEE, ZSW or AEA, and leaves IP and every register as they were;
the step takes that condition. Whatever other units write meanwhile (R24, R160, R167). -/
def Obligations.FetchConditionKeepsRegisters : Prop :=
  ∀ (s t : State) (c : Condition), Running s → fetchInstr s = .trap c t →
    step s = .next (takeTrap c t) ∧ (c = .zee ∨ c = .zsw ∨ c = .aea) ∧
      t.ip = s.ip ∧ t.regs = s.regs ∧ t.root = s.root ∧ t.cc = s.cc

/-- The conditions that an instruction's own accesses can raise are ZEE, ZSW and, for the store format of USS only, USSFAIL; at
the condition IP, SR.R and SR.C are what they were when the instruction began (R161, R24, R166). -/
def Obligations.ConditionsOfAnInstruction : Prop :=
  ∀ (i : Instr) (s t : State) (c : Condition), s.cfg.trapEntry = .terminal → s.trapped = none → exec i s = .next t →
    t.trapped = some c →
    (c = .zee ∨ c = .zsw ∨ (c = .ussfail ∧ ∃ z q g a, i = .ussMS z q g a)) ∧
      t.ip = s.ip ∧ t.root = s.root ∧ t.cc = s.cc

/-- No instruction is without a meaning: a step never refuses. -/
def Obligations.StepNeverRefuses : Prop := ∀ (s : State) (r : Refusal), step s ≠ .refused r

/-! ## Invariants -/

/-- Every step, of the unit or of a target, keeps the canonical form of memory and of the monitor, that they hold entries only for
cells that exist (R15, R33), and that SR.C has CW bits and SR.R those of its field (R13, R14). -/
def Obligations.StepKeepsInv : Prop := ∀ s t : State, Inv s → step s = .next t → Inv t

/-- The state the model calls reset meets the invariant. -/
def Obligations.ResetHasInv : Prop := Inv State.reset

/-- The parameters of R9 are the same after every step. -/
def Obligations.StepKeepsParameters : Prop := ∀ s t : State, step s = .next t → t.cfg = s.cfg

/-! ## Cells and physical memory -/

/-- Reading m cells at a + j inside a string of n cells at a gives bits 8j+1 to 8j+8m of the string (R32). With m = 1 it says the
byte order: cell j + 1 of the string holds its bits 8j+1 to 8j+8. -/
def Obligations.CellsOfAString : Prop :=
  ∀ (mem : Memory) (a n j m i : Nat), j + m ≤ n → i < 8 * m →
    (BitVec.ofNat (8 * m) (fromCells (mem.readCells (a + j) m))).getMsbD i =
      (BitVec.ofNat (8 * n) (fromCells (mem.readCells a n))).getMsbD (8 * j + i)

/-- PhysWrite sets exactly its cells, and of the monitor exactly their clean entries, to dirty; an access that reaches a cell that
does not exist is stuck on the first such cell (R33, D10). -/
def Obligations.PhysicalAccessIsExact : Prop :=
  ∀ (s : State) (pa : Nat) (bs : List Byte), Quiet s →
    (CellsExist s.cfg pa bs.length → ∃ t, physWrite pa bs s = .ok () t ∧
      (∀ a, t.mem.read a = if h : pa ≤ a ∧ a < pa + bs.length then bs[a - pa]'(by omega) else s.mem.read a) ∧
      (∀ a, lookupKey a t.mon = if pa ≤ a ∧ a < pa + bs.length ∧ lookupKey a s.mon = some .clean then some .dirty
        else lookupKey a s.mon) ∧
      physRead pa bs.length t = .ok bs t) ∧
    (∀ k, k < bs.length → CellsExist s.cfg pa k → populated s.cfg (pa + k) = false →
      physWrite pa bs s = .stuck (.absentCell (pa + k)) (s.storeCells pa (bs.take k)) ∧
      physRead pa bs.length s = .stuck (.absentCell (pa + k)) s)

/-- A read by the unit yields what its own last write to the cells left there, if no other unit writes them meanwhile; other units
may write any other cell between any two cell accesses (R36). -/
def Obligations.UnitReadsItsOwnWrite : Prop :=
  ∀ (s t : State) (pa : Nat) (bs : List Byte),
    (∀ ws ∈ s.env, ∀ w ∈ ws, w.addr + w.cells.length ≤ pa ∨ pa + bs.length ≤ w.addr) → physWrite pa bs s = .ok () t →
    ∃ u, physRead pa bs.length t = .ok bs u

/-! ## Translation -/

/-- The kind of a table entry by its bits in the source's numbering (bit {i} is `getMsbD (i - 1)`), R43 to R46. -/
def Obligations.EntryKindsByBits : Prop :=
  ∀ (n : Nat) (e : Word), 1 ≤ n → n ≤ 6 →
    (entryKind n e = .descriptor ↔ e.getMsbD 59 = true ∧ e.getMsbD 63 = false ∧
      ∀ i, tEnd n + 1 ≤ i → i ≤ 57 → e.getMsbD (i - 1) = false) ∧
    (entryKind n e = .key ↔ e.getMsbD 59 = false ∧ e.getMsbD 63 = true) ∧
    (entryKind n e = .table ↔ 2 ≤ n ∧ ∀ i, 53 ≤ i → i ≤ 64 → e.getMsbD (i - 1) = decide (i = 57)) ∧
    (tEnd n = 64 - offBits n ∧ offBits n = 12 + 9 * (n - 1))

/-- The walk from a table of order n reads the entry that the index of that order designates, and goes by its kind: the frame access
with it, the next lower table, or ZEE (R54, R55). -/
def Obligations.WalkGoesDown : Prop :=
  ∀ (s : State) (va : Word) (kind : AccessKind) (n tb ea : Nat) (e : Word), Quiet s → n ≤ 5 →
    ea = tb + 8 * (if n + 1 = 6 then va.toNat / 2 ^ 57 else va.toNat / 2 ^ (12 + 9 * n) % 2 ^ 9) →
    CellsExist s.cfg ea 8 → e = entryAt s.mem ea →
    (entryKind (n + 1) e = .descriptor → walk va kind (n + 1) tb s = frameAccess (n + 1) e ea false va kind s) ∧
    (entryKind (n + 1) e = .key → walk va kind (n + 1) tb s = frameAccess (n + 1) e ea true va kind s) ∧
    (entryKind (n + 1) e = .table → walk va kind (n + 1) tb s = walk va kind n (e.toNat / 2 ^ 12 * 2 ^ 12) s) ∧
    (entryKind (n + 1) e = .noFormat → walk va kind (n + 1) tb s = .trap .zee s)

/-- The frame access in its order: permission, gate, S, M, sum. `ha` is the holder's address, the entry's own or the gate's (R57). -/
def Obligations.FrameAccessInOrder : Prop :=
  ∀ (s : State) (n ea : Nat) (e va : Word) (isKey : Bool) (kind : AccessKind) (ha : Nat) (h : Word), Quiet s →
    e = entryAt s.mem ea → ha = (if isKey then e.toNat / 2 ^ 5 * 2 ^ 5 else ea) → h = entryAt s.mem ha →
    CellsExist s.cfg ha 8 →
    (permits kind e = false → frameAccess n e ea isKey va kind s = .trap .zee s) ∧
    (permits kind e = true → isKey = true → s.cfg.gateFormatCheck = true → gateFormat n h = false →
      frameAccess n e ea isKey va kind s = .trap .zee s) ∧
    (permits kind e = true → (isKey = true → s.cfg.gateFormatCheck = true → gateFormat n h = true) →
      h.getMsbD 58 = false →
      frameAccess n e ea isKey va kind s = .ok ⟨framePa n h va, n, ha⟩
        (if kind = .write then s.storeCells ha (toCells 8 (h ||| 0x40#64).toNat) else s))

/-- ZSW: where the access is allowed, and the gate, if there is one, has its format, it happens exactly if the S-bit {59} of the
holder is 1; an access that is not allowed raises ZEE even when the frame is swapped. -/
def Obligations.SwappedRaisesZsw : Prop :=
  ∀ (s : State) (n ea : Nat) (e va : Word) (isKey : Bool) (kind : AccessKind) (ha : Nat) (h : Word), Quiet s →
    e = entryAt s.mem ea → ha = (if isKey then e.toNat / 2 ^ 5 * 2 ^ 5 else ea) → h = entryAt s.mem ha →
    CellsExist s.cfg ha 8 →
    (permits kind e = true → (isKey = true → s.cfg.gateFormatCheck = true → gateFormat n h = true) →
      (frameAccess n e ea isKey va kind s = .trap .zsw s ↔ h.getMsbD 58 = true)) ∧
    (permits kind e = false → h.getMsbD 58 = true → frameAccess n e ea isKey va kind s = .trap .zee s)

/-- Which entry allows which access, by the bits W {61}, R {62}, X {63} (R59, by the four disjoint kinds of access of D6). -/
def Obligations.PermissionByBits : Prop :=
  ∀ e : Word,
    permits .write e = e.getMsbD 60 ∧ permits .data e = e.getMsbD 61 ∧ permits .instr e = e.getMsbD 62 ∧
    permits .srload e = (!e.getMsbD 60 && !e.getMsbD 61 && !e.getMsbD 62)

/-- The physical address is the frame base of the holder followed by the offset of the virtual address, T ++ O (R57 step 5). The
address of the root table is the pointer in SR.R followed by zeros, whatever width its field has (R48, D3, D14). -/
def Obligations.PhysicalAddressByBits : Prop :=
  (∀ (n : Nat) (h va : Word), 1 ≤ n → n ≤ 6 →
    framePa n h va < 2 ^ 64 ∧
    ∀ i, i < 64 → (BitVec.ofNat 64 (framePa n h va)).getMsbD i = if i < tEnd n then h.getMsbD i else va.getMsbD i) ∧
  (∀ (s : State) (k : Nat), k = s.cfg.srLayout.rootBits.val →
    rootAddr s < 2 ^ 64 ∧
    (∀ i, i < 64 → (BitVec.ofNat 64 (rootAddr s)).getMsbD i = (decide (i < k) && (BitVec.ofNat k s.root).getMsbD i)) ∧
    (k = 54 → s.root < 2 ^ 54 → rootAddr s = s.root * 2 ^ 10))

/-- What a translation changes, without other units: one that raises a condition, or is for a read, nothing; one for a write sets
bit {58}, M, of the holder, keeps its other bits, writes it also when it was set, and changes no other cell (R57 step 4, R56). -/
def Obligations.TranslatedWriteSetsModified : Prop :=
  ∀ (s t : State) (va : Word) (kind : AccessKind) (n : Nat) (m : Mapped) (c : Condition), Quiet s →
    (unitTranslate va kind n s = .trap c t → t = s ∧ (c = .zee ∨ c = .zsw)) ∧
    (unitTranslate va kind n s = .ok m t → kind ≠ .write → t = s) ∧
    (unitTranslate va kind n s = .ok m t → kind = .write →
      (∀ i, i < 64 → (entryAt t.mem m.holder).getMsbD i = (decide (i = 57) || (entryAt s.mem m.holder).getMsbD i)) ∧
      (∀ a, a < m.holder ∨ m.holder + 8 ≤ a → t.mem.read a = s.mem.read a ∧ lookupKey a t.mon = lookupKey a s.mon) ∧
      (∀ a, m.holder ≤ a → a < m.holder + 8 → lookupKey a t.mon ≠ some .clean) ∧
      t.regs = s.regs ∧ t.root = s.root ∧ t.cc = s.cc ∧ t.ip = s.ip)

/-- CROSS_FRAME, after every other check: literal, the translation stands; fault, an access of n cells with offset + n beyond the
frame size is stuck (R38, D8). -/
def Obligations.FrameCrossing : Prop :=
  ∀ (s t : State) (root : Nat) (va : Word) (kind : AccessKind) (n : Nat) (m : Mapped), walk va kind 6 root s = .ok m t →
    (t.cfg.crossFrame = .literal → Machine.translate root va kind n s = .ok m t) ∧
    (t.cfg.crossFrame = .fault → va.toNat % 2 ^ offBits m.order + n ≤ 2 ^ offBits m.order →
      Machine.translate root va kind n s = .ok m t) ∧
    (t.cfg.crossFrame = .fault → 2 ^ offBits m.order < va.toNat % 2 ^ offBits m.order + n →
      Machine.translate root va kind n s = .stuck (.crossFrame va) t)

/-! ## Operand forms and functions -/

/-- Field G under the meaning the spec gives it, and the widening and narrowing it selects (R77, D18); constants of any width keep
their unsigned or signed number when they are extended (R78). -/
def Obligations.FieldG : Prop :=
  (∀ (s : State) (g : BitVec 3), s.cfg.gFormats = Config.standardFormats →
    gSigned s g = g.getMsbD 0 ∧ gCells s g = 2 ^ (g.toNat % 4)) ∧
  (∀ bs : List Byte, (widen false bs).toNat = fromCells bs % 2 ^ 64 ∧
    (bs.length ≤ 8 → (widen false bs).toNat = fromCells bs ∧
      (widen true bs).toInt = (BitVec.ofNat (8 * bs.length) (fromCells bs)).toInt)) ∧
  (∀ (n : Nat) (v : Word), (narrow n v).length = n ∧ fromCells (narrow n v) = v.toNat % 2 ^ (8 * n)) ∧
  (∀ c : Const, c.width ≤ 64 → (extend .zero c).toNat = c.bits.toNat ∧ (extend .sign c).toInt = c.bits.toInt)

/-- The numbers that strings express: Z_U and Z_Z are the unsigned and the two's complement value, scaled by 2^M (R17); the
floating point number has the significand u(B) / 2^(|B|+1), below one half (R19). -/
def Obligations.NumbersOfStrings : Prop :=
  (∀ (w : Nat) (s : BitVec w) (m : Int), zU s m = (2 : ℚ) ^ m * (s.toNat : ℚ) ∧ zZ s m = (2 : ℚ) ^ m * (s.toInt : ℚ)) ∧
  (∀ (m b : Nat) (v : Bool) (e : BitVec m) (f : BitVec b),
    xValue v e f = (if v then -1 else 1) * (2 : ℚ) ^ ((e.toNat : Int) - 2 ^ (m - 1)) * ((f.toNat : ℚ) / 2 ^ (b + 1)) ∧
    (f.toNat : ℚ) / 2 ^ (b + 1) < 1 / 2)

/-- The shifts and the rotation, bit by bit in the source's numbering, for every width and every count (R121 to R124, R129). -/
def Obligations.ShiftsByBits : Prop :=
  ∀ (w : Nat) (t : BitVec w) (s : Word) (i : Nat), i < w →
    (fLsh w t s).getMsbD i = (decide (i + s.toNat < w) && t.getMsbD (i + s.toNat)) ∧
    (fRns w t s).getMsbD i = (decide (s.toNat ≤ i) && t.getMsbD (i - s.toNat)) ∧
    (fRfs w t s).getMsbD i = (if s.toNat ≤ i then t.getMsbD (i - s.toNat) else t.getMsbD 0) ∧
    (fThr w t s).getMsbD i = t.getMsbD ((i + w - s.toNat % w) % w)

/-- AND, OR and NOT on matching bits, in the source's numbering: bit i of the w-bit target matches bit 64 - w + i of the source;
SSW adds up to 0 with the rightmost w bits of the source (R125 to R128). -/
def Obligations.LogicByBits : Prop :=
  ∀ (w : Nat) (t : BitVec w) (s : Word), w ≤ 64 →
    (∀ i, i < w →
      (fAnd w t s).getMsbD i = (t.getMsbD i && s.getMsbD (64 - w + i)) ∧
      (fOr w t s).getMsbD i = (t.getMsbD i || s.getMsbD (64 - w + i)) ∧
      (fNot w t s).getMsbD i = !s.getMsbD (64 - w + i)) ∧
    fSsw w t s + s.setWidth w = 0#w

/-- The default quotient: of the unsigned numbers, or of the signed ones rounded toward zero, with the one overflow wrapping to the
pattern of -2^63 (R145 (d)). -/
def Obligations.QuotientTowardZero : Prop :=
  ∀ a b : Word, b ≠ 0#64 →
    (quotient false a b).toNat = a.toNat / b.toNat ∧
    ((a.toInt ≠ -2 ^ 63 ∨ b.toInt ≠ -1) →
      (quotient true a b).toInt * b.toInt + a.toInt.tmod b.toInt = a.toInt) ∧
    ((a.toInt = -2 ^ 63 ∧ b.toInt = -1) → quotient true a b = a)

/-! ## Control instructions -/

/-- SCI in its three formats: IP becomes the sum of IP and the source, modulo 2^64, and the target IP before; a condition of the
memory read is taken whether or not the instruction condition is fulfilled; an odd source changes IP.S. Under RP-1 the opcode
bytes of the three formats are 1100, 0000 and 0100 followed by the condition. That the read comes first is D24, the bit of cond D13. -/
def Obligations.SkipAddsToIp : Prop :=
  ∀ (cond : List Bool) (c : BitVec 4) (r q : Reg) (w a : Const) (s : State),
    ControlFrom (.sciK cond r w) cond r (extend s.cfg.wExtControl w) (s.ip + extend s.cfg.wExtControl w) s ∧
    ControlFrom (.sciRR cond r q) cond r (s.getReg q) (s.ip + s.getReg q) s ∧
    (∀ pa, Readable s (s.getReg q + dispOf s a) .data 8 pa →
      ControlFrom (.sciBA cond r q a) cond r (entryAt s.mem pa) (s.ip + entryAt s.mem pa) s) ∧
    (∀ c t, memRead (s.getReg q + dispOf s a) 8 .data s = .trap c t →
      (c = .zee ∨ c = .zsw) ∧ exec (.sciBA cond r q a) s = .next (takeTrap c t)) ∧
    (∀ src : Word, (s.setIp (s.ip + src)).stopped = (s.stopped ^^ src.getLsbD 0)) ∧
    (encode (.sciK (condBits c) r w)).head? = some (0b1100#4 ++ c) ∧ (encode (.sciBA (condBits c) r q a)).head? = some (0b0000#4 ++ c) ∧
    (encode (.sciRR (condBits c) r q)).head? = some (0b0100#4 ++ c)

/-- JMP in its three formats: IP becomes the source, all 64 bits, and the target IP before; a condition of the memory read is taken
whether or not the instruction condition is fulfilled; a source with bit {64} = 1 stops the unit. Under RP-1 the opcode bytes of the
three formats are 1101, 0001 and 0101 followed by the condition. That the read comes first is D24, the bit of cond D13. -/
def Obligations.JumpSetsIp : Prop :=
  ∀ (cond : List Bool) (c : BitVec 4) (r q : Reg) (w a : Const) (s : State),
    ControlFrom (.jmpK cond r w) cond r (extend s.cfg.wExtControl w) (extend s.cfg.wExtControl w) s ∧
    ControlFrom (.jmpRR cond r q) cond r (s.getReg q) (s.getReg q) s ∧
    (∀ pa, Readable s (s.getReg q + dispOf s a) .data 8 pa →
      ControlFrom (.jmpBA cond r q a) cond r (entryAt s.mem pa) (entryAt s.mem pa) s) ∧
    (∀ c t, memRead (s.getReg q + dispOf s a) 8 .data s = .trap c t →
      (c = .zee ∨ c = .zsw) ∧ exec (.jmpBA cond r q a) s = .next (takeTrap c t)) ∧
    (∀ src : Word, (s.setIp src).stopped = src.getMsbD 63) ∧
    (encode (.jmpK (condBits c) r w)).head? = some (0b1101#4 ++ c) ∧ (encode (.jmpBA (condBits c) r q a)).head? = some (0b0001#4 ++ c) ∧
    (encode (.jmpRR (condBits c) r q)).head? = some (0b0101#4 ++ c)

/-! ## Move instructions -/

/-- STR, constant format: x[Z] becomes W, extended (R101; the kind of extension is D20). -/
def Obligations.MoveConstant : Prop :=
  ∀ (z : Reg) (w : Const) (s : State),
    exec (.strK z w) s = .next (ended (.strK z w) [extend s.cfg.wExtMove w] [extend s.cfg.wExtMove w]
      (s.setReg z (extend s.cfg.wExtMove w)))

/-- STR, register format: x[Z] becomes x[Q]; with Z = Q that changes nothing; under RP-1 the
opcode is 70 (D16). -/
def Obligations.MoveRegister : Prop :=
  ∀ (z q : Reg) (s : State),
    exec (.strRR z q) s = .next (ended (.strRR z q) [s.getReg q] [s.getReg q] (s.setReg z (s.getReg q))) ∧
    s.setReg z (s.getReg z) = s ∧ encode (.strRR z q) = [0x70#8, regBits z ++ regBits q]

/-- STR, load form: the datum at x[Q] + A, or at x[Q] with A added to x[Q] afterwards, goes to x[Z], widened by G (R102). -/
def Obligations.MoveLoads : Prop :=
  ∀ (z q : Reg) (ae : Bool) (g : BitVec 3) (a : Const) (s : State) (pa : Nat),
    Readable s (if ae then s.getReg q else s.getReg q + dispOf s a) .data (gCells s g) pa →
    exec (.strML z q ae g a) s = .next (ended (.strML z q ae g a) [datum s g pa] [datum s g pa]
      (withDisp (s.setReg z (datum s g pa)) q ae a))

/-- STR, store form: at x[Z] + A, or at x[Z] after A was added to it, the rightmost cells of x[Q] are stored, the M bit of the
holder set before; with Ä = 1 the register update stands also when the write raises a condition (R103). -/
def Obligations.MoveStores : Prop :=
  ∀ (z q : Reg) (ae : Bool) (g : BitVec 3) (a : Const) (s s1 : State) (va : Word), s1 = withDisp s z ae a →
    va = (if ae then s1.getReg z else s1.getReg z + dispOf s a) →
    (∀ m s', Writable s1 va (gCells s g) m s' →
      exec (.strMS z q ae g a) s = .next (ended (.strMS z q ae g a) [s1.getReg q] [s1.getReg q]
        (s'.written m.pa (narrow (gCells s g) (s1.getReg q))))) ∧
    (∀ c t, unitTranslate va .write (gCells s g) s1 = .trap c t →
      exec (.strMS z q ae g a) s = .next (takeTrap c t) ∧ t.regs = s1.regs)

/-- USS, first format: the datum goes to x[Z], widened by G, and its cells are clean in the monitor (R105). -/
def Obligations.AtomicLoadWatches : Prop :=
  ∀ (z q : Reg) (g : BitVec 3) (a : Const) (s : State) (pa : Nat),
    Readable s (s.getReg q + dispOf s a) .data (gCells s g) pa →
    exec (.ussML z q g a) s = .next (ended (.ussML z q g a) [datum s g pa] [datum s g pa]
      ((s.setReg z (datum s g pa)).setMon (s.mon.clean pa (gCells s g)))) ∧
    ∀ c, lookupKey c (s.mon.clean pa (gCells s g)) =
      if pa ≤ c ∧ c < pa + gCells s g then some .clean else lookupKey c s.mon

/-- USS, second format: after the translation, which sets M, the target is stored if all its cells are clean in the monitor, and its
cells are clean afterwards; if one is not, USSFAIL is raised and nothing is stored (R106, R166; D27 for cells never watched). What
other units write before it, they write before the check: `u` (R107; log 26). -/
def Obligations.AtomicStoreChecks : Prop :=
  ∀ (z q : Reg) (g : BitVec 3) (a : Const) (s s' u v : State) (m : Mapped),
    unitTranslate (s.getReg z + dispOf s a) .write (gCells s g) s = .ok m s' → u = s'.envTick →
    ((∃ c, m.pa ≤ c ∧ c < m.pa + gCells s g ∧ lookupKey c u.mon ≠ some .clean) →
      exec (.ussMS z q g a) s = .next (takeTrap .ussfail u)) ∧
    (CellsExist s.cfg m.pa (gCells s g) →
      (∀ c, m.pa ≤ c → c < m.pa + gCells s g → lookupKey c u.mon = some .clean) →
      v = u.written m.pa (narrow (gCells s g) (s.getReg q)) →
      exec (.ussMS z q g a) s = .next (ended (.ussMS z q g a) [s.getReg q] [s.getReg q]
        (v.setMon (v.mon.clean m.pa (gCells s g)))))

/-- BRS, both formats: the old SR is stored at x[R], then SR is replaced by the image read, with the old root table, at the address
formed from x[Q] (R108 to R110). -/
def Obligations.ContextSwitchReplacesSr : Prop :=
  ∀ (i : Instr) (wa ra : Word) (s s' t : State) (m : Mapped) (pa : Nat), BrsForm i wa ra s →
    Writable s wa s.cfg.srLayout.cells m s' →
    t = s'.written m.pa (savedSr i s) → t.root = s.root ∧
    (Readable t ra .srload s.cfg.srLayout.cells pa →
      exec i s = .next (t.loadSr (fromCells (t.mem.readCells pa s.cfg.srLayout.cells))))

/-- BRS: when the read of the new SR raises a condition, the old SR has been stored, and SR is not replaced (R110, R168, D34). -/
def Obligations.ContextSwitchKeepsItsSave : Prop :=
  ∀ (i : Instr) (wa ra : Word) (s s' t u : State) (m : Mapped) (c : Condition), BrsForm i wa ra s →
    Writable s wa s.cfg.srLayout.cells m s' →
    t = s'.written m.pa (savedSr i s) →
    memRead ra s.cfg.srLayout.cells .srload t = .trap c u →
    exec i s = .next (takeTrap c u) ∧ u = t ∧ u.mem.readCells m.pa s.cfg.srLayout.cells = savedSr i s ∧
      u.root = s.root ∧ u.cc = s.cc ∧ u.ip = s.ip

/-- The SR image under the layout and the CW of the spec: R ++ 0^8 ++ C ++ IP, with the advanced IP; loading an image takes these
fields and ignores bits 55 to 62 (R13, D14). -/
def Obligations.SrImageLayout : Prop :=
  (∀ (i : Instr) (s : State), s.cfg.srLayout = Config.standardSr → s.cfg.cw = 2 → s.cfg.ipBase = .next →
    (savedSr i s).length = 16 ∧
    BitVec.ofNat 128 (fromCells (savedSr i s)) = BitVec.ofNat 54 s.root ++ 0#8 ++ BitVec.ofNat 2 s.cc ++ s.ip) ∧
  (∀ (s : State) (r : BitVec 54) (x : BitVec 8) (c : BitVec 2) (p : Word), s.cfg.srLayout = Config.standardSr → s.cfg.cw = 2 →
    (s.loadSr (r ++ x ++ c ++ p).toNat).root = r.toNat ∧ (s.loadSr (r ++ x ++ c ++ p).toNat).cc = c.toNat ∧
    (s.loadSr (r ++ x ++ c ++ p).toNat).ip = p)

/-- UDB: the register pair is stored, 16 cells, and at the gate of a target the event with that entry is recorded, after the earlier
ones; elsewhere no event is (R111, R172, R173). -/
def Obligations.InterruptionIsRecorded : Prop :=
  ∀ (z q : Reg) (a : Const) (s s' t : State) (m : Mapped), Writable s (s.getReg z + dispOf s a) 16 m s' →
    t = s'.storeCells m.pa (entryCells s q) →
    BitVec.ofNat 128 (fromCells (entryCells s q)) = s.getReg q ++ s.getReg (q + 1) ∧
    (∀ k, lookupKey m.pa s.cfg.gates = some k →
      exec (.udb z q a) s = .next (ended (.udb z q a) [s.getReg q, s.getReg (q + 1)] [s.getReg q, s.getReg (q + 1)]
        { t with irqs := s.irqs ++ [⟨k, s.getReg q ++ s.getReg (q + 1)⟩] })) ∧
    (lookupKey m.pa s.cfg.gates = none →
      exec (.udb z q a) s = .next (ended (.udb z q a) [s.getReg q, s.getReg (q + 1)] [s.getReg q, s.getReg (q + 1)] t))

/-! ## Bitwise and arithmetic instructions -/

/-- The constant and register formats of the eight bitwise instructions: x[Z] becomes f(x[Z], source, 64) (R120 to R129). -/
def Obligations.BitwiseOnRegisters : Prop :=
  ∀ row ∈ bitwiseRows, ∀ (z q : Reg) (w : Const) (s : State),
    SetsRegister (row.forms.k z w) z (extend (row.wExt s) w) (row.f 64 (s.getReg z) (extend (row.wExt s) w)) s ∧
    SetsRegister (row.forms.rr z q) z (s.getReg q) (row.f 64 (s.getReg z) (s.getReg q)) s

/-- The load forms of the eight bitwise instructions (R120 to R129). -/
def Obligations.BitwiseLoads : Prop :=
  ∀ row ∈ bitwiseRows, ∀ (z q : Reg) (ae : Bool) (g : BitVec 3) (a : Const) (s : State) (pa : Nat),
    Readable s (effAddr s q ae a) .data (gCells s g) pa →
    LoadsInto (row.forms.ml z q ae g a) z q ae a (datum s g pa) (row.f 64 (s.getReg z) (datum s g pa)) s

/-- The store forms of the eight bitwise instructions: f works at the width of the string in memory (D23); NOT and SSW do not read
it (R120 to R129). Over strings of more than 64 bits, which the spec's G has not, AND, OR, NOT and SSW take the source extended with
zeros (the model's choice, log 19). -/
def Obligations.BitwiseStores : Prop :=
  ∀ row ∈ bitwiseRows, ∀ (z q : Reg) (ae : Bool) (g : BitVec 3) (a : Const) (s s1 s' : State) (pa : Nat) (m : Mapped)
    (t v : BitVec (8 * gCells s g)), s1 = withDisp s z ae a →
    (row.usesT = true → Readable s1 (effAddr s1 z ae a) .data (gCells s g) pa) →
    Writable s1 (effAddr s1 z ae a) (gCells s g) m s' →
    t = (if row.usesT then BitVec.ofNat _ (fromCells (s.mem.readCells pa (gCells s g))) else 0) →
    v = row.f _ t (s1.getReg q) →
    exec (row.forms.ms z q ae g a) s = .next (ended (row.forms.ms z q ae g a) [t.setWidth 64, s1.getReg q] [v.setWidth 64]
      (s'.written m.pa (toCells (gCells s g) v.toNat)))

/-- GIV, all four formats: the source is added to the target, modulo 2^64 (D12), in a store form on 64 bits (D23); the constant is
sign-extended; under RP-1 the opcodes are E8, 28, A8 and 68 (R141). -/
def Obligations.GivAdds : Prop :=
  ArithCompletes giv (fun _ _ t s => t + s) (fun _ _ _ => True) ∧ giv.opcodes 0xE8#8 0x28#8 0xA8#8 0x68#8

/-- TAC, all four formats: the source is subtracted from the target, modulo 2^64 (D12), in a store form on 64 bits (D23); the constant
is sign-extended; under RP-1 the opcodes are E9, 29, A9 and 69 (R142). -/
def Obligations.TacSubtracts : Prop :=
  ArithCompletes tac (fun _ _ t s => t - s) (fun _ _ _ => True) ∧ tac.opcodes 0xE9#8 0x29#8 0xA9#8 0x69#8

/-- FLD, all four formats: the target becomes (D22) the low 64 bits of the product (D12), the same for the signed and the unsigned
reading, in a store form on 64 bits (D23); the constant is sign-extended; under RP-1 the opcodes are EA, 2A, AA and 6A (R143). -/
def Obligations.FldMultiplies : Prop :=
  ArithCompletes fld (fun _ _ t s => BitVec.ofNat 64 (t.toNat * s.toNat)) (fun _ _ _ => True) ∧
    (∀ t s : Word, BitVec.ofNat 64 (t.toNat * s.toNat) = BitVec.ofInt 64 (t.toInt * s.toInt)) ∧
    fld.opcodes 0xEA#8 0x2A#8 0xAA#8 0x6A#8

/-- CUT, all four formats, with a divisor that is not 0: the target becomes DIV of the operands in the order that CUT_ORDER says,
signed in the constant and register formats and as G says in the memory formats (R144, R145 (d), D22). -/
def Obligations.CutDivides : Prop :=
  ArithCompletes cut (fun s signed t src => divOf s.cfg signed (cutOperands s.cfg t src).1 (cutOperands s.cfg t src).2)
    (fun s t src => (cutOperands s.cfg t src).2 ≠ 0#64)

/-- CUT, all four formats, with the divisor 0: the unit is stuck with DivideUndefined (R145 (e)). -/
def Obligations.CutByZeroSticks : Prop :=
  ∀ (z q : Reg) (ae : Bool) (g : BitVec 3) (a w : Const) (s : State),
    ((cutOperands s.cfg (s.getReg z) (w.bits.signExtend 64)).2 = 0#64 → exec (.cutK z w) s = .fault .divideUndefined) ∧
    ((cutOperands s.cfg (s.getReg z) (s.getReg q)).2 = 0#64 → exec (.cutRR z q) s = .fault .divideUndefined) ∧
    (∀ pa, Readable s (effAddr s q ae a) .data (gCells s g) pa →
      (cutOperands s.cfg (s.getReg z) (datum s g pa)).2 = 0#64 → exec (.cutML z q ae g a) s = .fault .divideUndefined) ∧
    (∀ pa s1, s1 = withDisp s z ae a → Readable s1 (effAddr s1 z ae a) .data (gCells s g) pa →
      (cutOperands s.cfg (datum s g pa) (s1.getReg q)).2 = 0#64 → exec (.cutMS z q ae g a) s = .fault .divideUndefined)

/-! ## Frames -/

/-- What every instruction leaves unchanged in the unit, whether it completes or raises a condition, then up to the condition, and
whatever other units do: every data register but its target and the address register that Ä = 1 updates; SR.R but by BRS; SR.C but
by BRS, under the default of CC_UPDATE; IP but by BRS and the control instructions, under IP_BASE = next (R11, R14, R24, R25). -/
def Obligations.UnitFrame : Prop :=
  ∀ (i : Instr) (s t : State), exec i s = .next t → ∃ u, EndsIn u t ∧
    (∀ r, r ∉ destRegs i → u.getReg r = s.getReg r) ∧
    (isBrs i = false → u.root = s.root) ∧
    (isBrs i = false → s.cfg.ccUpdate = .never → u.cc = s.cc) ∧
    (isBrs i = false → isControl i = false → s.cfg.ipBase = .next → u.ip = s.ip) ∧
    u.trapped = s.trapped ∧ s.irqs <+: u.irqs ∧ u.served = s.served ∧ u.turns = s.turns ∧ u.cfg = s.cfg

/-- A form that stores nothing leaves every cell of memory as it was, without other units, and the monitor but for the first format of
USS, and records no interruption; where it raises a condition, up to it. -/
def Obligations.ReadingFormsLeaveMemory : Prop :=
  ∀ (i : Instr) (s t : State), storesAt i s = none → Quiet s → exec i s = .next t → ∃ u, EndsIn u t ∧
    (∀ a, u.mem.read a = s.mem.read a) ∧ (isUss i = false → u.mon = s.mon) ∧ u.irqs = s.irqs

/-- A form that stores leaves every cell but those of its target and the 8 of the holder of its mapping (which keep all but the M
bit), without other units, and none is changed if the translation of its address raises a condition; where a condition is raised, up
to it. Only a form that stores 16 cells, at a gate, records an interruption (R33, R57, R172). -/
def Obligations.StoreFrame : Prop :=
  ∀ (i : Instr) (s s1 t : State) (va : Word) (n : Nat), storesAt i s = some (s1, va, n) → Quiet s → exec i s = .next t →
    ∃ u, EndsIn u t ∧
    (∀ m s', unitTranslate va .write n s1 = .ok m s' →
      (∀ a, a < m.pa ∨ m.pa + n ≤ a → a < m.holder ∨ m.holder + 8 ≤ a → u.mem.read a = s.mem.read a) ∧
      (n ≠ 16 ∨ lookupKey m.pa s.cfg.gates = none → u.irqs = s.irqs)) ∧
    (∀ c v, unitTranslate va .write n s1 = .trap c v → (∀ a, u.mem.read a = s.mem.read a) ∧ u.irqs = s.irqs)

/-- Protection: a program whose frame table maps no virtual address for writing changes no cell of memory, does not leave its root
table, and signals no target, however long it runs (R175). -/
def Obligations.ConfinedProgram : Prop :=
  ∀ (k : Nat) (s t : State), Confined s → Host.Core.run core k s = .next t →
    t.mem = s.mem ∧ t.root = s.root ∧ t.irqs = s.irqs

/-- The monitor notices every write, also one that leaves the contents as they were. Over an instruction that is no USS, with other
units writing at any time, a dirty cell stays dirty, and a cell that is clean afterwards was clean before and holds the same. After a
write by the unit, by other units, and after a store form, no cell written is clean; one that was clean is dirty (R16, R33, R106,
R107). -/
def Obligations.WritesAreNoticed : Prop :=
  ∀ (i : Instr) (s t : State) (a : Nat), isUss i = false →
    (exec i s = .next t →
      (lookupKey a s.mon = some .dirty → lookupKey a t.mon = some .dirty) ∧
      (lookupKey a t.mon = some .clean → lookupKey a s.mon = some .clean ∧ t.mem.read a = s.mem.read a)) ∧
    (∀ pa bs, physWrite pa bs s = .ok () t → pa ≤ a → a < pa + bs.length →
      lookupKey a t.mon ≠ some .clean ∧ (lookupKey a s.mon = some .clean → lookupKey a t.mon = some .dirty)) ∧
    (∀ ws rest w, s.env = ws :: rest → w ∈ ws → w.addr ≤ a → a < w.addr + w.cells.length → populated s.cfg a = true →
      lookupKey a s.envTick.mon ≠ some .clean ∧
      (lookupKey a s.mon = some .clean → lookupKey a s.envTick.mon = some .dirty)) ∧
    (∀ s1 s' va n m, storesAt i s = some (s1, va, n) → Quiet s → unitTranslate va .write n s1 = .ok m s' →
      s.cfg.trapEntry = .terminal → s.trapped = none → exec i s = .next t → t.trapped = none →
      m.pa ≤ a → a < m.pa + n →
      lookupKey a t.mon ≠ some .clean ∧ (lookupKey a s.mon = some .clean → lookupKey a t.mon = some .dirty))

/-! ## Interruptions, targets, traps, runs -/

/-- A target's turn leaves the unit alone. For its interruption it translates the data address of the entry with the entry's root
table, records what that gave, the physical address, its condition, or that the target is stuck, and, without other units, changes
memory only where processing the data writes and in the holder of its mapping. A target that is stuck makes no turn (R171, R172,
R196; the layout of the entry is D15, a stuck target log 29). -/
def Obligations.TargetTurn : Prop :=
  ∀ (s t s1 : State) (m : TargetMove) (ts : List Turn), s.turns = .target m :: ts → s1 = { s with turns := ts } →
    step s = .next t →
    (t.regs = s.regs ∧ t.root = s.root ∧ t.cc = s.cc ∧ t.ip = s.ip ∧ t.trapped = s.trapped ∧ s.irqs <+: t.irqs ∧
      t.turns = ts ∧ t.cfg = s.cfg) ∧
    (s.irqs[m.event]? = none → t = s1) ∧
    (∀ e, s.irqs[m.event]? = some e → targetStuck s e.target = true → t = s1) ∧
    (∀ e, s.irqs[m.event]? = some e → targetStuck s e.target = false →
      (∀ k u, targetTranslate e.entry m.write s1 = .ok k u →
        t.served = s.served ++ [⟨m.event, .address k.pa⟩] ∧
        (Quiet s → ∀ a, Outside a m.stores → (m.write = true → a < k.holder ∨ k.holder + 8 ≤ a) →
          t.mem.read a = s.mem.read a)) ∧
      (∀ c u, targetTranslate e.entry m.write s1 = .trap c u →
        t.served = s.served ++ [⟨m.event, .condition c⟩] ∧ (Quiet s → t.mem = s.mem ∧ t.irqs = s.irqs)) ∧
      (∀ r u, targetTranslate e.entry m.write s1 = .stuck r u →
        t.served = s.served ++ [⟨m.event, .stuck r⟩] ∧ t.mem = u.mem ∧ t.irqs = u.irqs)) ∧
    (∀ (r : BitVec 54) (x : BitVec 10) (b : Word) (w : Bool) (u : State), u.cfg.irqLayout = Config.standardIrq →
      targetTranslate (r ++ x ++ b) w u =
        Machine.translate (r.toNat * 2 ^ 10) b (if w then .write else .data) 1 u)

/-- The trap where TRAP_ENTRY runs a program: the unit goes on with the register file that the entry gives, from the condition and the
unit's whole state with memory; the parameters, the schedule, what other units will write, and what is recorded of targets stay, and
so does the outcome; memory and the monitor change only at what the entry writes, and the trap clears no entry of the monitor (R164,
R107; log 25). -/
def Obligations.TrapProgramStarts : Prop :=
  ∀ (c : Condition) (s t : State) (r : TrapStart), s.cfg.trapEntry = .program →
    r = Config.trapProgram ⟨c, ⟨s.regs, s.root, s.cc, s.ip⟩, s.mon, s.mem⟩ → t = takeTrap c s →
    t.regs = r.file.regs ∧ t.root = r.file.root % 2 ^ s.cfg.srLayout.rootBits.val ∧ t.cc = r.file.cc % 2 ^ s.cfg.cw ∧
    t.ip = r.file.ip ∧
    t.cfg = s.cfg ∧ t.env = s.env ∧ t.turns = s.turns ∧ t.served = s.served ∧ t.trapped = s.trapped ∧ s.irqs <+: t.irqs ∧
    (∀ a, Outside a r.stores → t.mem.read a = s.mem.read a ∧ lookupKey a t.mon = lookupKey a s.mon) ∧
    (∀ a, lookupKey a t.mon = lookupKey a s.mon ∨ (lookupKey a s.mon = some .clean ∧ lookupKey a t.mon = some .dirty))

/-- The guarantee of the USS pair: if a unit runs the first format on a location, then makes any number of steps without a USS, then
runs the second format on the same location and that does not trap, then, whatever the unit, other units and targets did meanwhile,
the location still holds, right before the store, the datum that the load gave; and the store leaves its source there (R107). -/
def Obligations.AtomicUpdate : Prop :=
  ∀ (k : Nat) (z q z' q' : Reg) (g g' : BitVec 3) (a a' : Const) (s s' t u v w w' x : State) (m m' : Mapped),
    unitTranslate (s.getReg q + dispOf s a) .data (gCells s g) s = .ok m s' → exec (.ussML z q g a) s = .next t →
    StepsWithoutUss k t u →
    fetchInstr (afterTurn u) = .ok (.ussMS z' q' g' a') v → w = beforeExec (.ussMS z' q' g' a') v →
    unitTranslate (w.getReg z' + dispOf w a') .write (gCells w g') w = .ok m' w' →
    m'.pa = m.pa → gCells w g' = gCells s g →
    exec (.ussMS z' q' g' a') w = .next x → x ≠ takeTrap .ussfail w'.envTick →
    t.getReg z = widen (gSigned s g) (w'.envTick.mem.readCells m.pa (gCells s g)) ∧
    x.mem.readCells m.pa (gCells s g) = narrow (gCells s g) (w.getReg q')

/-- A source is any unit: what other units write before a cell access, and what a target writes when it processes data, is an
interruption where it is a string of 16 cells from a gate on, recorded in order after the earlier ones; nothing else of it is (R170,
R172, R173; which writes count is log 29). -/
def Obligations.OtherUnitsInterrupt : Prop :=
  (∀ s : State, s.envTick.irqs = s.irqs ++ (s.env.headD []).filterMap (eventOf s.cfg)) ∧
  (∀ (s s1 t u : State) (m : TargetMove) (ts : List Turn) (e : Interruption) (k : Mapped), Quiet s →
    s.turns = .target m :: ts → s1 = { s with turns := ts } → s.irqs[m.event]? = some e → targetStuck s e.target = false →
    targetTranslate e.entry m.write s1 = .ok k u → step s = .next t →
    t.irqs = s.irqs ++ m.stores.filterMap (eventOf s.cfg))

/-- How a run ends: Stopped and Trapped with the state the run reached; Stuck with the state that has no next state, and the reason;
out of steps only if the unit is still Running; and in no other way (R195). -/
def Obligations.RunOutcomes : Prop :=
  ∀ (k : Nat) (s : State),
    match runEnd k s with
    | .stopped st => (∃ j ≤ k, Host.Core.run core j s = .next st) ∧ st.stopped = true ∧ st.trapped = none
    | .trapped c st => (∃ j ≤ k, Host.Core.run core j s = .next st) ∧ st.trapped = some c
    | .stuck r st => (∃ j < k, Host.Core.run core j s = .next st) ∧ st.stopped = false ∧ st.trapped = none ∧ step st = .fault r
    | .outOfSteps st => Host.Core.run core k s = .next st ∧ st.stopped = false ∧ st.trapped = none
    | .rejected _ => False
end

