-- ==== Sys2Proof/Laws/Decode.lean ====
section
/-! SUPPORT. The fields of a format, read back from its cells (R72 to R76), and put together again. -/

namespace Sys2Proof

/-! The bits of strings put together. -/

theorem bit_nibbles (z q : BitVec 4) (i : Nat) :
    BitVec.getLsbD (w := 8) (z ++ q) i = if i < 4 then q.getLsbD i else z.getLsbD (i - 4) :=
  BitVec.getLsbD_append

theorem bit_const16 (b3 b4 : Byte) (i : Nat) :
    (const16 b3 b4).getLsbD i = if i < 8 then b4.getLsbD i else b3.getLsbD (i - 8) :=
  BitVec.getLsbD_append

theorem bit_disp12 (b3 b4 : Byte) (i : Nat) :
    (disp12 b3 b4).getLsbD i = if i < 8 then b4.getLsbD i else (loNibble b3).getLsbD (i - 8) :=
  BitVec.getLsbD_append

theorem bit_memCell (ae : Bool) (g : BitVec 3) (x : BitVec 4) (i : Nat) :
    (memCell ae g x).getLsbD i =
      if i < 4 then x.getLsbD i else if i < 7 then g.getLsbD (i - 4) else decide (i = 7) && ae := by
  have h1 : (memCell ae g x).getLsbD i =
      if i < 4 then x.getLsbD i else BitVec.getLsbD (w := 4) (BitVec.ofBool ae ++ g) (i - 4) :=
    BitVec.getLsbD_append
  have h2 : BitVec.getLsbD (w := 4) (BitVec.ofBool ae ++ g) (i - 4) =
      if i - 4 < 3 then g.getLsbD (i - 4) else (BitVec.ofBool ae).getLsbD (i - 4 - 3) :=
    BitVec.getLsbD_append
  rw [h1, h2, BitVec.getLsbD_ofBool]
  by_cases h4 : i < 4
  · simp [h4]
  · by_cases h7 : i < 7
    · have : i - 4 < 3 := by omega
      simp [h4, h7, this]
    · have h3 : ¬(i - 4 < 3) := by omega
      simp only [h4, h7, h3, if_false]
      congr 1
      exact decide_eq_decide.2 (by omega)

theorem bit_hiNibble (b : Byte) (i : Nat) : (hiNibble b).getLsbD i = (decide (i < 4) && b.getLsbD (4 + i)) := by
  simp [hiNibble]

theorem bit_loNibble (b : Byte) (i : Nat) : (loNibble b).getLsbD i = (decide (i < 4) && b.getLsbD i) := by
  simp [loNibble]

theorem bit_gField (b : Byte) (i : Nat) : (gField b).getLsbD i = (decide (i < 3) && b.getLsbD (4 + i)) := by
  simp [gField]

/-! Fields read back. -/

@[simp] theorem hiNibble_append (z q : BitVec 4) : hiNibble (z ++ q) = z := by
  apply BitVec.eq_of_getLsbD_eq
  intro i hi
  rw [bit_hiNibble, bit_nibbles, if_neg (by omega), Nat.add_sub_cancel_left, decide_eq_true hi, Bool.true_and]

@[simp] theorem loNibble_append (z q : BitVec 4) : loNibble (z ++ q) = q := by
  apply BitVec.eq_of_getLsbD_eq
  intro i hi
  rw [bit_loNibble, bit_nibbles, if_pos hi, decide_eq_true hi, Bool.true_and]

@[simp] theorem regOf_regBits (r : Reg) : regOf (regBits r) = r := rfl

@[simp] theorem regBits_regOf (n : BitVec 4) : regBits (regOf n) = n := rfl

@[simp] theorem const16_parts (w : BitVec 16) : const16 (w.extractLsb' 8 8) (w.extractLsb' 0 8) = w := by
  apply BitVec.eq_of_getLsbD_eq
  intro i hi
  rw [bit_const16]
  split
  · next h => simp [h]
  · next h =>
    have h1 : i - 8 < 8 := by omega
    have h2 : 8 + (i - 8) = i := by omega
    simp [h1, h2]

@[simp] theorem memCell_loNibble (ae : Bool) (g : BitVec 3) (x : BitVec 4) : loNibble (memCell ae g x) = x := by
  apply BitVec.eq_of_getLsbD_eq
  intro i hi
  rw [bit_loNibble, bit_memCell, if_pos hi, decide_eq_true hi, Bool.true_and]

@[simp] theorem memCell_aeBit (ae : Bool) (g : BitVec 3) (x : BitVec 4) : aeBit (memCell ae g x) = ae := by
  unfold aeBit
  rw [bit_memCell]
  rfl

@[simp] theorem memCell_gField (ae : Bool) (g : BitVec 3) (x : BitVec 4) : gField (memCell ae g x) = g := by
  apply BitVec.eq_of_getLsbD_eq
  intro i hi
  rw [bit_gField, bit_memCell, if_neg (by omega), if_pos (by omega), Nat.add_sub_cancel_left, decide_eq_true hi,
    Bool.true_and]

@[simp] theorem disp12_parts (ae : Bool) (g : BitVec 3) (a : BitVec 12) :
    disp12 (memCell ae g (a.extractLsb' 8 4)) (a.extractLsb' 0 8) = a := by
  apply BitVec.eq_of_getLsbD_eq
  intro i hi
  rw [bit_disp12, memCell_loNibble]
  split
  · next h => simp [h]
  · next h =>
    have h1 : i - 8 < 4 := by omega
    have h2 : 8 + (i - 8) = i := by omega
    simp [h1, h2]

/-! Cells put together again from their fields. -/

@[simp] theorem append_nibbles (b : Byte) : hiNibble b ++ loNibble b = b := by
  apply BitVec.eq_of_getLsbD_eq
  intro i hi
  rw [bit_nibbles, bit_loNibble, bit_hiNibble]
  split
  · next h => simp [h]
  · next h =>
    have h1 : i - 4 < 4 := by omega
    have h2 : 4 + (i - 4) = i := by omega
    simp [h1, h2]

@[simp] theorem const16_hi (b3 b4 : Byte) : (const16 b3 b4).extractLsb' 8 8 = b3 := by
  apply BitVec.eq_of_getLsbD_eq
  intro i hi
  simp [bit_const16, hi]

@[simp] theorem const16_lo (b3 b4 : Byte) : (const16 b3 b4).extractLsb' 0 8 = b4 := by
  apply BitVec.eq_of_getLsbD_eq
  intro i hi
  simp [bit_const16, hi]

@[simp] theorem disp12_lo (b3 b4 : Byte) : (disp12 b3 b4).extractLsb' 0 8 = b4 := by
  apply BitVec.eq_of_getLsbD_eq
  intro i hi
  simp [bit_disp12, hi]

@[simp] theorem disp12_hi (b3 b4 : Byte) : (disp12 b3 b4).extractLsb' 8 4 = loNibble b3 := by
  apply BitVec.eq_of_getLsbD_eq
  intro i hi
  simp [bit_disp12, hi]

@[simp] theorem memCell_parts (b : Byte) : memCell (aeBit b) (gField b) (loNibble b) = b := by
  apply BitVec.eq_of_getLsbD_eq
  intro i hi
  rw [bit_memCell, bit_loNibble, bit_gField]
  split
  · next h => simp [h]
  · split
    · next h h' =>
      have h1 : i - 4 < 3 := by omega
      have h2 : 4 + (i - 4) = i := by omega
      simp [h1, h2]
    · next h h' =>
      have : i = 7 := by omega
      subst this
      simp [aeBit]

/-! The opcode byte of a control instruction, and its condition (R79). -/

@[simp] theorem condField_condBits (n : BitVec 4) : condField (condBits n) = n := by
  revert n
  decide

theorem condBits_condField {cond : List Bool} (h : cond.length = 4) : condBits (condField cond) = cond := by
  match cond, h with
  | [a, b, c, d], _ => revert a b c d; decide

/-- The bit of the field that designates a value of C is that of the list (R90). -/
theorem condBits_getD (n : BitVec 4) (k : Nat) : (condBits n).getD k false = n.getMsbD k := by
  match k with
  | 0 | 1 | 2 | 3 => rfl
  | k + 4 => rw [BitVec.getMsbD_of_ge _ _ (by omega)]; rfl

@[simp] theorem opNumber_condOp (fk cond : BitVec 4) : opNumber (condOp fk cond) = cond := loNibble_append fk cond

@[simp] theorem opForm_condOp (fk cond : BitVec 4) : opForm (condOp fk cond) = fk.extractLsb' 2 2 := by
  apply BitVec.eq_of_getLsbD_eq
  intro i hi
  have h1 : ¬(6 + i < 4) := by omega
  have h2 : 6 + i - 4 = 2 + i := by omega
  simp [opForm, condOp, bit_nibbles, h1, h2, hi]

@[simp] theorem opGroup_condOp (fk cond : BitVec 4) : opGroup (condOp fk cond) = fk.extractLsb' 0 2 := by
  apply BitVec.eq_of_getLsbD_eq
  intro i hi
  simp [opGroup, condOp, bit_nibbles, hi]

end Sys2Proof
end

