-- ==== Sys2Proof/Laws/State.lean ====
section
/-! SUPPORT. One lemma per field per update of State, so that no proof unfolds a record update; the laws of registers. -/

namespace Sys2Proof.Machine

variable (s : State)

@[simp] theorem State.setReg_regs (r : Reg) (v : Word) : (s.setReg r v).regs = s.regs.set r v := rfl
@[simp] theorem State.setReg_root (r : Reg) (v : Word) : (s.setReg r v).root = s.root := rfl
@[simp] theorem State.setReg_cc (r : Reg) (v : Word) : (s.setReg r v).cc = s.cc := rfl
@[simp] theorem State.setReg_ip (r : Reg) (v : Word) : (s.setReg r v).ip = s.ip := rfl
@[simp] theorem State.setReg_mem (r : Reg) (v : Word) : (s.setReg r v).mem = s.mem := rfl
@[simp] theorem State.setReg_mon (r : Reg) (v : Word) : (s.setReg r v).mon = s.mon := rfl
@[simp] theorem State.setReg_trapped (r : Reg) (v : Word) : (s.setReg r v).trapped = s.trapped := rfl
@[simp] theorem State.setReg_irqs (r : Reg) (v : Word) : (s.setReg r v).irqs = s.irqs := rfl
@[simp] theorem State.setReg_served (r : Reg) (v : Word) : (s.setReg r v).served = s.served := rfl
@[simp] theorem State.setReg_env (r : Reg) (v : Word) : (s.setReg r v).env = s.env := rfl
@[simp] theorem State.setReg_turns (r : Reg) (v : Word) : (s.setReg r v).turns = s.turns := rfl
@[simp] theorem State.setReg_cfg (r : Reg) (v : Word) : (s.setReg r v).cfg = s.cfg := rfl

@[simp] theorem State.setIp_regs (v : Word) : (s.setIp v).regs = s.regs := rfl
@[simp] theorem State.setIp_root (v : Word) : (s.setIp v).root = s.root := rfl
@[simp] theorem State.setIp_cc (v : Word) : (s.setIp v).cc = s.cc := rfl
@[simp] theorem State.setIp_ip (v : Word) : (s.setIp v).ip = v := rfl
@[simp] theorem State.setIp_mem (v : Word) : (s.setIp v).mem = s.mem := rfl
@[simp] theorem State.setIp_mon (v : Word) : (s.setIp v).mon = s.mon := rfl
@[simp] theorem State.setIp_trapped (v : Word) : (s.setIp v).trapped = s.trapped := rfl
@[simp] theorem State.setIp_irqs (v : Word) : (s.setIp v).irqs = s.irqs := rfl
@[simp] theorem State.setIp_served (v : Word) : (s.setIp v).served = s.served := rfl
@[simp] theorem State.setIp_env (v : Word) : (s.setIp v).env = s.env := rfl
@[simp] theorem State.setIp_turns (v : Word) : (s.setIp v).turns = s.turns := rfl
@[simp] theorem State.setIp_cfg (v : Word) : (s.setIp v).cfg = s.cfg := rfl

@[simp] theorem State.setCc_regs (v : Nat) : (s.setCc v).regs = s.regs := rfl
@[simp] theorem State.setCc_root (v : Nat) : (s.setCc v).root = s.root := rfl
@[simp] theorem State.setCc_cc (v : Nat) : (s.setCc v).cc = v % 2 ^ s.cfg.cw := rfl
@[simp] theorem State.setCc_ip (v : Nat) : (s.setCc v).ip = s.ip := rfl
@[simp] theorem State.setCc_mem (v : Nat) : (s.setCc v).mem = s.mem := rfl
@[simp] theorem State.setCc_mon (v : Nat) : (s.setCc v).mon = s.mon := rfl
@[simp] theorem State.setCc_trapped (v : Nat) : (s.setCc v).trapped = s.trapped := rfl
@[simp] theorem State.setCc_irqs (v : Nat) : (s.setCc v).irqs = s.irqs := rfl
@[simp] theorem State.setCc_served (v : Nat) : (s.setCc v).served = s.served := rfl
@[simp] theorem State.setCc_env (v : Nat) : (s.setCc v).env = s.env := rfl
@[simp] theorem State.setCc_turns (v : Nat) : (s.setCc v).turns = s.turns := rfl
@[simp] theorem State.setCc_cfg (v : Nat) : (s.setCc v).cfg = s.cfg := rfl

@[simp] theorem State.setRoot_regs (v : Nat) : (s.setRoot v).regs = s.regs := rfl
@[simp] theorem State.setRoot_root (v : Nat) : (s.setRoot v).root = v % 2 ^ s.cfg.srLayout.rootBits.val := rfl
@[simp] theorem State.setRoot_cc (v : Nat) : (s.setRoot v).cc = s.cc := rfl
@[simp] theorem State.setRoot_ip (v : Nat) : (s.setRoot v).ip = s.ip := rfl
@[simp] theorem State.setRoot_mem (v : Nat) : (s.setRoot v).mem = s.mem := rfl
@[simp] theorem State.setRoot_mon (v : Nat) : (s.setRoot v).mon = s.mon := rfl
@[simp] theorem State.setRoot_trapped (v : Nat) : (s.setRoot v).trapped = s.trapped := rfl
@[simp] theorem State.setRoot_irqs (v : Nat) : (s.setRoot v).irqs = s.irqs := rfl
@[simp] theorem State.setRoot_served (v : Nat) : (s.setRoot v).served = s.served := rfl
@[simp] theorem State.setRoot_env (v : Nat) : (s.setRoot v).env = s.env := rfl
@[simp] theorem State.setRoot_turns (v : Nat) : (s.setRoot v).turns = s.turns := rfl
@[simp] theorem State.setRoot_cfg (v : Nat) : (s.setRoot v).cfg = s.cfg := rfl

@[simp] theorem State.setMon_regs (m : Monitor) : (s.setMon m).regs = s.regs := rfl
@[simp] theorem State.setMon_root (m : Monitor) : (s.setMon m).root = s.root := rfl
@[simp] theorem State.setMon_cc (m : Monitor) : (s.setMon m).cc = s.cc := rfl
@[simp] theorem State.setMon_ip (m : Monitor) : (s.setMon m).ip = s.ip := rfl
@[simp] theorem State.setMon_mem (m : Monitor) : (s.setMon m).mem = s.mem := rfl
@[simp] theorem State.setMon_mon (m : Monitor) : (s.setMon m).mon = m := rfl
@[simp] theorem State.setMon_trapped (m : Monitor) : (s.setMon m).trapped = s.trapped := rfl
@[simp] theorem State.setMon_irqs (m : Monitor) : (s.setMon m).irqs = s.irqs := rfl
@[simp] theorem State.setMon_served (m : Monitor) : (s.setMon m).served = s.served := rfl
@[simp] theorem State.setMon_env (m : Monitor) : (s.setMon m).env = s.env := rfl
@[simp] theorem State.setMon_turns (m : Monitor) : (s.setMon m).turns = s.turns := rfl
@[simp] theorem State.setMon_cfg (m : Monitor) : (s.setMon m).cfg = s.cfg := rfl

@[simp] theorem State.storeCell_regs (a : Nat) (b : Byte) : (s.storeCell a b).regs = s.regs := rfl
@[simp] theorem State.storeCell_root (a : Nat) (b : Byte) : (s.storeCell a b).root = s.root := rfl
@[simp] theorem State.storeCell_cc (a : Nat) (b : Byte) : (s.storeCell a b).cc = s.cc := rfl
@[simp] theorem State.storeCell_ip (a : Nat) (b : Byte) : (s.storeCell a b).ip = s.ip := rfl
@[simp] theorem State.storeCell_mem (a : Nat) (b : Byte) : (s.storeCell a b).mem = s.mem.write a b := rfl
@[simp] theorem State.storeCell_mon (a : Nat) (b : Byte) : (s.storeCell a b).mon = s.mon.dirty a := rfl
@[simp] theorem State.storeCell_trapped (a : Nat) (b : Byte) : (s.storeCell a b).trapped = s.trapped := rfl
@[simp] theorem State.storeCell_irqs (a : Nat) (b : Byte) : (s.storeCell a b).irqs = s.irqs := rfl
@[simp] theorem State.storeCell_served (a : Nat) (b : Byte) : (s.storeCell a b).served = s.served := rfl
@[simp] theorem State.storeCell_env (a : Nat) (b : Byte) : (s.storeCell a b).env = s.env := rfl
@[simp] theorem State.storeCell_turns (a : Nat) (b : Byte) : (s.storeCell a b).turns = s.turns := rfl
@[simp] theorem State.storeCell_cfg (a : Nat) (b : Byte) : (s.storeCell a b).cfg = s.cfg := rfl

@[simp] theorem State.addIrq_regs (e : Interruption) : (s.addIrq e).regs = s.regs := rfl
@[simp] theorem State.addIrq_root (e : Interruption) : (s.addIrq e).root = s.root := rfl
@[simp] theorem State.addIrq_cc (e : Interruption) : (s.addIrq e).cc = s.cc := rfl
@[simp] theorem State.addIrq_ip (e : Interruption) : (s.addIrq e).ip = s.ip := rfl
@[simp] theorem State.addIrq_mem (e : Interruption) : (s.addIrq e).mem = s.mem := rfl
@[simp] theorem State.addIrq_mon (e : Interruption) : (s.addIrq e).mon = s.mon := rfl
@[simp] theorem State.addIrq_trapped (e : Interruption) : (s.addIrq e).trapped = s.trapped := rfl
@[simp] theorem State.addIrq_irqs (e : Interruption) : (s.addIrq e).irqs = s.irqs ++ [e] := rfl
@[simp] theorem State.addIrq_served (e : Interruption) : (s.addIrq e).served = s.served := rfl
@[simp] theorem State.addIrq_env (e : Interruption) : (s.addIrq e).env = s.env := rfl
@[simp] theorem State.addIrq_turns (e : Interruption) : (s.addIrq e).turns = s.turns := rfl
@[simp] theorem State.addIrq_cfg (e : Interruption) : (s.addIrq e).cfg = s.cfg := rfl

@[simp] theorem State.addServed_regs (v : Served) : (s.addServed v).regs = s.regs := rfl
@[simp] theorem State.addServed_root (v : Served) : (s.addServed v).root = s.root := rfl
@[simp] theorem State.addServed_cc (v : Served) : (s.addServed v).cc = s.cc := rfl
@[simp] theorem State.addServed_ip (v : Served) : (s.addServed v).ip = s.ip := rfl
@[simp] theorem State.addServed_mem (v : Served) : (s.addServed v).mem = s.mem := rfl
@[simp] theorem State.addServed_mon (v : Served) : (s.addServed v).mon = s.mon := rfl
@[simp] theorem State.addServed_trapped (v : Served) : (s.addServed v).trapped = s.trapped := rfl
@[simp] theorem State.addServed_irqs (v : Served) : (s.addServed v).irqs = s.irqs := rfl
@[simp] theorem State.addServed_served (v : Served) : (s.addServed v).served = s.served ++ [v] := rfl
@[simp] theorem State.addServed_env (v : Served) : (s.addServed v).env = s.env := rfl
@[simp] theorem State.addServed_turns (v : Served) : (s.addServed v).turns = s.turns := rfl
@[simp] theorem State.addServed_cfg (v : Served) : (s.addServed v).cfg = s.cfg := rfl

@[simp] theorem State.loadSr_regs (img : Nat) : (s.loadSr img).regs = s.regs := rfl
@[simp] theorem State.loadSr_root (img : Nat) : (s.loadSr img).root =
    fieldAt img s.cfg.srLayout.rootLo s.cfg.srLayout.rootBits.val := rfl
@[simp] theorem State.loadSr_cc (img : Nat) : (s.loadSr img).cc = fieldAt img s.cfg.srLayout.ccLo s.cfg.cw := rfl
@[simp] theorem State.loadSr_ip (img : Nat) : (s.loadSr img).ip =
    BitVec.ofNat 64 (fieldAt img s.cfg.srLayout.ipLo 64) := rfl
@[simp] theorem State.loadSr_mem (img : Nat) : (s.loadSr img).mem = s.mem := rfl
@[simp] theorem State.loadSr_mon (img : Nat) : (s.loadSr img).mon = s.mon := rfl
@[simp] theorem State.loadSr_trapped (img : Nat) : (s.loadSr img).trapped = s.trapped := rfl
@[simp] theorem State.loadSr_irqs (img : Nat) : (s.loadSr img).irqs = s.irqs := rfl
@[simp] theorem State.loadSr_served (img : Nat) : (s.loadSr img).served = s.served := rfl
@[simp] theorem State.loadSr_env (img : Nat) : (s.loadSr img).env = s.env := rfl
@[simp] theorem State.loadSr_turns (img : Nat) : (s.loadSr img).turns = s.turns := rfl
@[simp] theorem State.loadSr_cfg (img : Nat) : (s.loadSr img).cfg = s.cfg := rfl

@[simp] theorem advanceIp_regs (i : Instr) : (advanceIp i s).regs = s.regs := rfl
@[simp] theorem advanceIp_root (i : Instr) : (advanceIp i s).root = s.root := rfl
@[simp] theorem advanceIp_cc (i : Instr) : (advanceIp i s).cc = s.cc := rfl
@[simp] theorem advanceIp_ip (i : Instr) : (advanceIp i s).ip = nextIp i s := rfl
@[simp] theorem advanceIp_mem (i : Instr) : (advanceIp i s).mem = s.mem := rfl
@[simp] theorem advanceIp_mon (i : Instr) : (advanceIp i s).mon = s.mon := rfl
@[simp] theorem advanceIp_trapped (i : Instr) : (advanceIp i s).trapped = s.trapped := rfl
@[simp] theorem advanceIp_irqs (i : Instr) : (advanceIp i s).irqs = s.irqs := rfl
@[simp] theorem advanceIp_served (i : Instr) : (advanceIp i s).served = s.served := rfl
@[simp] theorem advanceIp_env (i : Instr) : (advanceIp i s).env = s.env := rfl
@[simp] theorem advanceIp_turns (i : Instr) : (advanceIp i s).turns = s.turns := rfl
@[simp] theorem advanceIp_cfg (i : Instr) : (advanceIp i s).cfg = s.cfg := rfl

/-! Registers (R10, R11): a register holds what was last written to it, and no other register changes. -/

@[simp] theorem State.getReg_setReg_same (r : Reg) (v : Word) : (s.setReg r v).getReg r = v := by
  simp [State.getReg, State.setReg]

theorem State.getReg_setReg_ne {r r' : Reg} (h : r' ≠ r) (v : Word) : (s.setReg r v).getReg r' = s.getReg r' := by
  have h' : (r : Nat) ≠ r' := fun e => h (Fin.ext e.symm)
  simp [State.getReg, State.setReg, h']

theorem State.getReg_setReg (r r' : Reg) (v : Word) :
    (s.setReg r v).getReg r' = if r' = r then v else s.getReg r' := by
  split
  · next h => subst h; simp
  · next h => exact State.getReg_setReg_ne s h v

theorem State.getReg_congr {s t : State} (h : t.regs = s.regs) (r : Reg) : t.getReg r = s.getReg r := by
  simp [State.getReg, h]

@[simp] theorem State.getReg_setIp (v : Word) (r : Reg) : (s.setIp v).getReg r = s.getReg r := rfl
@[simp] theorem State.getReg_setCc (v : Nat) (r : Reg) : (s.setCc v).getReg r = s.getReg r := rfl
@[simp] theorem State.getReg_setRoot (v : Nat) (r : Reg) : (s.setRoot v).getReg r = s.getReg r := rfl
@[simp] theorem State.getReg_setMon (m : Monitor) (r : Reg) : (s.setMon m).getReg r = s.getReg r := rfl
@[simp] theorem State.getReg_storeCell (a : Nat) (b : Byte) (r : Reg) : (s.storeCell a b).getReg r = s.getReg r := rfl
@[simp] theorem State.getReg_addIrq (e : Interruption) (r : Reg) : (s.addIrq e).getReg r = s.getReg r := rfl
@[simp] theorem State.getReg_loadSr (img : Nat) (r : Reg) : (s.loadSr img).getReg r = s.getReg r := rfl
@[simp] theorem getReg_advanceIp (i : Instr) (r : Reg) : (advanceIp i s).getReg r = s.getReg r := rfl

end Sys2Proof.Machine
end

