-- ==== Sys2Proof/Laws/Memory.lean ====
section
/-! SUPPORT. The laws of sparse data, of memory, of the USS monitor, and of strings held in cells. -/

namespace Sys2Proof.Machine

/-! Keys. The first three hold of any list, in its canonical form or not. -/

section Keys
variable {β : Type}

@[simp] theorem lookupKey_putKey_same (k : Nat) (v : β) (l : List (Nat × β)) :
    lookupKey k (putKey k v l) = some v := by
  induction l with
  | nil => simp [putKey, lookupKey]
  | cons x l ih =>
    obtain ⟨j, w⟩ := x
    simp only [putKey]
    split
    · simp [lookupKey]
    · split
      · simp [lookupKey]
      · next h => simp [lookupKey, ih, Ne.symm h]

theorem lookupKey_putKey_ne {k k' : Nat} (h : k' ≠ k) (v : β) (l : List (Nat × β)) :
    lookupKey k' (putKey k v l) = lookupKey k' l := by
  induction l with
  | nil => simp [putKey, lookupKey, Ne.symm h]
  | cons x l ih =>
    obtain ⟨j, w⟩ := x
    simp only [putKey]
    split
    · simp [lookupKey, Ne.symm h]
    · split
      · next h' => subst h'; simp [lookupKey, Ne.symm h]
      · simp [lookupKey, ih]

theorem lookupKey_eraseKey (k k' : Nat) (l : List (Nat × β)) :
    lookupKey k' (eraseKey k l) = if k' = k then none else lookupKey k' l := by
  induction l with
  | nil => simp [eraseKey, lookupKey]
  | cons x l ih =>
    obtain ⟨j, w⟩ := x
    simp only [eraseKey]
    by_cases hj : j = k
    · subst hj
      by_cases hk : k' = j
      · subst hk; simpa using ih
      · simp [ih, hk, lookupKey, Ne.symm hk]
    · by_cases hk : k' = k
      · subst hk; simp [lookupKey, hj, ih]
      · simp [lookupKey, hj, ih, hk]

theorem mem_putKey {k : Nat} {v : β} {l : List (Nat × β)} {x : Nat × β} (h : x ∈ putKey k v l) :
    x = (k, v) ∨ x ∈ l := by
  induction l with
  | nil => simpa [putKey] using h
  | cons y l ih =>
    obtain ⟨j, w⟩ := y
    simp only [putKey] at h
    split at h
    · simpa using h
    · split at h
      · rcases List.mem_cons.1 h with h | h
        · exact .inl h
        · exact .inr (List.mem_cons_of_mem _ h)
      · rcases List.mem_cons.1 h with h | h
        · exact .inr (h ▸ List.mem_cons_self)
        · exact (ih h).imp id (List.mem_cons_of_mem _)

theorem mem_eraseKey {k : Nat} {l : List (Nat × β)} {x : Nat × β} (h : x ∈ eraseKey k l) : x ∈ l := by
  induction l with
  | nil => simp [eraseKey] at h
  | cons y l ih =>
    obtain ⟨j, w⟩ := y
    simp only [eraseKey] at h
    split at h
    · exact List.mem_cons_of_mem _ (ih h)
    · rcases List.mem_cons.1 h with h | h
      · exact h ▸ List.mem_cons_self
      · exact List.mem_cons_of_mem _ (ih h)

theorem keysRise_putKey (k : Nat) (v : β) {l : List (Nat × β)} (h : keysRise l) : keysRise (putKey k v l) := by
  induction l with
  | nil => simp [putKey]
  | cons y l ih =>
    obtain ⟨j, w⟩ := y
    obtain ⟨hj, hl⟩ := List.pairwise_cons.1 h
    simp only [putKey]
    split
    · next hk =>
      refine List.pairwise_cons.2 ⟨fun x hx => ?_, h⟩
      rcases List.mem_cons.1 hx with rfl | hx
      · exact hk
      · exact Nat.lt_trans hk (hj x hx)
    · split
      · next h1 h2 => subst h2; exact List.pairwise_cons.2 ⟨hj, hl⟩
      · next h1 h2 =>
        refine List.pairwise_cons.2 ⟨fun x hx => ?_, ih hl⟩
        rcases mem_putKey hx with rfl | hx
        · simp only; omega
        · exact hj x hx

theorem keysRise_eraseKey (k : Nat) {l : List (Nat × β)} (h : keysRise l) : keysRise (eraseKey k l) := by
  induction l with
  | nil => simp [eraseKey]
  | cons y l ih =>
    obtain ⟨j, w⟩ := y
    obtain ⟨hj, hl⟩ := List.pairwise_cons.1 h
    simp only [eraseKey]
    split
    · exact ih hl
    · exact List.pairwise_cons.2 ⟨fun x hx => hj x (mem_eraseKey hx), ih hl⟩

end Keys

/-! Memory: a cell holds what was last written to it, and no other cell changes (R33, R36). -/

theorem Memory.read_write (m : Memory) (a a' : Nat) (b : Byte) :
    (m.write a b).read a' = if a' = a then b else m.read a' := by
  unfold Memory.write Memory.read
  split
  · next hb => rw [lookupKey_eraseKey]; split <;> simp [hb]
  · by_cases h : a' = a
    · subst h; simp
    · simp [lookupKey_putKey_ne h, h]

@[simp] theorem Memory.read_write_same (m : Memory) (a : Nat) (b : Byte) : (m.write a b).read a = b := by
  simp [Memory.read_write]

theorem Memory.read_write_ne (m : Memory) {a a' : Nat} (h : a' ≠ a) (b : Byte) :
    (m.write a b).read a' = m.read a' := by
  simp [Memory.read_write, h]

theorem mem_write {m : Memory} {a : Nat} {b : Byte} {c : Host.Cell} (h : c ∈ m.write a b) : c = (a, b) ∨ c ∈ m := by
  unfold Memory.write at h
  split at h
  · exact .inr (mem_eraseKey h)
  · exact mem_putKey h

theorem Memory.wf_write {m : Memory} (h : Memory.wf m) (a : Nat) (b : Byte) : Memory.wf (m.write a b) := by
  unfold Memory.write
  split
  · exact ⟨keysRise_eraseKey a h.1, fun c hc => h.2 c (mem_eraseKey hc)⟩
  · next hb =>
    refine ⟨keysRise_putKey a b h.1, fun c hc => ?_⟩
    rcases mem_putKey hc with rfl | hc
    · exact hb
    · exact h.2 c hc

theorem Memory.wf_writeCells {m : Memory} (h : Memory.wf m) (a : Nat) (bs : List Byte) :
    Memory.wf (m.writeCells a bs) := by
  induction bs generalizing a m with
  | nil => exact h
  | cons b bs ih => exact ih (Memory.wf_write h a b) (a + 1)

/-- The byte at `a'` after the cells from `a` on were written. -/
theorem Memory.read_writeCells (m : Memory) (a a' : Nat) (bs : List Byte) :
    (m.writeCells a bs).read a' =
      if a ≤ a' ∧ a' < a + bs.length then bs.getD (a' - a) blankCell else m.read a' := by
  induction bs generalizing a m with
  | nil => simp [Memory.writeCells]
  | cons b bs ih =>
    rw [Memory.writeCells, ih, Memory.read_write]
    by_cases h1 : a' = a
    · subst h1; simp
    · by_cases h2 : a + 1 ≤ a' ∧ a' < a + 1 + bs.length
      · have h3 : a ≤ a' ∧ a' < a + (b :: bs).length := by simp; omega
        have h4 : a' - a = (a' - (a + 1)) + 1 := by omega
        rw [if_pos h2, if_pos h3, h4]; rfl
      · have h3 : ¬(a ≤ a' ∧ a' < a + (b :: bs).length) := by simp; omega
        simp only [if_neg h2, if_neg h1, if_neg h3]

theorem Memory.read_writeCells_outside (m : Memory) {a a' : Nat} {bs : List Byte}
    (h : ¬(a ≤ a' ∧ a' < a + bs.length)) : (m.writeCells a bs).read a' = m.read a' := by
  rw [Memory.read_writeCells, if_neg h]

@[simp] theorem Memory.readCells_length (m : Memory) (a n : Nat) : (m.readCells a n).length = n := by
  induction n generalizing a with
  | zero => rfl
  | succ n ih => simp [Memory.readCells, ih]

/-- Reading the cells just written gives what was written (R36). -/
theorem Memory.readCells_writeCells (m : Memory) (a : Nat) (bs : List Byte) :
    (m.writeCells a bs).readCells a bs.length = bs := by
  induction bs generalizing a m with
  | nil => rfl
  | cons b bs ih =>
    simp only [Memory.writeCells, List.length_cons, Memory.readCells, ih]
    rw [Memory.read_writeCells_outside _ (by omega)]
    simp

theorem Memory.readCells_congr {m m' : Memory} {a n : Nat} (h : ∀ x, a ≤ x → x < a + n → m'.read x = m.read x) :
    m'.readCells a n = m.readCells a n := by
  induction n generalizing a with
  | zero => rfl
  | succ n ih =>
    simp only [Memory.readCells]
    rw [h a (by omega) (by omega), ih (fun x hx hy => h x (by omega) (by omega))]

/-! In canonical form, memories that read alike are equal. -/

theorem lookupKey_eq_none_of_lt {β : Type} {k : Nat} {l : List (Nat × β)} (h : ∀ x ∈ l, k < x.1) :
    lookupKey k l = none := by
  induction l with
  | nil => rfl
  | cons x l ih =>
    obtain ⟨j, w⟩ := x
    have hj : k < j := h (j, w) List.mem_cons_self
    simp only [lookupKey]
    rw [if_neg (by omega), ih fun y hy => h y (List.mem_cons_of_mem _ hy)]

theorem Memory.ext_read {m m' : Memory} (h : Memory.wf m) (h' : Memory.wf m')
    (e : ∀ a, m.read a = m'.read a) : m = m' := by
  induction m generalizing m' with
  | nil =>
    cases m' with
    | nil => rfl
    | cons y l' =>
      obtain ⟨j', w'⟩ := y
      have := e j'
      simp [Memory.read, lookupKey] at this
      exact absurd this.symm (h'.2 (j', w') List.mem_cons_self)
  | cons x l ih =>
    obtain ⟨j, w⟩ := x
    obtain ⟨hj, hl⟩ := List.pairwise_cons.1 h.1
    have hw : w ≠ blankCell := h.2 (j, w) List.mem_cons_self
    cases m' with
    | nil =>
      have := e j
      simp [Memory.read, lookupKey] at this
      exact absurd this hw
    | cons y l' =>
      obtain ⟨j', w'⟩ := y
      obtain ⟨hj', hl'⟩ := List.pairwise_cons.1 h'.1
      have hw' : w' ≠ blankCell := h'.2 (j', w') List.mem_cons_self
      have hjj : j = j' := by
        rcases Nat.lt_trichotomy j j' with hlt | heq | hgt
        · have := e j
          rw [Memory.read, Memory.read, lookupKey_eq_none_of_lt (l := (j', w') :: l')] at this
          · simp [lookupKey] at this; exact absurd this hw
          · intro z hz
            rcases List.mem_cons.1 hz with rfl | hz
            · exact hlt
            · exact Nat.lt_trans hlt (hj' z hz)
        · exact heq
        · have := e j'
          rw [Memory.read, Memory.read, lookupKey_eq_none_of_lt (l := (j, w) :: l)] at this
          · simp [lookupKey] at this; exact absurd this.symm hw'
          · intro z hz
            rcases List.mem_cons.1 hz with rfl | hz
            · exact hgt
            · exact Nat.lt_trans hgt (hj z hz)
      subst hjj
      have hww : w = w' := by simpa [Memory.read, lookupKey] using e j
      subst hww
      have hll : l = l' := by
        refine ih ⟨hl, fun c hc => h.2 c (List.mem_cons_of_mem _ hc)⟩
          ⟨hl', fun c hc => h'.2 c (List.mem_cons_of_mem _ hc)⟩ fun a => ?_
        by_cases ha : j = a
        · subst ha
          simp [Memory.read, lookupKey_eq_none_of_lt hj, lookupKey_eq_none_of_lt hj']
        · simpa [Memory.read, lookupKey, ha] using e a
      rw [hll]

/-! The USS monitor (R16, R33). -/

theorem Monitor.lookup_dirty (m : Monitor) (a a' : Nat) :
    lookupKey a' (m.dirty a) =
      if a' = a ∧ lookupKey a m = some .clean then some .dirty else lookupKey a' m := by
  unfold Monitor.dirty
  split
  · next h =>
    by_cases ha : a' = a
    · subst ha; simp [h]
    · simp [lookupKey_putKey_ne ha, ha]
  · next h => rw [if_neg (fun hc => h hc.2)]

theorem Monitor.wf_dirty {m : Monitor} (h : Monitor.wf m) (a : Nat) : Monitor.wf (m.dirty a) := by
  unfold Monitor.dirty
  split
  · exact keysRise_putKey a _ h
  · exact h

theorem Monitor.wf_clean {m : Monitor} (h : Monitor.wf m) (a n : Nat) : Monitor.wf (m.clean a n) := by
  induction n generalizing a m with
  | zero => exact h
  | succ n ih => exact ih (keysRise_putKey a .clean h) (a + 1)

theorem Monitor.lookup_clean (m : Monitor) (a n a' : Nat) :
    lookupKey a' (m.clean a n) = if a ≤ a' ∧ a' < a + n then some .clean else lookupKey a' m := by
  induction n generalizing a m with
  | zero => rw [Monitor.clean, if_neg (by omega)]
  | succ n ih =>
    rw [Monitor.clean, ih]
    by_cases h1 : a' = a
    · subst h1; simp
    · by_cases h2 : a + 1 ≤ a' ∧ a' < a + 1 + n
      · rw [if_pos h2, if_pos (by omega)]
      · rw [if_neg h2, if_neg (by omega), lookupKey_putKey_ne h1]

theorem Monitor.allClean_iff (m : Monitor) (a n : Nat) :
    m.allClean a n = true ↔ ∀ k, k < n → lookupKey (a + k) m = some .clean := by
  induction n generalizing a with
  | zero => simp [Monitor.allClean]
  | succ n ih =>
    simp only [Monitor.allClean, Bool.and_eq_true, decide_eq_true_eq, ih]
    constructor
    · rintro ⟨h0, h⟩ k hk
      cases k with
      | zero => exact h0
      | succ k => simpa [Nat.add_assoc, Nat.add_comm 1] using h k (by omega)
    · intro h
      refine ⟨h 0 (by omega), fun k hk => ?_⟩
      simpa [Nat.add_assoc, Nat.add_comm 1] using h (k + 1) (by omega)

/-! Strings in cells (R31). -/

@[simp] theorem toCells_length (n v : Nat) : (toCells n v).length = n := by
  induction n with
  | zero => rfl
  | succ n ih => simp [toCells, ih]

theorem fromCells_lt (bs : List Byte) : fromCells bs < 2 ^ (8 * bs.length) := by
  induction bs with
  | nil => simp [fromCells]
  | cons b bs ih =>
    have hb : b.toNat < 2 ^ 8 := b.isLt
    have : 2 ^ (8 * (b :: bs).length) = 2 ^ 8 * 2 ^ (8 * bs.length) := by
      rw [List.length_cons, Nat.mul_succ, Nat.pow_add, Nat.mul_comm]
    rw [fromCells, this]
    calc b.toNat * 2 ^ (8 * bs.length) + fromCells bs
        < b.toNat * 2 ^ (8 * bs.length) + 2 ^ (8 * bs.length) := by omega
      _ = (b.toNat + 1) * 2 ^ (8 * bs.length) := by ring
      _ ≤ 2 ^ 8 * 2 ^ (8 * bs.length) := Nat.mul_le_mul_right _ hb

/-- Cells of a number, read back as a number: the number modulo 2^(8n). -/
theorem fromCells_toCells (n v : Nat) : fromCells (toCells n v) = v % 2 ^ (8 * n) := by
  induction n with
  | zero => simp [toCells, fromCells, Nat.mod_one]
  | succ n ih =>
    rw [toCells, fromCells, ih, toCells_length, BitVec.toNat_ofNat]
    have : 2 ^ (8 * (n + 1)) = 2 ^ (8 * n) * 2 ^ 8 := by rw [← Nat.pow_add]; rfl
    rw [this, Nat.mod_mul]
    ring

end Sys2Proof.Machine
end

