-- ==== Sys2Proof/Laws/Ops.lean ====
section
/-! SUPPORT. What a piece of pseudocode can do, said once for each shared operation: `Act.Within R m` says that `m` relates the
state it starts in to the state it ends in, whether it goes on, raises a condition or is stuck, by `R`. And the accesses without other
units, as equations. -/

namespace Sys2Proof.Machine

/-- The state in which a piece of pseudocode ends. -/
def Res.state {α : Type} : Res α → State
  | .ok _ s => s
  | .trap _ s => s
  | .stuck _ s => s

/-- However `m` ends, `R` relates its first state to its last. -/
def Act.Within {α : Type} (R : State → State → Prop) (m : Act α) : Prop := ∀ s, R s (m s).state

theorem Act.Within.ok {α : Type} {R : State → State → Prop} {m : Act α} (h : m.Within R) {s t : State} {a : α}
    (e : m s = .ok a t) : R s t := by
  simpa [e, Res.state] using h s

theorem Act.Within.trap {α : Type} {R : State → State → Prop} {m : Act α} (h : m.Within R) {s t : State} {c : Condition}
    (e : m s = .trap c t) : R s t := by
  simpa [e, Res.state] using h s

theorem Act.Within.stuck {α : Type} {R : State → State → Prop} {m : Act α} (h : m.Within R) {s t : State} {r : Fault}
    (e : m s = .stuck r t) : R s t := by
  simpa [e, Res.state] using h s

/-- A relation that sequencing keeps. -/
structure Chains (R : State → State → Prop) : Prop where
  refl : ∀ s, R s s
  trans : ∀ {s t u}, R s t → R t u → R s u

/-! How a sequence ends. -/

theorem bind_ok {α β : Type} {m : Act α} {f : α → Act β} {s t : State} {b : β} (h : m.bind f s = .ok b t) :
    ∃ a u, m s = .ok a u ∧ f a u = .ok b t := by
  unfold Act.bind at h
  cases hm : m s with
  | ok a u => rw [hm] at h; exact ⟨a, u, rfl, h⟩
  | trap c u => rw [hm] at h; cases h
  | stuck r u => rw [hm] at h; cases h

theorem bind_trap {α β : Type} {m : Act α} {f : α → Act β} {s t : State} {c : Condition}
    (h : m.bind f s = .trap c t) : m s = .trap c t ∨ ∃ a u, m s = .ok a u ∧ f a u = .trap c t := by
  unfold Act.bind at h
  cases hm : m s with
  | ok a u => rw [hm] at h; exact .inr ⟨a, u, rfl, h⟩
  | trap c u => rw [hm] at h; cases h; exact .inl rfl
  | stuck r u => rw [hm] at h; cases h

theorem bind_of_ok {α β : Type} {m : Act α} (f : α → Act β) {s u : State} {a : α} (h : m s = .ok a u) :
    m.bind f s = f a u := by
  simp [Act.bind, h]

theorem bind_of_trap {α β : Type} {m : Act α} (f : α → Act β) {s u : State} {c : Condition} (h : m s = .trap c u) :
    m.bind f s = .trap c u := by
  simp [Act.bind, h]

theorem bind_of_stuck {α β : Type} {m : Act α} (f : α → Act β) {s u : State} {r : Fault} (h : m s = .stuck r u) :
    m.bind f s = .stuck r u := by
  simp [Act.bind, h]

@[simp] theorem pure_apply {α : Type} (a : α) (s : State) : Act.pure a s = .ok a s := rfl

@[simp] theorem pure_bind {α β : Type} (a : α) (f : α → Act β) (s : State) : (Act.pure a).bind f s = f a s := rfl

@[simp] theorem modify_apply (f : State → State) (s : State) : Act.modify f s = .ok () (f s) := rfl

@[simp] theorem modify_bind {β : Type} (g : State → State) (f : Unit → Act β) (s : State) :
    (Act.modify g).bind f s = f () (g s) := rfl

@[simp] theorem get_apply {α : Type} (f : State → α) (s : State) : Act.get f s = .ok (f s) s := rfl

@[simp] theorem get_bind {α β : Type} (g : State → α) (f : α → Act β) (s : State) :
    (Act.get g).bind f s = f (g s) s := rfl

@[simp] theorem raise_apply {α : Type} (c : Condition) (s : State) : (raise c : Act α) s = .trap c s := rfl

@[simp] theorem stick_apply {α : Type} (r : Fault) (s : State) : (stick r : Act α) s = .stuck r s := rfl

/-! Sequencing keeps `Within`. -/

section Within
variable {R : State → State → Prop}

theorem within_bind {α β : Type} (hR : Chains R) {m : Act α} {f : α → Act β} (hm : m.Within R)
    (hf : ∀ a, (f a).Within R) : (m.bind f).Within R := by
  intro s
  have h := hm s
  unfold Act.bind
  cases hs : m s <;> rw [hs] at h
  · exact hR.trans h (hf _ _)
  · exact h
  · exact h

theorem within_pure {α : Type} (hR : Chains R) (a : α) : (Act.pure a).Within R := hR.refl

theorem within_raise {α : Type} (hR : Chains R) (c : Condition) : (raise c : Act α).Within R := hR.refl

theorem within_get {α : Type} (hR : Chains R) (f : State → α) : (Act.get f).Within R := hR.refl

theorem within_modify {f : State → State} (h : ∀ s, R s (f s)) : (Act.modify f).Within R := h

theorem within_ite {α : Type} {p : Prop} [Decidable p] {m n : Act α} (hm : m.Within R) (hn : n.Within R) :
    (if p then m else n).Within R := by
  split
  · exact hm
  · exact hn

/-- An act that looks at its first state and then does what another does. -/
theorem within_state {α : Type} {m : State → Act α} (h : ∀ s, (m s).Within R) : (Act.Within R fun s => m s s) :=
  fun s => h s s

end Within

/-! What accesses keep. -/

/-- A relation that memory accesses keep: sequencing, the passing of what other units do, a write to a cell that exists, and the
record of an interruption. -/
structure Access (R : State → State → Prop) : Prop where
  chains : Chains R
  env : ∀ (s : State) e, R s { s with env := e }
  store : ∀ (s : State) a b, populated s.cfg a = true → R s (s.storeCell a b)
  irq : ∀ (s : State) e, R s (s.addIrq e)

/-- A relation that reads keep: sequencing, and what other units do before a cell access. -/
structure Reading (R : State → State → Prop) : Prop where
  chains : Chains R
  tick : ∀ s : State, R s s.envTick

section Access
variable {R : State → State → Prop}

theorem Access.signalled (hR : Access R) (pa : Nat) (bs : List Byte) (s : State) : R s (Machine.signalled pa bs s) := by
  unfold Machine.signalled
  split
  · cases lookupKey pa s.cfg.gates with
    | some t => exact hR.irq s _
    | none => exact hR.chains.refl s
  · exact hR.chains.refl s

theorem Access.storeExisting (hR : Access R) (s : State) (a : Nat) (bs : List Byte) : R s (s.storeExisting a bs) := by
  induction bs generalizing a s with
  | nil => exact hR.chains.refl s
  | cons b bs ih =>
    refine hR.chains.trans ?_ (ih _ _)
    split
    · next h => exact hR.store s a b h
    · exact hR.chains.refl s

theorem Access.otherStore (hR : Access R) (s : State) (w : Store) : R s (s.otherStore w) := by
  unfold State.otherStore
  split
  · exact hR.chains.trans (hR.storeExisting s _ _) (hR.signalled _ _ _)
  · exact hR.storeExisting s _ _

theorem Access.others (hR : Access R) (s : State) (ws : List Store) : R s (s.otherWrites ws) := by
  induction ws generalizing s with
  | nil => exact hR.chains.refl s
  | cons w ws ih => exact hR.chains.trans (hR.otherStore s w) (ih _)

theorem Access.tick (hR : Access R) (s : State) : R s s.envTick := by
  unfold State.envTick
  split
  · exact hR.chains.refl s
  · next ws rest _ => exact hR.chains.trans (hR.env s rest) (hR.others _ ws)

theorem Access.reading (hR : Access R) : Reading R := ⟨hR.chains, hR.tick⟩

end Access

/-- Without other units, a read changes nothing. -/
theorem reading_quiet : Reading (fun s t => Quiet s → t = s) where
  chains := ⟨fun _ _ => rfl, fun h h' q => by rw [h' (by rwa [h q]), h q]⟩
  tick s q := by unfold State.envTick; rw [q]

/-! What a change of memory leaves alone. -/

/-- The register file, the outcome, the translations of targets, the schedule and the parameters are the same; interruptions may have
been added to those recorded. -/
structure SameUnit (s t : State) : Prop where
  regs : t.regs = s.regs
  root : t.root = s.root
  cc : t.cc = s.cc
  ip : t.ip = s.ip
  trapped : t.trapped = s.trapped
  irqs : s.irqs <+: t.irqs
  served : t.served = s.served
  turns : t.turns = s.turns
  cfg : t.cfg = s.cfg

theorem sameUnit_chains : Chains SameUnit where
  refl _ := ⟨rfl, rfl, rfl, rfl, rfl, List.prefix_refl _, rfl, rfl, rfl⟩
  trans h h' := ⟨h'.1.trans h.1, h'.2.trans h.2, h'.3.trans h.3, h'.4.trans h.4, h'.5.trans h.5, h.6.trans h'.6,
    h'.7.trans h.7, h'.8.trans h.8, h'.9.trans h.9⟩

theorem SameUnit.reg {s t : State} (h : SameUnit s t) (r : Reg) : t.getReg r = s.getReg r :=
  State.getReg_congr h.regs r

theorem sameUnit_storeCell (s : State) (a : Nat) (b : Byte) : SameUnit s (s.storeCell a b) :=
  ⟨rfl, rfl, rfl, rfl, rfl, List.prefix_refl _, rfl, rfl, rfl⟩

theorem sameUnit_storeCells (s : State) (a : Nat) (bs : List Byte) : SameUnit s (s.storeCells a bs) := by
  induction bs generalizing a s with
  | nil => exact sameUnit_chains.refl s
  | cons b bs ih => exact sameUnit_chains.trans (sameUnit_storeCell s a b) (ih _ _)

theorem sameUnit_access : Access SameUnit where
  chains := sameUnit_chains
  env _ _ := ⟨rfl, rfl, rfl, rfl, rfl, List.prefix_refl _, rfl, rfl, rfl⟩
  store s a b _ := sameUnit_storeCell s a b
  irq _ e := ⟨rfl, rfl, rfl, rfl, rfl, ⟨[e], rfl⟩, rfl, rfl, rfl⟩

theorem sameUnit_otherWrites (s : State) (ws : List Store) : SameUnit s (s.otherWrites ws) := sameUnit_access.others s ws

theorem sameUnit_envTick (s : State) : SameUnit s s.envTick := sameUnit_access.tick s

/-! The cells written. -/

@[simp] theorem storeCells_mem (s : State) (a : Nat) (bs : List Byte) :
    (s.storeCells a bs).mem = s.mem.writeCells a bs := by
  induction bs generalizing a s with
  | nil => rfl
  | cons b bs ih => simp [State.storeCells, Memory.writeCells, ih]

@[simp] theorem storeCells_env (s : State) (a : Nat) (bs : List Byte) : (s.storeCells a bs).env = s.env := by
  induction bs generalizing a s with
  | nil => rfl
  | cons b bs ih => simp [State.storeCells, ih]

@[simp] theorem storeCells_cfg (s : State) (a : Nat) (bs : List Byte) : (s.storeCells a bs).cfg = s.cfg :=
  (sameUnit_storeCells s a bs).cfg

/-- The monitor after a write: the clean entries of the written cells are dirty (R33). -/
theorem storeCells_mon (s : State) (a : Nat) (bs : List Byte) (a' : Nat) :
    lookupKey a' (s.storeCells a bs).mon =
      if (a ≤ a' ∧ a' < a + bs.length) ∧ lookupKey a' s.mon = some .clean then some .dirty
      else lookupKey a' s.mon := by
  induction bs generalizing a s with
  | nil =>
    rw [if_neg (by simp)]
    rfl
  | cons b bs ih =>
    rw [State.storeCells, ih]
    simp only [State.storeCell_mon, Monitor.lookup_dirty, List.length_cons]
    by_cases h1 : a' = a
    · subst h1
      rw [if_neg (by omega)]
      by_cases hc : lookupKey a' s.mon = some Mark.clean
      · rw [if_pos ⟨rfl, hc⟩, if_pos ⟨by omega, hc⟩]
      · rw [if_neg (fun h => hc h.2), if_neg (fun h => hc h.2)]
    · have hne : ¬(a' = a ∧ lookupKey a s.mon = some Mark.clean) := fun h => h1 h.1
      rw [if_neg hne]
      by_cases h2 : a + 1 ≤ a' ∧ a' < a + 1 + bs.length
      · have h3 : a ≤ a' ∧ a' < a + (bs.length + 1) := by omega
        simp [h2, h3]
      · rw [if_neg (fun h => h2 h.1), if_neg (fun h => h2 (by omega))]

/-! Cells that exist. -/

theorem cellsExist_succ {c : Config} {a n : Nat} :
    CellsExist c a (n + 1) ↔ populated c a = true ∧ CellsExist c (a + 1) n := by
  constructor
  · intro h
    exact ⟨h 0 (by omega), fun k hk => by simpa [Nat.add_assoc, Nat.add_comm 1] using h (k + 1) (by omega)⟩
  · rintro ⟨h0, h⟩ k hk
    cases k with
    | zero => exact h0
    | succ k => simpa [Nat.add_assoc, Nat.add_comm 1] using h k (by omega)

theorem allExist_iff (c : Config) (a n : Nat) : allExist c a n = true ↔ CellsExist c a n := by
  induction n generalizing a with
  | zero => simp [allExist, CellsExist]
  | succ n ih => rw [cellsExist_succ, allExist, Bool.and_eq_true, ih]

theorem firstAbsent_none (c : Config) (a n : Nat) : firstAbsent c a n = none ↔ CellsExist c a n := by
  induction n generalizing a with
  | zero => simp [firstAbsent, CellsExist]
  | succ n ih =>
    rw [cellsExist_succ, firstAbsent, ← ih]
    split <;> simp_all

/-- A write by another agent of cells that exist (R33). -/
theorem storeExisting_exist {s : State} {a : Nat} {bs : List Byte} (h : CellsExist s.cfg a bs.length) :
    s.storeExisting a bs = s.storeCells a bs := by
  induction bs generalizing a s with
  | nil => rfl
  | cons b bs ih =>
    obtain ⟨h0, h1⟩ := cellsExist_succ.1 h
    rw [State.storeExisting, if_pos h0, State.storeCells]
    exact ih h1

theorem otherStore_exist {s : State} {w : Store} (h : CellsExist s.cfg w.addr w.cells.length) :
    s.otherStore w = signalled w.addr w.cells (s.storeCells w.addr w.cells) := by
  rw [State.otherStore, if_pos ((allExist_iff _ _ _).2 h), storeExisting_exist h]

/-- The record of an interruption is all that a write at a gate adds (R172). -/
theorem signalled_cases (pa : Nat) (bs : List Byte) (s : State) : signalled pa bs s = s ∨ ∃ e, signalled pa bs s = s.addIrq e := by
  unfold signalled
  split
  · cases lookupKey pa s.cfg.gates with
    | some t => exact .inr ⟨_, rfl⟩
    | none => exact .inl rfl
  · exact .inl rfl

/-- A string of another length than 16 cells is no interruption (U21). -/
theorem signalled_short {pa : Nat} {bs : List Byte} (h : bs.length ≠ 16) (s : State) : signalled pa bs s = s := by
  simp [signalled, h]

section Written
variable (s : State) (pa : Nat) (bs : List Byte)

theorem sameUnit_written : SameUnit s (s.written pa bs) := by
  rcases signalled_cases pa bs (s.storeCells pa bs) with h | ⟨e, h⟩ <;> rw [State.written, h]
  · exact sameUnit_storeCells s pa bs
  · exact sameUnit_chains.trans (sameUnit_storeCells s pa bs) (sameUnit_access.irq _ e)

@[simp] theorem written_mem : (s.written pa bs).mem = s.mem.writeCells pa bs := by
  rcases signalled_cases pa bs (s.storeCells pa bs) with h | ⟨e, h⟩ <;> rw [State.written, h] <;> simp

@[simp] theorem written_mon : (s.written pa bs).mon = (s.storeCells pa bs).mon := by
  rcases signalled_cases pa bs (s.storeCells pa bs) with h | ⟨e, h⟩ <;> rw [State.written, h]; simp

@[simp] theorem written_env : (s.written pa bs).env = s.env := by
  rcases signalled_cases pa bs (s.storeCells pa bs) with h | ⟨e, h⟩ <;> rw [State.written, h] <;> simp

@[simp] theorem written_cfg : (s.written pa bs).cfg = s.cfg := (sameUnit_written s pa bs).cfg

theorem written_short (h : bs.length ≠ 16) : s.written pa bs = s.storeCells pa bs := signalled_short h _

end Written

/-! The invariant. -/

theorem populated_congr {s t : State} (h : t.cfg = s.cfg) (a : Nat) : populated t.cfg a = populated s.cfg a := by rw [h]

theorem mem_dirty {m : Monitor} {a : Nat} {c : Nat × Mark} (h : c ∈ m.dirty a) : c = (a, .dirty) ∨ c ∈ m := by
  unfold Monitor.dirty at h
  split at h
  · exact mem_putKey h
  · exact .inr h

theorem mem_clean {m : Monitor} {a n : Nat} {c : Nat × Mark} (h : c ∈ m.clean a n) :
    (a ≤ c.1 ∧ c.1 < a + n) ∨ c ∈ m := by
  induction n generalizing a m with
  | zero => exact .inr h
  | succ n ih =>
    rcases ih h with h | h
    · left; omega
    · rcases mem_putKey h with rfl | h
      · left; simp
      · exact .inr h

theorem inv_storeCell {s : State} (h : Inv s) {a : Nat} (b : Byte) (ha : populated s.cfg a = true) :
    Inv (s.storeCell a b) := by
  refine ⟨Memory.wf_write h.1 a b, Monitor.wf_dirty h.2.1 a, fun c hc => ?_, fun c hc => ?_, h.2.2.2.2⟩
  · rcases mem_write hc with rfl | hc
    · exact ha
    · exact h.2.2.1 c hc
  · rcases mem_dirty hc with rfl | hc
    · exact ha
    · exact h.2.2.2.1 c hc

/-- The invariant is kept. -/
def KeepsInv (s t : State) : Prop := Inv s → Inv t

theorem keepsInv_chains : Chains KeepsInv where
  refl _ h := h
  trans h h' i := h' (h i)

theorem keepsInv_access : Access KeepsInv :=
  ⟨keepsInv_chains, fun _ _ h => h, fun _ _ b ha h => inv_storeCell h b ha, fun _ _ h => h⟩

/-- A condition keeps the invariant, also where a trap program starts (R164). -/
theorem inv_takeTrap {s : State} (h : Inv s) (c : Condition) : Inv (takeTrap c s) := by
  unfold takeTrap
  split
  · exact h
  · exact keepsInv_access.others _ _ ⟨h.1, h.2.1, h.2.2.1, h.2.2.2.1, Nat.mod_lt _ (Nat.two_pow_pos _), Nat.mod_lt _ (Nat.two_pow_pos _)⟩

/-! What the monitor notices (R16, R33). -/

/-- Every entry of the monitor is as it was, and a clean cell holds what it held; or it was clean and is dirty. -/
def Noticed (s t : State) : Prop :=
  ∀ a, (lookupKey a t.mon = lookupKey a s.mon ∧ (lookupKey a s.mon = some .clean → t.mem.read a = s.mem.read a)) ∨
    (lookupKey a s.mon = some .clean ∧ lookupKey a t.mon = some .dirty)

theorem noticed_same {s t : State} (h : t.mon = s.mon) (h' : t.mem = s.mem) : Noticed s t :=
  fun a => .inl ⟨by rw [h], fun _ => by rw [h']⟩

theorem noticed_chains : Chains Noticed where
  refl _ := noticed_same rfl rfl
  trans {s t u} h h' a := by
    rcases h a with ⟨e, f⟩ | ⟨e, f⟩
    · rcases h' a with ⟨e', f'⟩ | ⟨e', f'⟩
      · exact .inl ⟨e'.trans e, fun c => (f' (e.trans c)).trans (f c)⟩
      · exact .inr ⟨e.symm.trans e', f'⟩
    · rcases h' a with ⟨e', -⟩ | ⟨e', -⟩
      · exact .inr ⟨e, e'.trans f⟩
      · rw [f] at e'
        cases e'

theorem noticed_access : Access Noticed where
  chains := noticed_chains
  env _ _ := noticed_same rfl rfl
  irq _ _ := noticed_same rfl rfl
  store s a b _ x := by
    simp only [State.storeCell_mon, Monitor.lookup_dirty, State.storeCell_mem]
    by_cases h : x = a ∧ lookupKey a s.mon = some .clean
    · exact .inr ⟨h.1 ▸ h.2, if_pos h⟩
    · exact .inl ⟨if_neg h, fun c => Memory.read_write_ne _ (fun e => h ⟨e, e ▸ c⟩) b⟩

/-- A trap notices every write too, and clears nothing (R107). -/
theorem noticed_takeTrap (c : Condition) (s : State) : Noticed s (takeTrap c s) := by
  unfold takeTrap
  split
  · exact noticed_same rfl rfl
  · exact noticed_chains.trans (t := { s with regs := _, root := _, cc := _, ip := _ }) (noticed_same rfl rfl)
      (noticed_access.others _ _)

/-! Accesses, whatever other units do. -/

section Within
variable {R : State → State → Prop}

theorem readCell_within (hR : Reading R) (a : Nat) : (readCell a).Within R := by
  intro s
  unfold readCell
  dsimp only
  split <;> exact hR.tick s

theorem writeCell_within (hR : Access R) (a : Nat) (b : Byte) : (writeCell a b).Within R := by
  intro s
  unfold writeCell
  dsimp only
  split
  · next h => exact hR.chains.trans (hR.tick s) (hR.store _ a b h)
  · exact hR.tick s

theorem physRead_within (hR : Reading R) (a n : Nat) : (physRead a n).Within R := by
  induction n generalizing a with
  | zero => exact within_pure hR.chains _
  | succ n ih =>
    exact within_bind hR.chains (readCell_within hR a) fun b =>
      within_bind hR.chains (ih _) fun bs => within_pure hR.chains _

theorem physWrite_within (hR : Access R) (a : Nat) (bs : List Byte) : (physWrite a bs).Within R := by
  induction bs generalizing a with
  | nil => exact within_pure hR.chains _
  | cons b bs ih => exact within_bind hR.chains (writeCell_within hR a b) fun _ => ih _

end Within

/-! Accesses without other units. -/

theorem readCell_quiet {s : State} {a : Nat} (hq : Quiet s) (hp : populated s.cfg a = true) :
    readCell a s = .ok (s.mem.read a) s := by
  have ht : s.envTick = s := by simp only [State.envTick]; rw [hq]
  simp [readCell, ht, hp]

theorem writeCell_quiet {s : State} {a : Nat} (b : Byte) (hq : Quiet s) (hp : populated s.cfg a = true) :
    writeCell a b s = .ok () (s.storeCell a b) := by
  have ht : s.envTick = s := by simp only [State.envTick]; rw [hq]
  simp [writeCell, ht, hp]

/-- PhysRead without other units: the cells as they read, and nothing changes (R33). -/
theorem physRead_quiet {s : State} {a n : Nat} (hq : Quiet s) (hp : CellsExist s.cfg a n) :
    physRead a n s = .ok (s.mem.readCells a n) s := by
  induction n generalizing a with
  | zero => rfl
  | succ n ih =>
    obtain ⟨h0, h⟩ := cellsExist_succ.1 hp
    simp [physRead, Act.bind, readCell_quiet hq h0, ih h, Memory.readCells]

/-- PhysWrite without other units: exactly the cells are written (R33). -/
theorem physWrite_quiet {s : State} {a : Nat} {bs : List Byte} (hq : Quiet s) (hp : CellsExist s.cfg a bs.length) :
    physWrite a bs s = .ok () (s.storeCells a bs) := by
  induction bs generalizing a s with
  | nil => rfl
  | cons b bs ih =>
    obtain ⟨h0, h⟩ := cellsExist_succ.1 hp
    have : Quiet (s.storeCell a b) := hq
    simp [physWrite, Act.bind, writeCell_quiet b hq h0, ih this h, State.storeCells]

/-- A PhysRead without other units goes on only where the cells exist, and then reads them. -/
theorem physRead_quiet_ok {s t : State} {a n : Nat} {bs : List Byte} (hq : Quiet s) (h : physRead a n s = .ok bs t) :
    t = s ∧ bs = s.mem.readCells a n ∧ CellsExist s.cfg a n := by
  have ht : s.envTick = s := by simp only [State.envTick]; rw [hq]
  have key : CellsExist s.cfg a n := by
    induction n generalizing a bs t with
    | zero => exact fun k hk => absurd hk (by omega)
    | succ n ih =>
      obtain ⟨b, u, h1, h2⟩ := bind_ok h
      obtain ⟨bs', v, h3, h4⟩ := bind_ok h2
      have hp : populated s.cfg a = true := by
        unfold readCell at h1
        simp only [ht] at h1
        split at h1
        · assumption
        · cases h1
      rw [readCell_quiet hq hp] at h1
      cases h1
      exact cellsExist_succ.2 ⟨hp, ih h3⟩
  rw [physRead_quiet hq key] at h
  cases h
  exact ⟨rfl, rfl, key⟩

theorem readCell_no_trap (a : Nat) (s t : State) (c : Condition) : readCell a s ≠ .trap c t := by
  unfold readCell; dsimp only; split <;> exact fun h => nomatch h

theorem writeCell_no_trap (a : Nat) (b : Byte) (s t : State) (c : Condition) : writeCell a b s ≠ .trap c t := by
  unfold writeCell; dsimp only; split <;> exact fun h => nomatch h

/-- A physical read raises no condition (R54). -/
theorem physRead_no_trap (a n : Nat) (s t : State) (c : Condition) : physRead a n s ≠ .trap c t := by
  induction n generalizing a s with
  | zero => exact fun h => nomatch h
  | succ n ih =>
    intro h
    rcases bind_trap h with h | ⟨b, u, _, h⟩
    · exact readCell_no_trap _ _ _ _ h
    · rcases bind_trap h with h | ⟨bs, v, _, h⟩
      · exact ih _ _ h
      · cases h

/-- A physical write raises no condition. -/
theorem physWrite_no_trap (a : Nat) (bs : List Byte) (s t : State) (c : Condition) : physWrite a bs s ≠ .trap c t := by
  induction bs generalizing a s with
  | nil => exact fun h => nomatch h
  | cons b bs ih =>
    intro h
    rcases bind_trap h with h | ⟨_, u, _, h⟩
    · exact writeCell_no_trap _ _ _ _ _ h
    · exact ih _ _ h

/-- A physical write without other units goes on only where the cells exist, and then writes exactly them. -/
theorem physWrite_quiet_ok {s t : State} {a : Nat} {bs : List Byte} {u : Unit} (hq : Quiet s)
    (h : physWrite a bs s = .ok u t) : t = s.storeCells a bs ∧ CellsExist s.cfg a bs.length := by
  induction bs generalizing a s with
  | nil => cases h; exact ⟨rfl, fun k hk => absurd hk (by simp)⟩
  | cons b bs ih =>
    obtain ⟨_, v, h1, h2⟩ := bind_ok h
    have ht : s.envTick = s := by simp only [State.envTick]; rw [hq]
    have hp : populated s.cfg a = true := by
      unfold writeCell at h1
      simp only [ht] at h1
      split at h1
      · assumption
      · cases h1
    rw [writeCell_quiet b hq hp] at h1
    cases h1
    obtain ⟨h3, h4⟩ := ih (s := s.storeCell a b) hq h2
    exact ⟨h3, cellsExist_succ.2 ⟨hp, h4⟩⟩

/-! The end of an instruction. -/

/-- `finish` for pseudocode that goes on and did not write IP, up to the hook for C. -/
theorem finish_ok {i : Instr} {body : Act Bool} {s t : State} {w : Bool} (h : body s = .ok w t) :
    finish i body s = .next (if t.cfg.ipBase = .this ∧ w = false then advanceIp i t else t) := by
  unfold finish
  rw [h]
  dsimp only
  split <;> rfl

/-- `finish` for pseudocode that wrote IP. -/
theorem finish_wrote {i : Instr} {body : Act Bool} {s t : State} (h : body s = .ok true t) :
    finish i body s = .next t := by
  rw [finish_ok h, if_neg (by simp)]

theorem finish_trap {i : Instr} {body : Act Bool} {s t : State} {c : Condition} (h : body s = .trap c t) :
    finish i body s = .next (takeTrap c t) := by
  simp [finish, h]

theorem finish_stuck {i : Instr} {body : Act Bool} {s u : State} {r : Fault} (h : body s = .stuck r u) :
    finish i body s = .fault r := by
  simp [finish, h]

/-- The hook for C and the trailing advance together are `ended`. -/
theorem finish_updateCc {i : Instr} {body : Act Bool} {s t : State} {ops res : List Word}
    (h : body s = ((updateCc i ops res).bind fun _ => .pure false) t) :
    finish i body s = .next (ended i ops res t) := by
  have h' : body s = .ok false (hooked i ops res t) := h
  rw [finish_ok h', ended, trailing]
  by_cases hb : (hooked i ops res t).cfg.ipBase = .this
  · rw [if_pos hb, if_pos ⟨hb, rfl⟩]
  · rw [if_neg hb, if_neg fun e => hb e.1]

/-- Everything an instruction's outcome can be, from how its pseudocode ends. -/
theorem finish_next {i : Instr} {body : Act Bool} {s t : State} (h : finish i body s = .next t) :
    (∃ w u, body s = .ok w u ∧ t = if u.cfg.ipBase = .this ∧ w = false then advanceIp i u else u) ∨
      ∃ c u, body s = .trap c u ∧ t = takeTrap c u := by
  cases hb : body s with
  | ok w u =>
    rw [finish_ok hb] at h
    cases h
    exact .inl ⟨w, u, rfl, rfl⟩
  | trap c u =>
    rw [finish_trap hb] at h
    cases h
    exact .inr ⟨c, u, rfl, rfl⟩
  | stuck r u =>
    rw [finish_stuck hb] at h
    cases h

end Sys2Proof.Machine
end

