-- ==== Sys2Proof/Laws/Translate.lean ====
section
/-! SUPPORT. What a translation and an access through it can do (R56, R58), said once: with other units, the relations they keep;
without, that a translation of any kind but a write changes nothing, that one that raises a condition changes nothing, and that
one for a write sets the M bit of the holder and does nothing else. -/

namespace Sys2Proof.Machine

/-! Whatever other units do. -/

section Within
variable {R : State → State → Prop}

theorem readEntry_within (hR : Reading R) (a : Nat) : (readEntry a).Within R :=
  within_bind hR.chains (physRead_within hR a 8) fun _ => within_pure hR.chains _

theorem findHolder_within (hR : Reading R) (n : Nat) (e : Word) (ea : Nat) (k : Bool) :
    (findHolder n e ea k).Within R := by
  unfold findHolder
  refine within_ite (within_bind hR.chains (readEntry_within hR _) fun h s => ?_) (within_pure hR.chains _)
  split <;> exact hR.chains.refl s

theorem frameAccess_within (hR : Reading R) {kind : AccessKind} (hw : kind = .write → Access R) (n : Nat) (e : Word) (ea : Nat)
    (k : Bool) (va : Word) : (frameAccess n e ea k va kind).Within R := by
  unfold frameAccess
  refine within_ite (within_bind hR.chains (findHolder_within hR n e ea k) fun h => ?_) (within_raise hR.chains _)
  refine within_ite (within_raise hR.chains _) (within_bind hR.chains ?_ fun _ => within_pure hR.chains _)
  split
  · next h => exact physWrite_within (hw h) _ _
  · exact within_pure hR.chains _

theorem walk_within (hR : Reading R) {kind : AccessKind} (hw : kind = .write → Access R) (va : Word) (n tb : Nat) :
    (walk va kind n tb).Within R := by
  induction n generalizing tb with
  | zero => exact within_raise hR.chains _
  | succ n ih =>
    refine within_bind hR.chains (readEntry_within hR _) fun e => ?_
    cases entryKind (n + 1) e
    · exact frameAccess_within hR hw _ _ _ _ _
    · exact frameAccess_within hR hw _ _ _ _ _
    · exact ih _
    · exact within_raise hR.chains _

theorem translate_within (hR : Reading R) {kind : AccessKind} (hw : kind = .write → Access R) (root : Nat) (va : Word) (n : Nat) :
    (translate root va kind n).Within R := by
  refine within_bind hR.chains (walk_within hR hw va 6 root) fun m s => ?_
  split <;> exact hR.chains.refl s

theorem unitTranslate_within (hR : Reading R) {kind : AccessKind} (hw : kind = .write → Access R) (va : Word) (n : Nat) :
    (unitTranslate va kind n).Within R :=
  within_state (m := fun s => translate (rootAddr s) va kind n) fun s =>
    translate_within hR hw (rootAddr s) va n

theorem memRead_within (hR : Reading R) {kind : AccessKind} (hw : kind = .write → Access R) (va : Word) (n : Nat) :
    (memRead va n kind).Within R :=
  within_bind hR.chains (unitTranslate_within hR hw va n) fun _ => physRead_within hR _ _

theorem signalGate_within (hR : Access R) (pa : Nat) (bs : List Byte) : (signalGate pa bs).Within R :=
  within_modify fun s => hR.signalled pa bs s

theorem memWrite_within (hR : Access R) (va : Word) (bs : List Byte) : (memWrite va bs).Within R :=
  within_bind hR.chains (unitTranslate_within hR.reading (fun _ => hR) va _) fun _ =>
    within_bind hR.chains (physWrite_within hR _ _) fun _ => signalGate_within hR _ _

end Within

/-! Without other units. -/

theorem readEntry_quiet_ok {s t : State} {a : Nat} {e : Word} (hq : Quiet s) (h : readEntry a s = .ok e t) :
    t = s ∧ e = entryAt s.mem a ∧ CellsExist s.cfg a 8 := by
  obtain ⟨bs, u, h1, h2⟩ := bind_ok h
  obtain ⟨rfl, rfl, h3⟩ := physRead_quiet_ok hq h1
  cases h2
  exact ⟨rfl, rfl, h3⟩

theorem readEntry_quiet {s : State} {a : Nat} (hq : Quiet s) (h : CellsExist s.cfg a 8) :
    readEntry a s = .ok (entryAt s.mem a) s := by
  unfold readEntry
  rw [bind_of_ok _ (physRead_quiet hq h)]
  rfl

theorem readEntry_no_trap (a : Nat) (s t : State) (c : Condition) : readEntry a s ≠ .trap c t := by
  intro h
  rcases bind_trap h with h | ⟨_, _, _, h⟩
  · exact physRead_no_trap _ _ _ _ _ h
  · cases h

/-- What a frame access that goes on did (R57): the holder is not swapped; the address is its frame base and the offset; a
write set its M bit and changed nothing else, and any other access changed nothing. -/
structure Accessed (s : State) (va : Word) (kind : AccessKind) (m : Mapped) (t : State) : Prop where
  holderExists : CellsExist s.cfg m.holder 8
  present : bitOf (entryAt s.mem m.holder) 59 = false
  address : m.pa = framePa m.order (entryAt s.mem m.holder) va
  after : t = if kind = .write
    then s.storeCells m.holder (toCells 8 (setModified (entryAt s.mem m.holder)).toNat) else s

theorem findHolder_quiet_ok {s t : State} {n ea : Nat} {e : Word} {k : Bool} {h : Nat × Word} (hq : Quiet s)
    (he : e = entryAt s.mem ea) (hx : CellsExist s.cfg ea 8) (hh : findHolder n e ea k s = .ok h t) :
    t = s ∧ h.2 = entryAt s.mem h.1 ∧ CellsExist s.cfg h.1 8 := by
  unfold findHolder at hh
  split at hh
  · obtain ⟨g, u, h1, h2⟩ := bind_ok hh
    obtain ⟨rfl, rfl, h3⟩ := readEntry_quiet_ok hq h1
    split at h2 <;> cases h2
    exact ⟨rfl, rfl, h3⟩
  · cases hh
    exact ⟨rfl, he, hx⟩

theorem findHolder_quiet_trap {s t : State} {n ea : Nat} {e : Word} {k : Bool} {c : Condition} (hq : Quiet s)
    (hh : findHolder n e ea k s = .trap c t) : t = s := by
  unfold findHolder at hh
  split at hh
  · rcases bind_trap hh with h | ⟨g, u, h1, h2⟩
    · exact absurd h (readEntry_no_trap _ _ _ _)
    · obtain ⟨rfl, -, -⟩ := readEntry_quiet_ok hq h1
      split at h2 <;> cases h2
      rfl
  · cases hh

theorem frameAccess_quiet_ok {s t : State} {n ea : Nat} {e va : Word} {k : Bool} {kind : AccessKind} {m : Mapped}
    (hq : Quiet s) (he : e = entryAt s.mem ea) (hx : CellsExist s.cfg ea 8)
    (h : frameAccess n e ea k va kind s = .ok m t) : permits kind e = true ∧ m.order = n ∧ Accessed s va kind m t := by
  unfold frameAccess at h
  split at h
  · next hp =>
    obtain ⟨hd, u, h1, h2⟩ := bind_ok h
    obtain ⟨rfl, h3, h4⟩ := findHolder_quiet_ok hq he hx h1
    split at h2
    · cases h2
    · next hs =>
      obtain ⟨x, v, h5, h6⟩ := bind_ok h2
      cases h6
      refine ⟨hp, rfl, h4, ?_, by simp [h3], ?_⟩
      · simpa [h3] using hs
      · split at h5
        · next hk =>
          obtain ⟨h7, -⟩ := physWrite_quiet_ok hq h5
          simp [hk, h7, h3]
        · next hk =>
          cases h5
          simp [hk]
  · cases h

theorem frameAccess_quiet_trap {s t : State} {n ea : Nat} {e va : Word} {k : Bool} {kind : AccessKind} {c : Condition}
    (hq : Quiet s) (he : e = entryAt s.mem ea) (hx : CellsExist s.cfg ea 8)
    (h : frameAccess n e ea k va kind s = .trap c t) : t = s := by
  unfold frameAccess at h
  split at h
  · rcases bind_trap h with h | ⟨hd, u, h1, h2⟩
    · exact findHolder_quiet_trap hq h
    · obtain ⟨rfl, -, -⟩ := findHolder_quiet_ok hq he hx h1
      split at h2
      · cases h2; rfl
      · rcases bind_trap h2 with h | ⟨_, _, _, h⟩
        · split at h
          · exact absurd h (physWrite_no_trap _ _ _ _ _)
          · cases h
        · cases h
  · cases h; rfl

theorem walk_quiet_ok {s t : State} {n tb : Nat} {va : Word} {kind : AccessKind} {m : Mapped} (hq : Quiet s)
    (h : walk va kind n tb s = .ok m t) : Accessed s va kind m t ∧ 1 ≤ m.order ∧ m.order ≤ n := by
  induction n generalizing tb with
  | zero => cases h
  | succ n ih =>
    obtain ⟨e, u, h1, h2⟩ := bind_ok h
    obtain ⟨rfl, he, hx⟩ := readEntry_quiet_ok hq h1
    cases hk : entryKind (n + 1) e <;> simp only [hk] at h2
    · obtain ⟨-, ho, ha⟩ := frameAccess_quiet_ok hq he hx h2
      exact ⟨ha, by omega, by omega⟩
    · obtain ⟨-, ho, ha⟩ := frameAccess_quiet_ok hq he hx h2
      exact ⟨ha, by omega, by omega⟩
    · obtain ⟨ha, h3, h4⟩ := ih h2
      exact ⟨ha, h3, by omega⟩
    · cases h2

theorem walk_quiet_trap {s t : State} {n tb : Nat} {va : Word} {kind : AccessKind} {c : Condition} (hq : Quiet s)
    (h : walk va kind n tb s = .trap c t) : t = s := by
  induction n generalizing tb with
  | zero => cases h; rfl
  | succ n ih =>
    rcases bind_trap h with h | ⟨e, u, h1, h2⟩
    · exact absurd h (readEntry_no_trap _ _ _ _)
    · obtain ⟨rfl, he, hx⟩ := readEntry_quiet_ok hq h1
      cases hk : entryKind (n + 1) e <;> simp only [hk] at h2
      · exact frameAccess_quiet_trap hq he hx h2
      · exact frameAccess_quiet_trap hq he hx h2
      · exact ih h2
      · cases h2; rfl

theorem translate_quiet_ok {s t : State} {root n : Nat} {va : Word} {kind : AccessKind} {m : Mapped} (hq : Quiet s)
    (h : translate root va kind n s = .ok m t) : Accessed s va kind m t := by
  obtain ⟨m', u, h1, h2⟩ := bind_ok h
  split at h2 <;> cases h2
  exact (walk_quiet_ok hq h1).1

theorem translate_quiet_trap {s t : State} {root n : Nat} {va : Word} {kind : AccessKind} {c : Condition} (hq : Quiet s)
    (h : translate root va kind n s = .trap c t) : t = s := by
  rcases bind_trap h with h | ⟨m', u, h1, h2⟩
  · exact walk_quiet_trap hq h
  · split at h2 <;> cases h2

theorem unitTranslate_quiet_ok {s t : State} {n : Nat} {va : Word} {kind : AccessKind} {m : Mapped} (hq : Quiet s)
    (h : unitTranslate va kind n s = .ok m t) : Accessed s va kind m t := translate_quiet_ok hq h

theorem unitTranslate_quiet_trap {s t : State} {n : Nat} {va : Word} {kind : AccessKind} {c : Condition} (hq : Quiet s)
    (h : unitTranslate va kind n s = .trap c t) : t = s := translate_quiet_trap hq h

/-- A read access without other units goes on only where it can be read, and changes nothing. -/
theorem memRead_quiet_ok {s t : State} {va : Word} {n : Nat} {kind : AccessKind} {bs : List Byte} (hq : Quiet s)
    (hk : kind ≠ .write) (h : memRead va n kind s = .ok bs t) :
    t = s ∧ ∃ pa, Readable s va kind n pa ∧ bs = s.mem.readCells pa n := by
  obtain ⟨m, u, h1, h2⟩ := bind_ok h
  have ha := (unitTranslate_quiet_ok hq h1).after
  rw [if_neg hk] at ha
  subst ha
  obtain ⟨rfl, rfl, h3⟩ := physRead_quiet_ok hq h2
  exact ⟨rfl, m.pa, ⟨hq, ⟨m, h1, rfl⟩, h3⟩, rfl⟩

/-- Where the operand is readable, the read access gives its cells and changes nothing. -/
theorem memRead_readable {s : State} {va : Word} {n pa : Nat} {kind : AccessKind} (h : Readable s va kind n pa) :
    memRead va n kind s = .ok (s.mem.readCells pa n) s := by
  obtain ⟨hq, ⟨m, h1, rfl⟩, h3⟩ := h
  unfold memRead
  rw [bind_of_ok _ h1]
  exact physRead_quiet hq h3

/-- A read access that raises a condition changes nothing, without other units. -/
theorem memRead_quiet_trap {s t : State} {va : Word} {n : Nat} {kind : AccessKind} {c : Condition} (hq : Quiet s)
    (h : memRead va n kind s = .trap c t) : t = s := by
  rcases bind_trap h with h | ⟨m, u, h1, h2⟩
  · exact unitTranslate_quiet_trap hq h
  · exact absurd h2 (physRead_no_trap _ _ _ _ _)

theorem signalGate_apply (pa : Nat) (bs : List Byte) (s : State) : signalGate pa bs s = .ok () (signalled pa bs s) := rfl

/-- Where the operand is writable, the write access writes its cells, after the M bit. -/
theorem memWrite_writable {s s' : State} {va : Word} {bs : List Byte} {m : Mapped}
    (h : Writable s va bs.length m s') :
    memWrite va bs s = .ok () (signalled m.pa bs (s'.storeCells m.pa bs)) := by
  obtain ⟨hq, h1, h2⟩ := h
  have ha := (unitTranslate_quiet_ok hq h1).after
  have hq' : Quiet s' := by rw [ha]; simp [Quiet]; exact hq
  have hc' : s'.cfg = s.cfg := by rw [ha]; simp
  unfold memWrite
  rw [bind_of_ok _ h1, bind_of_ok _ (physWrite_quiet hq' (hc' ▸ h2))]
  exact signalGate_apply _ _ _

/-- A write access without other units goes on only where it can be written. -/
theorem memWrite_quiet_ok {s t : State} {va : Word} {bs : List Byte} {u : Unit} (hq : Quiet s)
    (h : memWrite va bs s = .ok u t) :
    ∃ m s', Writable s va bs.length m s' ∧ t = signalled m.pa bs (s'.storeCells m.pa bs) := by
  obtain ⟨m, s', h1, h2⟩ := bind_ok h
  have ha := (unitTranslate_quiet_ok hq h1).after
  have hq' : Quiet s' := by rw [ha]; simp [Quiet]; exact hq
  have hc' : s'.cfg = s.cfg := by rw [ha]; simp
  obtain ⟨x, v, h3, h4⟩ := bind_ok h2
  obtain ⟨h5, h6⟩ := physWrite_quiet_ok hq' h3
  have hw : Writable s va bs.length m s' := ⟨hq, h1, hc' ▸ h6⟩
  rw [signalGate_apply] at h4
  cases h4
  exact ⟨m, s', hw, by rw [h5]⟩

/-- A write access that raises a condition changes nothing, without other units. -/
theorem memWrite_quiet_trap {s t : State} {va : Word} {bs : List Byte} {c : Condition} (hq : Quiet s)
    (h : memWrite va bs s = .trap c t) : t = s := by
  rcases bind_trap h with h | ⟨m, u, h1, h2⟩
  · exact unitTranslate_quiet_trap hq h
  · rcases bind_trap h2 with h | ⟨_, _, _, h⟩
    · exact absurd h (physWrite_no_trap _ _ _ _ _)
    · rw [signalGate_apply] at h
      cases h

end Sys2Proof.Machine
end

