-- ==== Sys2Proof/Laws/Exec.lean ====
section
/-! SUPPORT. What the shared operations of the instructions can do, said once for each: how each completes where its operands can
be read and written, and, for any relation between states that the parts of an instruction keep, that the whole keeps it
(`exec_rel`). -/

namespace Sys2Proof.Machine

/-! Operands. -/

section WithDisp
variable (s : State) (r : Reg) (ae : Bool) (a : Const)

@[simp] theorem withDisp_root : (withDisp s r ae a).root = s.root := by unfold withDisp; split <;> rfl
@[simp] theorem withDisp_cc : (withDisp s r ae a).cc = s.cc := by unfold withDisp; split <;> rfl
@[simp] theorem withDisp_ip : (withDisp s r ae a).ip = s.ip := by unfold withDisp; split <;> rfl
@[simp] theorem withDisp_mem : (withDisp s r ae a).mem = s.mem := by unfold withDisp; split <;> rfl
@[simp] theorem withDisp_mon : (withDisp s r ae a).mon = s.mon := by unfold withDisp; split <;> rfl
@[simp] theorem withDisp_irqs : (withDisp s r ae a).irqs = s.irqs := by unfold withDisp; split <;> rfl
@[simp] theorem withDisp_env : (withDisp s r ae a).env = s.env := by unfold withDisp; split <;> rfl
@[simp] theorem withDisp_cfg : (withDisp s r ae a).cfg = s.cfg := by unfold withDisp; split <;> rfl

theorem addDisp_apply : addDisp r ae a s = .ok () (withDisp s r ae a) := rfl

theorem addDisp_bind {β : Type} (f : Unit → Act β) : (addDisp r ae a).bind f s = f () (withDisp s r ae a) := rfl

end WithDisp

/-- The hook for C changes at most C. -/
theorem hooked_cases (i : Instr) (ops res : List Word) (s : State) :
    hooked i ops res s = s ∨ ∃ v, ccUpdate s.cfg i ops res = some v ∧ hooked i ops res s = s.setCc v := by
  unfold hooked
  cases h : ccUpdate s.cfg i ops res with
  | none => exact .inl rfl
  | some v => exact .inr ⟨v, rfl, rfl⟩

/-- Under the defaults of the spec, the end of an instruction adds nothing to its effect. -/
theorem ended_default {s : State} (i : Instr) (ops res : List Word) (h : s.cfg.ccUpdate = .never)
    (h' : s.cfg.ipBase = .next) : ended i ops res s = s := by
  simp [ended, trailing, hooked, ccUpdate, h, h']

@[simp] theorem narrow_length (n : Nat) (v : Word) : (narrow n v).length = n := toCells_length _ _

/-- The source of a load form, where it can be read (R73, R77). -/
theorem loadSource_readable {s : State} {q : Reg} {ae : Bool} {g : BitVec 3} {a : Const} {pa : Nat}
    (h : Readable s (effAddr s q ae a) .data (gCells s g) pa) : loadSource q ae g a s = .ok (datum s g pa) s := by
  unfold loadSource
  rw [bind_of_ok _ (memRead_readable h)]
  rfl

/-! How the shared operations complete. -/

/-- K and RR, where the function goes on. -/
theorem aluReg_next {f : AluFn} {i : Instr} {z : Reg} {src v : Word} {s : State}
    (h : f true (s.getReg z) src s = .ok v s) :
    aluReg f i z src s = .next (ended i [s.getReg z, src] [v] (s.setReg z v)) :=
  finish_updateCc (by simp only [bind_of_ok _ h]; rfl)

/-- K and RR, where the function is stuck. -/
theorem aluReg_stuck {f : AluFn} {i : Instr} {z : Reg} {src : Word} {s u : State} {r : Fault}
    (h : f true (s.getReg z) src s = .stuck r u) : aluReg f i z src s = .fault r :=
  finish_stuck (u := u) (by simp only [bind_of_stuck _ h])

/-- ML, where the source can be read and the function goes on. -/
theorem aluLoad_next {f : AluFn} {i : Instr} {z q : Reg} {ae : Bool} {g : BitVec 3} {a : Const} {s : State} {pa : Nat}
    {v : Word} (hr : Readable s (effAddr s q ae a) .data (gCells s g) pa)
    (h : f (gSigned s g) (s.getReg z) (datum s g pa) s = .ok v s) :
    aluLoad f i z q ae g a s =
      .next (ended i [s.getReg z, datum s g pa] [v] (withDisp (s.setReg z v) q ae a)) :=
  finish_updateCc (by rw [bind_of_ok _ (loadSource_readable hr)]; simp only [bind_of_ok _ h]; rfl)

/-- ML, where the source can be read and the function is stuck. -/
theorem aluLoad_stuck {f : AluFn} {i : Instr} {z q : Reg} {ae : Bool} {g : BitVec 3} {a : Const} {s u : State}
    {pa : Nat} {r : Fault} (hr : Readable s (effAddr s q ae a) .data (gCells s g) pa)
    (h : f (gSigned s g) (s.getReg z) (datum s g pa) s = .stuck r u) : aluLoad f i z q ae g a s = .fault r :=
  finish_stuck (u := u) (by rw [bind_of_ok _ (loadSource_readable hr)]; simp only [bind_of_stuck _ h])

/-- A write of `n` cells, where it can be made. -/
theorem memWrite_cells {s s' : State} {va : Word} {bs : List Byte} {m : Mapped} {n : Nat} (hn : bs.length = n)
    (h : Writable s va n m s') : memWrite va bs s = .ok () (s'.written m.pa bs) := by
  subst hn
  exact memWrite_writable h

/-- MS of a bitwise instruction, where its operand can be read, if the function uses it, and written. -/
theorem bitStore_next {f : BitFn} {u : Bool} {i : Instr} {z q : Reg} {ae : Bool} {g : BitVec 3} {a : Const}
    {s s' : State} {pa : Nat} {m : Mapped} {s1 : State} (hs : s1 = withDisp s z ae a)
    (hr : u = true → Readable s1 (effAddr s1 z ae a) .data (gCells s g) pa)
    (hw : Writable s1 (effAddr s1 z ae a) (gCells s g) m s') {t v : BitVec (8 * gCells s g)}
    (ht : t = if u then BitVec.ofNat _ (fromCells (s.mem.readCells pa (gCells s g))) else 0)
    (hv : v = f _ t (s1.getReg q)) :
    bitStore f u i z q ae g a s =
      .next (ended i [t.setWidth 64, s1.getReg q] [v.setWidth 64] (s'.written m.pa (toCells (gCells s g) v.toNat))) := by
  have hm : s1.mem = s.mem := by rw [hs, withDisp_mem]
  have hg : gCells s1 g = gCells s g := by simp [hs, gCells]
  have hb : bitTarget u (effAddr s1 z ae a) (gCells s g) s1 =
      .ok (if u then s.mem.readCells pa (gCells s g) else List.replicate (gCells s g) 0#8) s1 := by
    cases u with
    | true => rw [← hm]; exact memRead_readable (hr rfl)
    | false => rfl
  have hz : ∀ n, fromCells (List.replicate n 0#8) = 0 := fun n => by
    induction n with
    | zero => rfl
    | succ n ih => simp [List.replicate_succ, fromCells, ih]
  have ht' : t = BitVec.ofNat _
      (fromCells (if u then s.mem.readCells pa (gCells s g) else List.replicate (gCells s g) 0#8)) := by
    rw [ht]
    cases u with
    | true => rfl
    | false => simp [hz]
  subst hv ht'
  refine finish_updateCc ?_
  rw [addDisp_bind, ← hs]
  simp only [hg]
  rw [bind_of_ok _ hb]
  rw [bind_of_ok _ (memWrite_cells (toCells_length _ _) hw), hg]

/-- MS of an arithmetic instruction, where its operand can be read and written and the function goes on. -/
theorem arithStore_next {f : AluFn} {i : Instr} {z q : Reg} {ae : Bool} {g : BitVec 3} {a : Const}
    {s s' : State} {pa : Nat} {m : Mapped} {s1 : State} {v : Word} (hs : s1 = withDisp s z ae a)
    (hr : Readable s1 (effAddr s1 z ae a) .data (gCells s g) pa)
    (hw : Writable s1 (effAddr s1 z ae a) (gCells s g) m s')
    (hf : f (gSigned s g) (datum s g pa) (s1.getReg q) s1 = .ok v s1) :
    arithStore f i z q ae g a s =
      .next (ended i [datum s g pa, s1.getReg q] [v] (s'.written m.pa (narrow (gCells s g) v))) := by
  have hm : s1.mem = s.mem := by rw [hs, withDisp_mem]
  have hg : gCells s1 g = gCells s g := by simp [hs, gCells]
  have hs' : gSigned s1 g = gSigned s g := by simp [hs, gSigned]
  refine finish_updateCc ?_
  rw [addDisp_bind, ← hs]
  simp only [hg, hs']
  rw [bind_of_ok _ (memRead_readable hr), hm]
  have hd : widen (gSigned s g) (s.mem.readCells pa (gCells s g)) = datum s g pa := rfl
  rw [hd, bind_of_ok _ hf, bind_of_ok _ (memWrite_cells (narrow_length _ _) hw)]

/-- MS of an arithmetic instruction, where its operand can be read and the function is stuck. -/
theorem arithStore_stuck {f : AluFn} {i : Instr} {z q : Reg} {ae : Bool} {g : BitVec 3} {a : Const}
    {s u : State} {pa : Nat} {s1 : State} {r : Fault} (hs : s1 = withDisp s z ae a)
    (hr : Readable s1 (effAddr s1 z ae a) .data (gCells s g) pa)
    (hf : f (gSigned s g) (datum s g pa) (s1.getReg q) s1 = .stuck r u) :
    arithStore f i z q ae g a s = .fault r := by
  have hm : s1.mem = s.mem := by rw [hs, withDisp_mem]
  have hg : gCells s1 g = gCells s g := by simp [hs, gCells]
  have hs' : gSigned s1 g = gSigned s g := by simp [hs, gSigned]
  refine finish_stuck (u := u) ?_
  rw [addDisp_bind, ← hs]
  simp only [hg, hs']
  rw [bind_of_ok _ (memRead_readable hr), hm]
  unfold datum at hf
  rw [bind_of_stuck _ hf]

/-- A control instruction whose source has been read (R90 to R93). -/
theorem control_next {tgt : Word → Word → Word} {i : Instr} {cond : List Bool} {r : Reg} {source : Act Word} {s : State}
    {src : Word} (h : source s = .ok src s) :
    control tgt i cond r source s =
      .next (if fulfilled cond s.cc then hooked i [src] [tgt s.ip src] ((s.setIp (tgt s.ip src)).setReg r s.ip)
        else trailing i s) := by
  unfold control
  by_cases hc : fulfilled cond s.cc = true
  · have hb : (source.bind fun src => fun s =>
        if fulfilled cond s.cc then
          ((updateCc i [src] [tgt s.ip src]).bind fun _ => .pure true) ((s.setIp (tgt s.ip src)).setReg r s.ip)
        else .ok false s) s = .ok true (hooked i [src] [tgt s.ip src] ((s.setIp (tgt s.ip src)).setReg r s.ip)) := by
      rw [bind_of_ok _ h, if_pos hc]
      rfl
    rw [finish_wrote hb, if_pos hc]
  · have hb : (source.bind fun src => fun s =>
        if fulfilled cond s.cc then
          ((updateCc i [src] [tgt s.ip src]).bind fun _ => .pure true) ((s.setIp (tgt s.ip src)).setReg r s.ip)
        else .ok false s) s = .ok false s := by
      rw [bind_of_ok _ h, if_neg hc]
    rw [finish_ok hb, if_neg hc]
    simp [trailing]

/-- A control instruction whose source raises a condition (R91). -/
theorem control_trap {tgt : Word → Word → Word} {i : Instr} {cond : List Bool} {r : Reg} {source : Act Word} {s t : State}
    {c : Condition} (h : source s = .trap c t) : control tgt i cond r source s = .next (takeTrap c t) :=
  finish_trap (bind_of_trap _ h)

/-- The memory source of a control instruction, where it can be read (R91). -/
theorem mControl_readable {q : Reg} {a : Const} {s : State} {pa : Nat}
    (h : Readable s (s.getReg q + dispOf s a) .data 8 pa) : mControl q a s = .ok (entryAt s.mem pa) s := by
  unfold mControl
  rw [bind_of_ok _ (memRead_readable h)]
  rfl

theorem mControl_trap {q : Reg} {a : Const} {s t : State} {c : Condition}
    (h : memRead (s.getReg q + dispOf s a) 8 .data s = .trap c t) : mControl q a s = .trap c t := bind_of_trap _ h

/-- STR to a register (R101, R104). -/
theorem moveReg_next (i : Instr) (z : Reg) (src : Word) (s : State) :
    moveReg i z src s = .next (ended i [src] [src] (s.setReg z src)) := finish_updateCc rfl

@[simp] theorem savedSr_length (i : Instr) (s : State) : (savedSr i s).length = s.cfg.srLayout.cells := toCells_length _ _

/-- The store of the old SR, where it can be made (R110). -/
theorem saveSr_writable {i : Instr} {wa : Word} {s s' : State} {m : Mapped} (hw : Writable s wa s.cfg.srLayout.cells m s') :
    memWrite wa (savedSr i s) s = .ok () (s'.written m.pa (savedSr i s)) := by
  refine memWrite_writable ?_
  rw [savedSr_length]
  exact hw

/-- BRS, once the old SR is stored, where the new one can be read (R110). -/
theorem contextSwitch_next {i : Instr} {wa ra : Word} {s t : State} {pa : Nat}
    (hw : memWrite wa (savedSr i s) s = .ok () t) (hr : Readable t ra .srload s.cfg.srLayout.cells pa) :
    contextSwitch i wa ra s = .next (t.loadSr (fromCells (t.mem.readCells pa s.cfg.srLayout.cells))) := by
  have hb : ((memWrite wa (savedSr i s)).bind fun _ =>
      (memRead ra s.cfg.srLayout.cells .srload).bind fun bs =>
        (Act.modify fun s1 => s1.loadSr (fromCells bs)).bind fun _ => .pure true) s =
      .ok true (t.loadSr (fromCells (t.mem.readCells pa s.cfg.srLayout.cells))) := by
    rw [bind_of_ok _ hw, bind_of_ok _ (memRead_readable hr), modify_bind, pure_apply]
  exact finish_wrote hb

/-- BRS, once the old SR is stored, where the read of the new one raises a condition (R110, R168). -/
theorem contextSwitch_trap {i : Instr} {wa ra : Word} {s t u : State} {c : Condition}
    (hw : memWrite wa (savedSr i s) s = .ok () t) (hr : memRead ra s.cfg.srLayout.cells .srload t = .trap c u) :
    contextSwitch i wa ra s = .next (takeTrap c u) := by
  unfold contextSwitch
  refine finish_trap ?_
  rw [bind_of_ok _ hw, bind_of_trap _ hr]

/-! USS. -/

/-- A read that starts the watch, without other units: the cells as they read, and they are clean (R105). -/
theorem readWatched_quiet {s : State} {a n : Nat} (hq : Quiet s) (hp : CellsExist s.cfg a n) :
    readWatched a n s = .ok (s.mem.readCells a n) (s.setMon (s.mon.clean a n)) := by
  induction n generalizing a s with
  | zero => rfl
  | succ n ih =>
    obtain ⟨h0, h⟩ := cellsExist_succ.1 hp
    have h1 : Quiet (s.setMon (s.mon.clean a 1)) := hq
    rw [readWatched, bind_of_ok _ (readCell_quiet hq h0), watch, modify_bind, bind_of_ok _ (ih h1 h)]
    rfl

/-- The store of a USS, where after what other units did before it all its cells are clean and exist (R106). -/
theorem storeClean_clean {s : State} {pa : Nat} {bs : List Byte}
    (hc : ∀ k, k < bs.length → lookupKey (pa + k) s.envTick.mon = some .clean)
    (hx : CellsExist s.envTick.cfg pa bs.length) :
    storeClean pa bs s = .ok () ((s.envTick.written pa bs).setMon ((s.envTick.written pa bs).mon.clean pa bs.length)) := by
  simp only [storeClean]
  rw [if_pos ((Monitor.allClean_iff _ _ _).2 hc), (firstAbsent_none _ _ _).2 hx]
  rfl

/-- The store of a USS, where a cell of it is not clean: nothing is written (R106, R166). -/
theorem storeClean_fails {s : State} {pa k : Nat} {bs : List Byte} (hk : k < bs.length)
    (hc : lookupKey (pa + k) s.envTick.mon ≠ some .clean) : storeClean pa bs s = .trap .ussfail s.envTick := by
  simp only [storeClean]
  rw [if_neg fun h => hc ((Monitor.allClean_iff _ _ _).1 h k hk)]

/-- Everything the store of a USS can do. -/
theorem storeClean_cases (pa : Nat) (bs : List Byte) (s : State) :
    (s.envTick.mon.allClean pa bs.length = false ∧ storeClean pa bs s = .trap .ussfail s.envTick) ∨
      (s.envTick.mon.allClean pa bs.length = true ∧ ∃ a, firstAbsent s.envTick.cfg pa bs.length = some a ∧
        storeClean pa bs s = .stuck (.absentCell a) s.envTick) ∨
      (s.envTick.mon.allClean pa bs.length = true ∧ CellsExist s.envTick.cfg pa bs.length ∧ storeClean pa bs s =
        .ok () ((s.envTick.written pa bs).setMon ((s.envTick.written pa bs).mon.clean pa bs.length))) := by
  simp only [storeClean]
  cases hc : s.envTick.mon.allClean pa bs.length
  · exact .inl ⟨rfl, rfl⟩
  · cases hx : firstAbsent s.envTick.cfg pa bs.length with
    | none => exact .inr (.inr ⟨rfl, (firstAbsent_none _ _ _).1 hx, rfl⟩)
    | some a => exact .inr (.inl ⟨rfl, a, rfl, rfl⟩)

theorem Access.storeCells {R : State → State → Prop} (hR : Access R) {s : State} {a : Nat} {bs : List Byte}
    (h : CellsExist s.cfg a bs.length) : R s (s.storeCells a bs) := by
  rw [← storeExisting_exist h]
  exact hR.storeExisting s a bs

section Uss
variable {R : State → State → Prop}

theorem readWatched_within (hR : Access R) (hm : ∀ (s : State) a n, R s (s.setMon (s.mon.clean a n))) (a n : Nat) :
    (readWatched a n).Within R := by
  induction n generalizing a with
  | zero => exact within_pure hR.chains _
  | succ n ih =>
    exact within_bind hR.chains (readCell_within hR.reading a) fun b =>
      within_bind hR.chains (within_modify fun s => hm s a 1) fun _ =>
        within_bind hR.chains (ih _) fun bs => within_pure hR.chains _

theorem storeClean_within (hR : Access R) (hm : ∀ (s : State) a n, R s (s.setMon (s.mon.clean a n))) (a : Nat)
    (bs : List Byte) : (storeClean a bs).Within R := by
  intro s
  rcases storeClean_cases a bs s with ⟨-, h⟩ | ⟨-, x, -, h⟩ | ⟨-, hx, h⟩ <;> rw [h]
  · exact hR.tick s
  · exact hR.tick s
  · exact hR.chains.trans (hR.tick s) (hR.chains.trans (hR.storeCells hx) (hR.chains.trans (hR.signalled _ _ _) (hm _ _ _)))

end Uss

/-! What an instruction keeps. -/

/-- A relation that the parts of an instruction keep, except for the store format of USS. -/
structure Keeps (R : State → State → Prop) (i : Instr) : Prop where
  chains : Chains R
  read : ∀ va n kind, kind ≠ .write → (memRead va n kind).Within R
  watched : isUss i = true → (∀ va n, (unitTranslate va .data n).Within R) ∧ ∀ pa n, (readWatched pa n).Within R
  write : ∀ s s1 va n, storesAt i s = some (s1, va, n) → ∀ va bs, (memWrite va bs).Within R
  dest : ∀ r ∈ destRegs i, ∀ s v, R s (s.setReg r v)
  ip : ∀ s v, R s (s.setIp v)
  hook : ∀ s ops res v, ccUpdate s.cfg i ops res = some v → R s (s.setCc v)
  sr : isBrs i = true → ∀ s img, R s (s.loadSr img)

/-- What an instruction's outcome is to the state before it: a state that `R` relates to it, or the trap of a condition in such a
state (R164). -/
def Ends (R : State → State → Prop) (s t : State) : Prop := ∃ u, R s u ∧ (t = u ∨ ∃ c, t = takeTrap c u)

theorem Ends.mono {R R' : State → State → Prop} {s t : State} (h : Ends R s t) (hi : ∀ u, R s u → R' s u) : Ends R' s t := by
  obtain ⟨u, h1, h2⟩ := h
  exact ⟨u, hi u h1, h2⟩

section Rel
variable {R : State → State → Prop} {i : Instr}

theorem finish_rel (hR : Keeps R i) {body : Act Bool} {s t : State} (hb : body.Within R)
    (h : finish i body s = .next t) : Ends R s t := by
  rcases finish_next h with ⟨w, u, h1, h2⟩ | ⟨c, u, h1, rfl⟩
  · have := hb.ok h1
    refine ⟨t, ?_, .inl rfl⟩
    rw [h2]
    split
    · exact hR.chains.trans this (hR.ip u _)
    · exact this
  · exact ⟨u, hb.trap h1, .inr ⟨c, rfl⟩⟩

theorem updateCc_rel (hR : Keeps R i) (ops res : List Word) : (updateCc i ops res).Within R := by
  refine within_modify fun s => ?_
  change R s (hooked i ops res s)
  rcases hooked_cases i ops res s with h | ⟨v, h1, h2⟩
  · rw [h]; exact hR.chains.refl s
  · rw [h2]; exact hR.hook s ops res v h1

theorem updateCc_pure_rel (hR : Keeps R i) (ops res : List Word) (b : Bool) :
    ((updateCc i ops res).bind fun _ => .pure b).Within R :=
  within_bind hR.chains (updateCc_rel hR ops res) fun _ => within_pure hR.chains b

theorem writeReg_rel (hR : Keeps R i) {r : Reg} (h : r ∈ destRegs i) (v : Word) : (writeReg r v).Within R :=
  within_modify fun s => hR.dest r h s v

theorem addDisp_rel (hR : Keeps R i) {r : Reg} {ae : Bool} (h : ae = true → r ∈ destRegs i) (a : Const) :
    (addDisp r ae a).Within R := by
  refine within_modify fun s => ?_
  cases ae with
  | false => exact hR.chains.refl s
  | true => exact hR.dest r (h rfl) s _

theorem loadSource_rel (hR : Keeps R i) (q : Reg) (ae : Bool) (g : BitVec 3) (a : Const) :
    (loadSource q ae g a).Within R :=
  within_state (m := fun s => (memRead (effAddr s q ae a) (gCells s g) .data).bind fun bs => .pure (widen (gSigned s g) bs))
    fun s => within_bind hR.chains (hR.read _ _ _ (by decide)) fun _ => within_pure hR.chains _

/-- A function of R120 or R140 only computes: it changes no state and raises nothing. -/
def Computes (f : AluFn) : Prop := ∀ b t src s, (∃ v, f b t src s = .ok v s) ∨ ∃ r, f b t src s = .stuck r s

theorem computes_within (hR : Chains R) {f : AluFn} (hf : Computes f) (b : Bool) (t src : Word) :
    (f b t src).Within R := by
  intro s
  rcases hf b t src s with ⟨v, h⟩ | ⟨r, h⟩ <;> rw [h] <;> exact hR.refl s

theorem computes_onWord (f : BitFn) : Computes (onWord f) := fun _ t src _ => .inl ⟨f 64 t src, rfl⟩

theorem computes_gGiv : Computes gGiv := fun _ t src _ => .inl ⟨t + src, rfl⟩

theorem computes_gTac : Computes gTac := fun _ t src _ => .inl ⟨t - src, rfl⟩

theorem computes_gFld : Computes gFld := fun _ t src _ => .inl ⟨t * src, rfl⟩

theorem divide_cases (b : Bool) (x y : Word) (s : State) :
    (y = 0#64 ∧ divide b x y s = .stuck .divideUndefined s) ∨
      (y ≠ 0#64 ∧ divide b x y s =
        .ok (match s.cfg.division with
          | .truncating => quotient b x y
          | .other => Config.otherDiv b x y) s) := by
  unfold divide
  by_cases hy : y = 0#64
  · exact .inl ⟨hy, if_pos hy⟩
  · refine .inr ⟨hy, ?_⟩
    rw [if_neg hy]
    cases s.cfg.division <;> rfl

theorem computes_gCut : Computes gCut := by
  intro b t src s
  have key : ∀ x y, (∃ v, divide b x y s = .ok v s) ∨ ∃ r, divide b x y s = .stuck r s := fun x y => by
    rcases divide_cases b x y s with ⟨_, h⟩ | ⟨_, h⟩
    · exact .inr ⟨_, h⟩
    · exact .inl ⟨_, h⟩
  unfold gCut
  cases s.cfg.cutOrder
  · exact key src t
  · exact key t src

theorem aluReg_rel (hR : Keeps R i) {f : AluFn} (hf : Computes f) {z : Reg} (hz : z ∈ destRegs i) {src : Word} {s t : State}
    (h : aluReg f i z src s = .next t) : Ends R s t := by
  refine finish_rel hR (within_state (m := fun s => (f true (s.getReg z) src).bind fun v =>
      (writeReg z v).bind fun _ => (updateCc i [s.getReg z, src] [v]).bind fun _ => .pure false) fun s => ?_) h
  exact within_bind hR.chains (computes_within hR.chains hf _ _ _) fun v =>
    within_bind hR.chains (writeReg_rel hR hz v) fun _ => updateCc_pure_rel hR _ _ _

theorem aluLoad_rel (hR : Keeps R i) {f : AluFn} (hf : Computes f) {z q : Reg} {ae : Bool} (hz : z ∈ destRegs i)
    (hq : ae = true → q ∈ destRegs i) {g : BitVec 3} {a : Const} {s t : State}
    (h : aluLoad f i z q ae g a s = .next t) : Ends R s t := by
  refine finish_rel hR (within_bind hR.chains (loadSource_rel hR _ _ _ _) fun src =>
    within_state (m := fun s => (f (gSigned s g) (s.getReg z) src).bind fun v =>
      (writeReg z v).bind fun _ =>
        (addDisp q ae a).bind fun _ => (updateCc i [s.getReg z, src] [v]).bind fun _ => .pure false) fun s => ?_) h
  exact within_bind hR.chains (computes_within hR.chains hf _ _ _) fun v =>
    within_bind hR.chains (writeReg_rel hR hz v) fun _ =>
      within_bind hR.chains (addDisp_rel hR hq a) fun _ => updateCc_pure_rel hR _ _ _

theorem bitTarget_rel (hR : Keeps R i) (u : Bool) (va : Word) (n : Nat) : (bitTarget u va n).Within R :=
  within_ite (hR.read _ _ _ (by decide)) (within_pure hR.chains _)

theorem bitStore_rel (hR : Keeps R i) {f : BitFn} {u : Bool} {z q : Reg} {ae : Bool} (hz : ae = true → z ∈ destRegs i)
    (hw : ∀ va bs, (memWrite va bs).Within R) {g : BitVec 3} {a : Const} {s t : State}
    (h : bitStore f u i z q ae g a s = .next t) : Ends R s t := by
  refine finish_rel hR (within_bind hR.chains (addDisp_rel hR hz a) fun _ =>
    within_state (m := fun s => (bitTarget u (effAddr s z ae a) (gCells s g)).bind fun bs =>
      let t := BitVec.ofNat (8 * gCells s g) (fromCells bs)
      let v := f (8 * gCells s g) t (s.getReg q)
      (memWrite (effAddr s z ae a) (toCells (gCells s g) v.toNat)).bind fun _ =>
        (updateCc i [t.setWidth 64, s.getReg q] [v.setWidth 64]).bind fun _ => .pure false) fun s => ?_) h
  exact within_bind hR.chains (bitTarget_rel hR u _ _) fun bs =>
    within_bind hR.chains (hw _ _) fun _ => updateCc_pure_rel hR _ _ _

theorem arithStore_rel (hR : Keeps R i) {f : AluFn} (hf : Computes f) {z q : Reg} {ae : Bool}
    (hz : ae = true → z ∈ destRegs i) (hw : ∀ va bs, (memWrite va bs).Within R) {g : BitVec 3} {a : Const} {s t : State}
    (h : arithStore f i z q ae g a s = .next t) : Ends R s t := by
  refine finish_rel hR (within_bind hR.chains (addDisp_rel hR hz a) fun _ =>
    within_state (m := fun s => (memRead (effAddr s z ae a) (gCells s g) .data).bind fun bs =>
      (f (gSigned s g) (widen (gSigned s g) bs) (s.getReg q)).bind fun v =>
        (memWrite (effAddr s z ae a) (narrow (gCells s g) v)).bind fun _ =>
          (updateCc i [widen (gSigned s g) bs, s.getReg q] [v]).bind fun _ => .pure false) fun s => ?_) h
  exact within_bind hR.chains (hR.read _ _ _ (by decide)) fun bs =>
    within_bind hR.chains (computes_within hR.chains hf _ _ _) fun v =>
      within_bind hR.chains (hw _ _) fun _ => updateCc_pure_rel hR _ _ _

theorem control_rel (hR : Keeps R i) {tgt : Word → Word → Word} {cond : List Bool} {r : Reg} (hr : r ∈ destRegs i)
    {source : Act Word} (hs : source.Within R) {s t : State} (h : control tgt i cond r source s = .next t) : Ends R s t := by
  refine finish_rel hR (within_bind hR.chains hs fun src s => ?_) h
  split
  · exact hR.chains.trans (hR.chains.trans (hR.ip s (tgt s.ip src)) (hR.dest r hr _ s.ip))
      (updateCc_pure_rel hR [src] [tgt s.ip src] true _)
  · exact hR.chains.refl s

theorem mControl_rel (hR : Keeps R i) (q : Reg) (a : Const) : (mControl q a).Within R :=
  within_state (m := fun s => (memRead (s.getReg q + dispOf s a) 8 .data).bind fun bs =>
    .pure (BitVec.ofNat 64 (fromCells bs))) fun _ =>
      within_bind hR.chains (hR.read _ _ _ (by decide)) fun _ => within_pure hR.chains _

theorem moveReg_rel (hR : Keeps R i) {z : Reg} (hz : z ∈ destRegs i) {src : Word} {s t : State}
    (h : moveReg i z src s = .next t) : Ends R s t :=
  finish_rel hR (within_bind hR.chains (writeReg_rel hR hz src) fun _ => updateCc_pure_rel hR _ _ _) h

theorem contextSwitch_rel (hR : Keeps R i) (hb : isBrs i = true) (hw : ∀ va bs, (memWrite va bs).Within R)
    {wa ra : Word} {s t : State} (h : contextSwitch i wa ra s = .next t) : Ends R s t :=
  finish_rel hR (within_bind hR.chains (hw _ _) fun _ =>
    within_bind hR.chains (hR.read _ _ _ (by decide)) fun _ =>
      within_bind hR.chains (within_modify fun s => hR.sr hb s _) fun _ => within_pure hR.chains _) h

end Rel

/-- What the parts of an instruction keep, the instruction keeps, whether it completes or raises a condition. The store format
of USS is `hu`: it writes only where its monitor allows. -/
theorem exec_rel {R : State → State → Prop} {i : Instr} (hR : Keeps R i) {s t : State}
    (hu : (∃ z q g a, i = .ussMS z q g a) → exec i s = .next t → Ends R s t) (h : exec i s = .next t) : Ends R s t := by
  have hw : ∀ {x}, storesAt i s = some x → ∀ va bs, (memWrite va bs).Within R :=
    fun {x} e => hR.write s x.1 x.2.1 x.2.2 e
  cases i with
  | sciK cond r w => exact control_rel hR (by simp [destRegs]) (within_get hR.chains _) h
  | sciBA cond r q a => exact control_rel hR (by simp [destRegs]) (mControl_rel hR q a) h
  | sciRR cond r q => exact control_rel hR (by simp [destRegs]) (within_get hR.chains _) h
  | jmpK cond r w => exact control_rel hR (by simp [destRegs]) (within_get hR.chains _) h
  | jmpBA cond r q a => exact control_rel hR (by simp [destRegs]) (mControl_rel hR q a) h
  | jmpRR cond r q => exact control_rel hR (by simp [destRegs]) (within_get hR.chains _) h
  | lshK z w => exact aluReg_rel hR (computes_onWord _) (by simp [destRegs]) h
  | rnsK z w => exact aluReg_rel hR (computes_onWord _) (by simp [destRegs]) h
  | rfsK z w => exact aluReg_rel hR (computes_onWord _) (by simp [destRegs]) h
  | thrK z w => exact aluReg_rel hR (computes_onWord _) (by simp [destRegs]) h
  | andK z w => exact aluReg_rel hR (computes_onWord _) (by simp [destRegs]) h
  | orK z w => exact aluReg_rel hR (computes_onWord _) (by simp [destRegs]) h
  | notK z w => exact aluReg_rel hR (computes_onWord _) (by simp [destRegs]) h
  | sswK z w => exact aluReg_rel hR (computes_onWord _) (by simp [destRegs]) h
  | lshRR z q => exact aluReg_rel hR (computes_onWord _) (by simp [destRegs]) h
  | rnsRR z q => exact aluReg_rel hR (computes_onWord _) (by simp [destRegs]) h
  | rfsRR z q => exact aluReg_rel hR (computes_onWord _) (by simp [destRegs]) h
  | thrRR z q => exact aluReg_rel hR (computes_onWord _) (by simp [destRegs]) h
  | andRR z q => exact aluReg_rel hR (computes_onWord _) (by simp [destRegs]) h
  | orRR z q => exact aluReg_rel hR (computes_onWord _) (by simp [destRegs]) h
  | notRR z q => exact aluReg_rel hR (computes_onWord _) (by simp [destRegs]) h
  | sswRR z q => exact aluReg_rel hR (computes_onWord _) (by simp [destRegs]) h
  | givK z w => exact aluReg_rel hR computes_gGiv (by simp [destRegs]) h
  | tacK z w => exact aluReg_rel hR computes_gTac (by simp [destRegs]) h
  | fldK z w => exact aluReg_rel hR computes_gFld (by simp [destRegs]) h
  | cutK z w => exact aluReg_rel hR computes_gCut (by simp [destRegs]) h
  | givRR z q => exact aluReg_rel hR computes_gGiv (by simp [destRegs]) h
  | tacRR z q => exact aluReg_rel hR computes_gTac (by simp [destRegs]) h
  | fldRR z q => exact aluReg_rel hR computes_gFld (by simp [destRegs]) h
  | cutRR z q => exact aluReg_rel hR computes_gCut (by simp [destRegs]) h
  | lshML z q ae g a => exact aluLoad_rel hR (computes_onWord _) (by cases ae <;> simp [destRegs]) (by simp +contextual [destRegs]) h
  | rnsML z q ae g a => exact aluLoad_rel hR (computes_onWord _) (by cases ae <;> simp [destRegs]) (by simp +contextual [destRegs]) h
  | rfsML z q ae g a => exact aluLoad_rel hR (computes_onWord _) (by cases ae <;> simp [destRegs]) (by simp +contextual [destRegs]) h
  | thrML z q ae g a => exact aluLoad_rel hR (computes_onWord _) (by cases ae <;> simp [destRegs]) (by simp +contextual [destRegs]) h
  | andML z q ae g a => exact aluLoad_rel hR (computes_onWord _) (by cases ae <;> simp [destRegs]) (by simp +contextual [destRegs]) h
  | orML z q ae g a => exact aluLoad_rel hR (computes_onWord _) (by cases ae <;> simp [destRegs]) (by simp +contextual [destRegs]) h
  | notML z q ae g a => exact aluLoad_rel hR (computes_onWord _) (by cases ae <;> simp [destRegs]) (by simp +contextual [destRegs]) h
  | sswML z q ae g a => exact aluLoad_rel hR (computes_onWord _) (by cases ae <;> simp [destRegs]) (by simp +contextual [destRegs]) h
  | givML z q ae g a => exact aluLoad_rel hR computes_gGiv (by cases ae <;> simp [destRegs]) (by simp +contextual [destRegs]) h
  | tacML z q ae g a => exact aluLoad_rel hR computes_gTac (by cases ae <;> simp [destRegs]) (by simp +contextual [destRegs]) h
  | fldML z q ae g a => exact aluLoad_rel hR computes_gFld (by cases ae <;> simp [destRegs]) (by simp +contextual [destRegs]) h
  | cutML z q ae g a => exact aluLoad_rel hR computes_gCut (by cases ae <;> simp [destRegs]) (by simp +contextual [destRegs]) h
  | lshMS z q ae g a => exact bitStore_rel hR (by simp +contextual [destRegs]) (hw rfl) h
  | rnsMS z q ae g a => exact bitStore_rel hR (by simp +contextual [destRegs]) (hw rfl) h
  | rfsMS z q ae g a => exact bitStore_rel hR (by simp +contextual [destRegs]) (hw rfl) h
  | thrMS z q ae g a => exact bitStore_rel hR (by simp +contextual [destRegs]) (hw rfl) h
  | andMS z q ae g a => exact bitStore_rel hR (by simp +contextual [destRegs]) (hw rfl) h
  | orMS z q ae g a => exact bitStore_rel hR (by simp +contextual [destRegs]) (hw rfl) h
  | notMS z q ae g a => exact bitStore_rel hR (by simp +contextual [destRegs]) (hw rfl) h
  | sswMS z q ae g a => exact bitStore_rel hR (by simp +contextual [destRegs]) (hw rfl) h
  | givMS z q ae g a => exact arithStore_rel hR computes_gGiv (by simp +contextual [destRegs]) (hw rfl) h
  | tacMS z q ae g a => exact arithStore_rel hR computes_gTac (by simp +contextual [destRegs]) (hw rfl) h
  | fldMS z q ae g a => exact arithStore_rel hR computes_gFld (by simp +contextual [destRegs]) (hw rfl) h
  | cutMS z q ae g a => exact arithStore_rel hR computes_gCut (by simp +contextual [destRegs]) (hw rfl) h
  | strK z w => exact moveReg_rel hR (by simp [destRegs]) h
  | strRR z q => exact moveReg_rel hR (by simp [destRegs]) h
  | strML z q ae g a =>
    refine finish_rel hR (within_bind hR.chains (loadSource_rel hR _ _ _ _) fun v => ?_) h
    exact within_bind hR.chains (writeReg_rel hR (by cases ae <;> simp [destRegs]) v) fun _ =>
      within_bind hR.chains (addDisp_rel hR (by simp +contextual [destRegs]) a) fun _ => updateCc_pure_rel hR _ _ _
  | strMS z q ae g a =>
    refine finish_rel hR (within_bind hR.chains (addDisp_rel hR (by simp +contextual [destRegs]) a) fun _ =>
      within_state (m := fun s1 => (memWrite (effAddr s1 z ae a) (narrow (gCells s1 g) (s1.getReg q))).bind fun _ =>
        (updateCc (.strMS z q ae g a) [s1.getReg q] [s1.getReg q]).bind fun _ => .pure false) fun s1 => ?_) h
    exact within_bind hR.chains (hw rfl _ _) fun _ => updateCc_pure_rel hR _ _ _
  | ussML z q g a =>
    refine finish_rel hR (within_bind hR.chains ((hR.watched rfl).1 _ _) fun m => ?_) h
    refine within_bind hR.chains ((hR.watched rfl).2 _ _) fun bs => ?_
    exact within_bind hR.chains (writeReg_rel hR (by simp [destRegs]) _) fun _ => updateCc_pure_rel hR _ _ _
  | ussMS z q g a => exact hu ⟨z, q, g, a, rfl⟩ h
  | brsBA r q a => exact contextSwitch_rel hR rfl (hR.write s _ _ _ rfl) h
  | brsRR r q => exact contextSwitch_rel hR rfl (hR.write s _ _ _ rfl) h
  | udb z q a =>
    refine finish_rel hR (within_bind hR.chains (hR.write s _ _ _ rfl _ _) fun _ => ?_) h
    exact updateCc_pure_rel hR _ _ _

end Sys2Proof.Machine
end

