-- ==== Sys2Proof/Laws/PerInstr.lean ====
section
/-! SUPPORT. One lemma per constructor of Instr (the family OpcodeLength of LAWS.json): the encoding of an instruction has the
length of its format, and the opcode map gives that length for its opcode byte (R70, R81). -/

namespace Sys2Proof.Laws.OpcodeLength

/-- The length of an instruction's encoding is that of its format, and its opcode byte alone says so. -/
def Statement (i : Instr) : Prop :=
  (encode i).length = i.cells ∧ rp1Length ((encode i).headD 0#8) = some i.format.length

theorem sciK (cond : List Bool) (r : Reg) (w : Const) : Statement (.sciK cond r w) := ⟨rfl, by simp [encode, packK, rp1Length]; rfl⟩

theorem sciBA (cond : List Bool) (r : Reg) (q : Reg) (a : Const) : Statement (.sciBA cond r q a) := ⟨rfl, by simp [encode, packBA, rp1Length]; rfl⟩

theorem sciRR (cond : List Bool) (r : Reg) (q : Reg) : Statement (.sciRR cond r q) := ⟨rfl, by simp [encode, packRR, rp1Length]; rfl⟩

theorem jmpK (cond : List Bool) (r : Reg) (w : Const) : Statement (.jmpK cond r w) := ⟨rfl, by simp [encode, packK, rp1Length]; rfl⟩

theorem jmpBA (cond : List Bool) (r : Reg) (q : Reg) (a : Const) : Statement (.jmpBA cond r q a) := ⟨rfl, by simp [encode, packBA, rp1Length]; rfl⟩

theorem jmpRR (cond : List Bool) (r : Reg) (q : Reg) : Statement (.jmpRR cond r q) := ⟨rfl, by simp [encode, packRR, rp1Length]; rfl⟩

theorem lshK (z : Reg) (w : Const) : Statement (.lshK z w) :=
  ⟨rfl, show rp1Length 0xE0#8 = some .four by decide⟩

theorem lshML (z : Reg) (q : Reg) (ae : Bool) (g : BitVec 3) (a : Const) : Statement (.lshML z q ae g a) :=
  ⟨rfl, show rp1Length 0x20#8 = some .four by decide⟩

theorem lshMS (z : Reg) (q : Reg) (ae : Bool) (g : BitVec 3) (a : Const) : Statement (.lshMS z q ae g a) :=
  ⟨rfl, show rp1Length 0xA0#8 = some .four by decide⟩

theorem lshRR (z : Reg) (q : Reg) : Statement (.lshRR z q) :=
  ⟨rfl, show rp1Length 0x60#8 = some .two by decide⟩

theorem rnsK (z : Reg) (w : Const) : Statement (.rnsK z w) :=
  ⟨rfl, show rp1Length 0xE1#8 = some .four by decide⟩

theorem rnsML (z : Reg) (q : Reg) (ae : Bool) (g : BitVec 3) (a : Const) : Statement (.rnsML z q ae g a) :=
  ⟨rfl, show rp1Length 0x21#8 = some .four by decide⟩

theorem rnsMS (z : Reg) (q : Reg) (ae : Bool) (g : BitVec 3) (a : Const) : Statement (.rnsMS z q ae g a) :=
  ⟨rfl, show rp1Length 0xA1#8 = some .four by decide⟩

theorem rnsRR (z : Reg) (q : Reg) : Statement (.rnsRR z q) :=
  ⟨rfl, show rp1Length 0x61#8 = some .two by decide⟩

theorem rfsK (z : Reg) (w : Const) : Statement (.rfsK z w) :=
  ⟨rfl, show rp1Length 0xE2#8 = some .four by decide⟩

theorem rfsML (z : Reg) (q : Reg) (ae : Bool) (g : BitVec 3) (a : Const) : Statement (.rfsML z q ae g a) :=
  ⟨rfl, show rp1Length 0x22#8 = some .four by decide⟩

theorem rfsMS (z : Reg) (q : Reg) (ae : Bool) (g : BitVec 3) (a : Const) : Statement (.rfsMS z q ae g a) :=
  ⟨rfl, show rp1Length 0xA2#8 = some .four by decide⟩

theorem rfsRR (z : Reg) (q : Reg) : Statement (.rfsRR z q) :=
  ⟨rfl, show rp1Length 0x62#8 = some .two by decide⟩

theorem thrK (z : Reg) (w : Const) : Statement (.thrK z w) :=
  ⟨rfl, show rp1Length 0xE3#8 = some .four by decide⟩

theorem thrML (z : Reg) (q : Reg) (ae : Bool) (g : BitVec 3) (a : Const) : Statement (.thrML z q ae g a) :=
  ⟨rfl, show rp1Length 0x23#8 = some .four by decide⟩

theorem thrMS (z : Reg) (q : Reg) (ae : Bool) (g : BitVec 3) (a : Const) : Statement (.thrMS z q ae g a) :=
  ⟨rfl, show rp1Length 0xA3#8 = some .four by decide⟩

theorem thrRR (z : Reg) (q : Reg) : Statement (.thrRR z q) :=
  ⟨rfl, show rp1Length 0x63#8 = some .two by decide⟩

theorem andK (z : Reg) (w : Const) : Statement (.andK z w) :=
  ⟨rfl, show rp1Length 0xE4#8 = some .four by decide⟩

theorem andML (z : Reg) (q : Reg) (ae : Bool) (g : BitVec 3) (a : Const) : Statement (.andML z q ae g a) :=
  ⟨rfl, show rp1Length 0x24#8 = some .four by decide⟩

theorem andMS (z : Reg) (q : Reg) (ae : Bool) (g : BitVec 3) (a : Const) : Statement (.andMS z q ae g a) :=
  ⟨rfl, show rp1Length 0xA4#8 = some .four by decide⟩

theorem andRR (z : Reg) (q : Reg) : Statement (.andRR z q) :=
  ⟨rfl, show rp1Length 0x64#8 = some .two by decide⟩

theorem orK (z : Reg) (w : Const) : Statement (.orK z w) :=
  ⟨rfl, show rp1Length 0xE5#8 = some .four by decide⟩

theorem orML (z : Reg) (q : Reg) (ae : Bool) (g : BitVec 3) (a : Const) : Statement (.orML z q ae g a) :=
  ⟨rfl, show rp1Length 0x25#8 = some .four by decide⟩

theorem orMS (z : Reg) (q : Reg) (ae : Bool) (g : BitVec 3) (a : Const) : Statement (.orMS z q ae g a) :=
  ⟨rfl, show rp1Length 0xA5#8 = some .four by decide⟩

theorem orRR (z : Reg) (q : Reg) : Statement (.orRR z q) :=
  ⟨rfl, show rp1Length 0x65#8 = some .two by decide⟩

theorem notK (z : Reg) (w : Const) : Statement (.notK z w) :=
  ⟨rfl, show rp1Length 0xE6#8 = some .four by decide⟩

theorem notML (z : Reg) (q : Reg) (ae : Bool) (g : BitVec 3) (a : Const) : Statement (.notML z q ae g a) :=
  ⟨rfl, show rp1Length 0x26#8 = some .four by decide⟩

theorem notMS (z : Reg) (q : Reg) (ae : Bool) (g : BitVec 3) (a : Const) : Statement (.notMS z q ae g a) :=
  ⟨rfl, show rp1Length 0xA6#8 = some .four by decide⟩

theorem notRR (z : Reg) (q : Reg) : Statement (.notRR z q) :=
  ⟨rfl, show rp1Length 0x66#8 = some .two by decide⟩

theorem sswK (z : Reg) (w : Const) : Statement (.sswK z w) :=
  ⟨rfl, show rp1Length 0xE7#8 = some .four by decide⟩

theorem sswML (z : Reg) (q : Reg) (ae : Bool) (g : BitVec 3) (a : Const) : Statement (.sswML z q ae g a) :=
  ⟨rfl, show rp1Length 0x27#8 = some .four by decide⟩

theorem sswMS (z : Reg) (q : Reg) (ae : Bool) (g : BitVec 3) (a : Const) : Statement (.sswMS z q ae g a) :=
  ⟨rfl, show rp1Length 0xA7#8 = some .four by decide⟩

theorem sswRR (z : Reg) (q : Reg) : Statement (.sswRR z q) :=
  ⟨rfl, show rp1Length 0x67#8 = some .two by decide⟩

theorem givK (z : Reg) (w : Const) : Statement (.givK z w) :=
  ⟨rfl, show rp1Length 0xE8#8 = some .four by decide⟩

theorem givML (z : Reg) (q : Reg) (ae : Bool) (g : BitVec 3) (a : Const) : Statement (.givML z q ae g a) :=
  ⟨rfl, show rp1Length 0x28#8 = some .four by decide⟩

theorem givMS (z : Reg) (q : Reg) (ae : Bool) (g : BitVec 3) (a : Const) : Statement (.givMS z q ae g a) :=
  ⟨rfl, show rp1Length 0xA8#8 = some .four by decide⟩

theorem givRR (z : Reg) (q : Reg) : Statement (.givRR z q) :=
  ⟨rfl, show rp1Length 0x68#8 = some .two by decide⟩

theorem tacK (z : Reg) (w : Const) : Statement (.tacK z w) :=
  ⟨rfl, show rp1Length 0xE9#8 = some .four by decide⟩

theorem tacML (z : Reg) (q : Reg) (ae : Bool) (g : BitVec 3) (a : Const) : Statement (.tacML z q ae g a) :=
  ⟨rfl, show rp1Length 0x29#8 = some .four by decide⟩

theorem tacMS (z : Reg) (q : Reg) (ae : Bool) (g : BitVec 3) (a : Const) : Statement (.tacMS z q ae g a) :=
  ⟨rfl, show rp1Length 0xA9#8 = some .four by decide⟩

theorem tacRR (z : Reg) (q : Reg) : Statement (.tacRR z q) :=
  ⟨rfl, show rp1Length 0x69#8 = some .two by decide⟩

theorem fldK (z : Reg) (w : Const) : Statement (.fldK z w) :=
  ⟨rfl, show rp1Length 0xEA#8 = some .four by decide⟩

theorem fldML (z : Reg) (q : Reg) (ae : Bool) (g : BitVec 3) (a : Const) : Statement (.fldML z q ae g a) :=
  ⟨rfl, show rp1Length 0x2A#8 = some .four by decide⟩

theorem fldMS (z : Reg) (q : Reg) (ae : Bool) (g : BitVec 3) (a : Const) : Statement (.fldMS z q ae g a) :=
  ⟨rfl, show rp1Length 0xAA#8 = some .four by decide⟩

theorem fldRR (z : Reg) (q : Reg) : Statement (.fldRR z q) :=
  ⟨rfl, show rp1Length 0x6A#8 = some .two by decide⟩

theorem cutK (z : Reg) (w : Const) : Statement (.cutK z w) :=
  ⟨rfl, show rp1Length 0xEB#8 = some .four by decide⟩

theorem cutML (z : Reg) (q : Reg) (ae : Bool) (g : BitVec 3) (a : Const) : Statement (.cutML z q ae g a) :=
  ⟨rfl, show rp1Length 0x2B#8 = some .four by decide⟩

theorem cutMS (z : Reg) (q : Reg) (ae : Bool) (g : BitVec 3) (a : Const) : Statement (.cutMS z q ae g a) :=
  ⟨rfl, show rp1Length 0xAB#8 = some .four by decide⟩

theorem cutRR (z : Reg) (q : Reg) : Statement (.cutRR z q) :=
  ⟨rfl, show rp1Length 0x6B#8 = some .two by decide⟩

theorem strK (z : Reg) (w : Const) : Statement (.strK z w) :=
  ⟨rfl, show rp1Length 0xF0#8 = some .four by decide⟩

theorem strML (z : Reg) (q : Reg) (ae : Bool) (g : BitVec 3) (a : Const) : Statement (.strML z q ae g a) :=
  ⟨rfl, show rp1Length 0x30#8 = some .four by decide⟩

theorem strMS (z : Reg) (q : Reg) (ae : Bool) (g : BitVec 3) (a : Const) : Statement (.strMS z q ae g a) :=
  ⟨rfl, show rp1Length 0xB0#8 = some .four by decide⟩

theorem strRR (z : Reg) (q : Reg) : Statement (.strRR z q) :=
  ⟨rfl, show rp1Length 0x70#8 = some .two by decide⟩

theorem ussML (z : Reg) (q : Reg) (g : BitVec 3) (a : Const) : Statement (.ussML z q g a) :=
  ⟨rfl, show rp1Length 0x31#8 = some .four by decide⟩

theorem ussMS (z : Reg) (q : Reg) (g : BitVec 3) (a : Const) : Statement (.ussMS z q g a) :=
  ⟨rfl, show rp1Length 0xB1#8 = some .four by decide⟩

theorem brsBA (r : Reg) (q : Reg) (a : Const) : Statement (.brsBA r q a) :=
  ⟨rfl, show rp1Length 0x32#8 = some .four by decide⟩

theorem brsRR (r : Reg) (q : Reg) : Statement (.brsRR r q) :=
  ⟨rfl, show rp1Length 0x72#8 = some .two by decide⟩

theorem udb (z : Reg) (q : Reg) (a : Const) : Statement (.udb z q a) :=
  ⟨rfl, show rp1Length 0xB2#8 = some .four by decide⟩

end Sys2Proof.Laws.OpcodeLength
end

