-- ==== Sys2Proof/Machine/Assembly.lean ====
section
/-! DEFINITION. The assembler syntax of the spec (R84, D32): how an instruction is written. No step uses it. -/

namespace Sys2Proof.Machine

/-- rN. -/
def regText (r : Reg) : String := "r" ++ r.val.repr

/-- A decimal number. -/
def intText (v : Int) : String := v.repr

/-- #v, the constant W as its extension reads. -/
def constText (e : Ext) (w : Const) : String := "#" ++ intText (extend e w).toInt

/-- The value of A. -/
def dispText (c : Config) (a : Const) : String := intText (extend c.aExt a).toInt

/-- A(rN). -/
def memText (c : Config) (r : Reg) (a : Const) : String := dispText c a ++ "(" ++ regText r ++ ")"

/-- The memory operand of a load form: A(rN), or (rN)+A where Ä = 1. -/
def loadText (c : Config) (r : Reg) (ae : Bool) (a : Const) : String :=
  if ae then "(" ++ regText r ++ ")+" ++ dispText c a else memText c r a

/-- The memory operand of a store form: A(rN), or A+(rN) where Ä = 1. -/
def storeText (c : Config) (r : Reg) (ae : Bool) (a : Const) : String :=
  if ae then dispText c a ++ "+(" ++ regText r ++ ")" else memText c r a

/-- The suffix that gives G. -/
def gText (c : Config) (g : BitVec 3) : String :=
  (if (formatOf c g).signed then ".z" else ".u") ++ (formatOf c g).cells.repr

/-- One binary digit. -/
def bitText (b : Bool) : String := if b then "1" else "0"

/-- The suffix that gives cond, its first digit the first bit. -/
def condText (cond : List Bool) : String := cond.foldl (fun t b => t ++ bitText b) "."

/-- A mnemonic and its two operands, the target first. -/
def lineText (m a b : String) : String := m ++ " " ++ a ++ ", " ++ b

/-- Format K. -/
def textK (m : String) (e : Ext) (z : Reg) (w : Const) : String := lineText m (regText z) (constText e w)

/-- Format ML. -/
def textML (m : String) (c : Config) (z q : Reg) (ae : Bool) (g : BitVec 3) (a : Const) : String :=
  lineText (m ++ gText c g) (regText z) (loadText c q ae a)

/-- Format MS. -/
def textMS (m : String) (c : Config) (z q : Reg) (ae : Bool) (g : BitVec 3) (a : Const) : String :=
  lineText (m ++ gText c g) (storeText c z ae a) (regText q)

/-- Format RR. -/
def textRR (m : String) (z q : Reg) : String := lineText m (regText z) (regText q)

/-- Format BA. -/
def textBA (m : String) (c : Config) (r q : Reg) (a : Const) : String := lineText m (regText r) (memText c q a)

/-- How an instruction is written (R84). -/
def asmText (c : Config) : Instr → String
  | .sciK cond r w => textK ("SCI" ++ condText cond) c.wExtControl r w
  | .sciBA cond r q a => textBA ("SCI" ++ condText cond) c r q a
  | .sciRR cond r q => textRR ("SCI" ++ condText cond) r q
  | .jmpK cond r w => textK ("JMP" ++ condText cond) c.wExtControl r w
  | .jmpBA cond r q a => textBA ("JMP" ++ condText cond) c r q a
  | .jmpRR cond r q => textRR ("JMP" ++ condText cond) r q
  | .lshK z w => textK "LSH" c.wExtBitwise z w
  | .lshML z q ae g a => textML "LSH" c z q ae g a
  | .lshMS z q ae g a => textMS "LSH" c z q ae g a
  | .lshRR z q => textRR "LSH" z q
  | .rnsK z w => textK "RNS" c.wExtBitwise z w
  | .rnsML z q ae g a => textML "RNS" c z q ae g a
  | .rnsMS z q ae g a => textMS "RNS" c z q ae g a
  | .rnsRR z q => textRR "RNS" z q
  | .rfsK z w => textK "RFS" c.wExtBitwise z w
  | .rfsML z q ae g a => textML "RFS" c z q ae g a
  | .rfsMS z q ae g a => textMS "RFS" c z q ae g a
  | .rfsRR z q => textRR "RFS" z q
  | .thrK z w => textK "THR" c.wExtBitwise z w
  | .thrML z q ae g a => textML "THR" c z q ae g a
  | .thrMS z q ae g a => textMS "THR" c z q ae g a
  | .thrRR z q => textRR "THR" z q
  | .andK z w => textK "AND" c.wExtBitwise z w
  | .andML z q ae g a => textML "AND" c z q ae g a
  | .andMS z q ae g a => textMS "AND" c z q ae g a
  | .andRR z q => textRR "AND" z q
  | .orK z w => textK "OR" c.wExtBitwise z w
  | .orML z q ae g a => textML "OR" c z q ae g a
  | .orMS z q ae g a => textMS "OR" c z q ae g a
  | .orRR z q => textRR "OR" z q
  | .notK z w => textK "NOT" c.wExtBitwise z w
  | .notML z q ae g a => textML "NOT" c z q ae g a
  | .notMS z q ae g a => textMS "NOT" c z q ae g a
  | .notRR z q => textRR "NOT" z q
  | .sswK z w => textK "SSW" .zero z w
  | .sswML z q ae g a => textML "SSW" c z q ae g a
  | .sswMS z q ae g a => textMS "SSW" c z q ae g a
  | .sswRR z q => textRR "SSW" z q
  | .givK z w => textK "GIV" .sign z w
  | .givML z q ae g a => textML "GIV" c z q ae g a
  | .givMS z q ae g a => textMS "GIV" c z q ae g a
  | .givRR z q => textRR "GIV" z q
  | .tacK z w => textK "TAC" .sign z w
  | .tacML z q ae g a => textML "TAC" c z q ae g a
  | .tacMS z q ae g a => textMS "TAC" c z q ae g a
  | .tacRR z q => textRR "TAC" z q
  | .fldK z w => textK "FLD" .sign z w
  | .fldML z q ae g a => textML "FLD" c z q ae g a
  | .fldMS z q ae g a => textMS "FLD" c z q ae g a
  | .fldRR z q => textRR "FLD" z q
  | .cutK z w => textK "CUT" .sign z w
  | .cutML z q ae g a => textML "CUT" c z q ae g a
  | .cutMS z q ae g a => textMS "CUT" c z q ae g a
  | .cutRR z q => textRR "CUT" z q
  | .strK z w => textK "STR" c.wExtMove z w
  | .strML z q ae g a => textML "STR" c z q ae g a
  | .strMS z q ae g a => textMS "STR" c z q ae g a
  | .strRR z q => textRR "STR" z q
  | .ussML z q g a => textML "USS" c z q false g a
  | .ussMS z q g a => textMS "USS" c z q false g a
  | .brsBA r q a => textBA "BRS" c r q a
  | .brsRR r q => textRR "BRS" r q
  | .udb z q a => lineText "UDB" (memText c z a) (regText q)

end Sys2Proof.Machine
end

