-- ==== Sys2Proof/Tests/Slice0.lean ====
section
/-! SUPPORT. Tests, each about one operation or one step on a small state. Their expected results are the worked examples of the
rules and the vectors of `95_test_vectors.md`, named in each comment. After them, for each statement with hypotheses, a theorem
that shows a state and operands that meet all of them. -/

open Sys2Proof Sys2Proof.Machine Sys2Proof.Claims

namespace Sys2Proof.Tests

set_option Elab.async false

/-! Helpers. -/

/-- A state whose memory also holds these cells. -/
def put (s : State) (a : Nat) (bs : List Byte) : State := { s with mem := s.mem.writeCells a bs }

/-- A state whose memory also holds this 64-string. -/
def put8 (s : State) (a v : Nat) : State := put s a (toCells 8 v)

/-- A state with another value in a data register. -/
def reg (s : State) (r : Reg) (v : Nat) : State := s.setReg r (BitVec.ofNat 64 v)

/-- Image ID of the vectors: SR.R = 0x40 and root entry 0 = 1E, so that addresses below 2^57 are their own translation. IP is
0x1000, and the data of section 3.4 stand at 0x3000. -/
def imageId : State :=
  put8 (put8 (put8 { State.reset with root := 0x40, ip := 0x1000#64 } 0x10000 0x1E) 0x3000 0x80FF7F0180000001)
    0x3008 0x1122334455667788

/-- Image FT of the vectors, as far as the tests use it: a walk down six levels, a key and its gate. IP is 0x200010. -/
def imageFt : State :=
  [(0x10000, 0x11080), (0x11000, 0x12080), (0x12000, 0x13080), (0x13000, 0x14080), (0x14008, 0x15080), (0x15000, 0x20012),
    (0x15008, 0x3001C), (0x15010, 0x1600D), (0x15018, 0x16005), (0x15028, 0x3203C), (0x15030, 0x3301C), (0x15038, 0x33010),
    (0x16000, 0x31080)].foldl (fun s e => put8 s e.1 e.2) { State.reset with root := 0x40, ip := 0x200010#64 }

/-- The outcome is a next state that meets `p`. -/
def nextIs (o : Host.Outcome State Fault Refusal) (p : State → Bool) : Bool :=
  match o with
  | .next s => p s
  | .fault _ => false
  | .refused _ => false

/-- The pseudocode goes on in a state that meets `p`. -/
def okIs {α : Type} (r : Res α) (p : α → State → Bool) : Bool :=
  match r with
  | .ok a s => p a s
  | .trap _ _ => false
  | .stuck _ _ => false

/-- The pseudocode raises a condition, in a state that meets `p`. -/
def trapIs {α : Type} (r : Res α) (p : Condition → State → Bool) : Bool :=
  match r with
  | .ok _ _ => false
  | .trap c s => p c s
  | .stuck _ _ => false

/-- The pseudocode is stuck. -/
def stuckIs {α : Type} (r : Res α) (p : Fault → State → Bool) : Bool :=
  match r with
  | .ok _ _ => false
  | .trap _ _ => false
  | .stuck f s => p f s

theorem nextIs_exists {o : Host.Outcome State Fault Refusal} {p : State → Bool} (h : nextIs o p = true) :
    ∃ t, o = .next t ∧ p t = true := by
  cases o with
  | next t => exact ⟨t, rfl, h⟩
  | fault r => cases h
  | refused r => cases h

theorem okIs_exists {α : Type} {r : Res α} {p : α → State → Bool} (h : okIs r p = true) :
    ∃ a t, r = .ok a t ∧ p a t = true := by
  cases r with
  | ok a t => exact ⟨a, t, rfl, h⟩
  | trap c t => cases h
  | stuck r t => cases h

theorem trapIs_exists {α : Type} {r : Res α} {p : Condition → State → Bool} (h : trapIs r p = true) :
    ∃ c t, r = .trap c t ∧ p c t = true := by
  cases r with
  | ok a t => cases h
  | trap c t => exact ⟨c, t, rfl, h⟩
  | stuck r t => cases h

theorem cellsExist_standard {c : Config} {pa n : Nat} (hc : c.physCells = 2 ^ 64) (h : pa + n ≤ 2 ^ 64) :
    CellsExist c pa n := by
  intro k hk
  simp only [populated, hc, decide_eq_true_eq]
  omega

/-- `Readable` by evaluation. -/
theorem readable_of {s : State} {va : Word} {kind : AccessKind} {n pa : Nat} (he : s.env = []) (hc : s.cfg.physCells = 2 ^ 64)
    (h : okIs (unitTranslate va kind n s) (fun m t => decide (m.pa = pa ∧ t = s)) = true) (hp : pa + n ≤ 2 ^ 64) :
    Readable s va kind n pa := by
  obtain ⟨m, t, h1, h2⟩ := okIs_exists h
  simp only [decide_eq_true_eq] at h2
  obtain ⟨h2, rfl⟩ := h2
  exact ⟨he, ⟨m, h1, h2⟩, cellsExist_standard hc hp⟩

/-- `Writable` by evaluation. -/
theorem writable_of {s : State} {va : Word} {n pa : Nat} (he : s.env = []) (hc : s.cfg.physCells = 2 ^ 64)
    (h : okIs (unitTranslate va .write n s) (fun m _ => decide (m.pa = pa)) = true) (hp : pa + n ≤ 2 ^ 64) :
    ∃ m t, Writable s va n m t ∧ m.pa = pa := by
  obtain ⟨m, t, h1, h2⟩ := okIs_exists h
  simp only [decide_eq_true_eq] at h2
  exact ⟨m, t, ⟨he, h1, h2 ▸ cellsExist_standard hc hp⟩, h2⟩

/-- One step of image ID, changed by `f`, with these cells at 0x1000, ends in a next state that meets `p`. -/
def stepId (cells : List Byte) (f : State → State) (p : State → Bool) : Bool := nextIs (step (put (f imageId) 0x1000 cells)) p

/-! ## Well-formedness -/

/-- R11, R75: UDB names the first register of an even-odd pair, so an odd `q` has no encoding. -/
theorem test_wellFormed_udb_odd : WellFormed (.udb 3 5 ⟨16, 16#16⟩) = false := by decide

/-- R79: a condition that does not fill the field {5..8}. -/
theorem test_wellFormed_cond : [.sciK [true] 0 ⟨16, 0#16⟩, .sciBA [] 0 0 ⟨16, 0#16⟩, .sciRR [true, true, true] 0 0,
    .jmpK [true, true, true, true, true] 0 ⟨16, 0#16⟩, .jmpBA [] 0 0 ⟨16, 0#16⟩, .jmpRR [] 0 0].map WellFormed = List.replicate 6 false := by
  decide

/-- R78: constants that do not fill the field of their format. -/
theorem test_wellFormed_width : [.strK 1 ⟨20, 0#20⟩, .givML 1 2 false 0 ⟨16, 0#16⟩, .andMS 1 2 false 0 ⟨16, 0#16⟩, .ussMS 1 2 0 ⟨16, 0#16⟩,
    .brsBA 1 2 ⟨12, 0#12⟩, .udb 1 2 ⟨12, 0#12⟩].map WellFormed = List.replicate 6 false := by decide

theorem test_wellFormed_udb_even : WellFormed (.udb 3 14 ⟨16, 16#16⟩) = true := by decide

/-! ## Decoding: words written from the format figures and the opcode map -/

/-- S13: opcode 10110001, Z = 0010, Q = 0001, 0, G = 011, A = 0. -/
theorem test_decode_uss_store :
    decode (toCells 4 0b10110001_0010_0001_0_011_000000000000) = .ok (.ussMS 2 1 3#3 ⟨12, 0#12⟩, []) := by decide

/-- S16: opcode 10110010, Z = 0011, Q = 010, 0, A = 16. -/
theorem test_decode_udb : decode (toCells 4 0b10110010_0011_010_0_0000000000010000) = .ok (.udb 3 4 ⟨16, 16#16⟩, []) := by decide

/-- R74: opcode 00110010, R = 0001, Q = 0010, A = 16. -/
theorem test_decode_brs : decode (toCells 4 0b00110010_0001_0010_0000000000010000) = .ok (.brsBA 1 2 ⟨16, 16#16⟩, []) := by decide

/-- R72: opcode 01110010, R = 0001, Q = 0010. -/
theorem test_decode_brs_reg : decode (toCells 2 0b01110010_0001_0010) = .ok (.brsRR 1 2, []) := by decide

/-- R73: opcode 00110000, Z = 0001, Q = 0010, Ä = 1, G = 101, A = 2. -/
theorem test_decode_str_load :
    decode (toCells 4 0b00110000_0001_0010_1_101_000000000010) = .ok (.strML 1 2 true 5#3 ⟨12, 2#12⟩, []) := by decide

/-- R79: opcode 11 00 1111, R = 1110, 0000, W = 6. -/
theorem test_decode_sci : decode (toCells 4 0b11001111_1110_0000_0000000000000110) = .ok (.sciK [true, true, true, true] 14 ⟨16, 6#16⟩, []) := by decide

/-- R79: opcode 01 01 1000, R = 1110, Q = 0011. -/
theorem test_decode_jmp : decode (toCells 2 0b01011000_1110_0011) = .ok (.jmpRR [true, false, false, false] 14 3, []) := by decide

/-- R76: opcode 11 10 0001, Z = 0001, 0000, W = 4. -/
theorem test_decode_rns : decode (toCells 4 0b11100001_0001_0000_0000000000000100) = .ok (.rnsK 1 ⟨16, 4#16⟩, []) := by decide

/-- R73: opcode 10 10 0010, Z = 0010, Q = 0001, Ä = 0, G = 001, A = 0. -/
theorem test_decode_rfs_store :
    decode (toCells 4 0b10100010_0010_0001_0_001_000000000000) = .ok (.rfsMS 2 1 false 1#3 ⟨12, 0#12⟩, []) := by decide

/-- R72: opcode 01 10 1001, Z = 0001, Q = 0010. -/
theorem test_decode_tac : decode (toCells 2 0b01101001_0001_0010) = .ok (.tacRR 1 2, []) := by decide

/-- A5: USS with bit {17} = 1. -/
theorem test_decode_uss_bit17 : decode [0x31#8, 0x12#8, 0x80#8, 0x00#8] = .error .constantBits := by decide

/-- U2v: UDB with bit {16} = 1. -/
theorem test_decode_udb_bit16 : decode [0xB2#8, 0x35#8, 0x00#8, 0x10#8] = .error .constantBits := by decide

/-- R82: a constant format with {13..16} not 0000. -/
theorem test_decode_k_constant : decode [0xF0#8, 0x11#8, 0x00#8, 0x05#8] = .error .constantBits := by decide

/-- R82: opcode bytes 80, 71, EC and 73. -/
theorem test_decode_unknown :
    [0x80#8, 0x71#8, 0xEC#8, 0x73#8].map (fun op => decode [op, 0#8, 0#8, 0#8]) =
      List.replicate 4 (.error .unknownOpcode) := by decide

theorem test_decode_truncated : decode [0xF0#8, 0x10#8, 0x00#8] = .error .truncated := by decide

/-- The examples of R84. -/
theorem test_asmText : [.strK 1 ⟨16, 5#16⟩, .strML 1 2 false 3#3 ⟨12, 8#12⟩, .strMS 15 1 true 3#3 ⟨12, 0xFF8#12⟩, .givRR 1 2, .jmpRR [true, true, true, true] 0 14,
      .brsBA 1 2 ⟨16, 16#16⟩, .brsRR 1 2, .udb 3 4 ⟨16, 0#16⟩].map (asmText Config.standard) =
    ["STR r1, #5", "STR.u8 r1, 8(r2)", "STR.u8 -8+(r15), r1", "GIV r1, r2", "JMP.1111 r0, r14", "BRS r1, 16(r2)",
      "BRS r1, r2", "UDB 0(r3), r4"] := by decide +kernel

/-- R85: SCI.0000 r0, #0 changes nothing but IP. -/
theorem test_no_operation : stepId [0xC0#8, 0x00#8, 0x00#8, 0x00#8] id
    (fun s => s == { put imageId 0x1000 [0xC0#8, 0x00#8, 0x00#8, 0x00#8] with ip := 0x1004#64 }) = true := by decide +kernel

/-! ## Formats and translation -/

/-- V1: the cells of a 64-string. -/
theorem test_byte_order : toCells 8 0x0123456789ABCDEF =
    [0x01#8, 0x23#8, 0x45#8, 0x67#8, 0x89#8, 0xAB#8, 0xCD#8, 0xEF#8] := by decide

/-- T1, T2 and T7: six levels, a descriptor and a key; the M bit of the descriptor and of the gate. -/
theorem test_translate_descriptor :
    okIs (unitTranslate 0x201234#64 .write 1 imageFt)
      (fun m t => m.pa == 0x30234 && m.holder == 0x15008 && t.mem.read 0x1500F == 0x5C#8) = true := by decide +kernel

theorem test_translate_key :
    okIs (unitTranslate 0x202008#64 .write 1 imageFt)
      (fun m t => m.pa == 0x31008 && t.mem.read 0x16007 == 0xC0#8 && t.mem.read 0x15017 == 0x0D#8) = true := by decide +kernel

/-- T3, T10, T11, T12: X = 0; a read-only key; swapped; permission before S. -/
theorem test_translate_conditions :
    trapIs (unitTranslate 0x201234#64 .instr 2 imageFt) (fun c _ => c == .zee) = true ∧
    trapIs (unitTranslate 0x203008#64 .write 1 imageFt) (fun c _ => c == .zee) = true ∧
    trapIs (unitTranslate 0x205000#64 .data 1 imageFt) (fun c _ => c == .zsw) = true ∧
    trapIs (unitTranslate 0x205000#64 .instr 2 imageFt) (fun c _ => c == .zee) = true := by decide +kernel

/-- T13, T19: an SR image's frame; an unused slot of the root table. -/
theorem test_translate_srload :
    okIs (unitTranslate 0x207020#64 .srload 16 imageFt) (fun m _ => m.pa == 0x33020) = true ∧
    trapIs (unitTranslate 0x0200000000000000#64 .data 1 imageFt) (fun c _ => c == .zee) = true := by decide +kernel

/-! ## Control -/

/-- K1. -/
theorem test_sci : stepId [0xCF#8, 0xE0#8, 0x00#8, 0x06#8] id
    (fun s => s.ip == 0x100A#64 && s.getReg 14 == 0x1004#64) = true := by decide +kernel

/-- K2: cond = 0000. -/
theorem test_sci_never : stepId [0xC0#8, 0xE0#8, 0x00#8, 0x06#8] id
    (fun s => s.ip == 0x1004#64 && s.getReg 14 == 0#64) = true := by decide +kernel

/-- K6. -/
theorem test_jmp_memory : stepId [0x1F#8, 0xE2#8, 0x00#8, 0x08#8] (reg · 2 0x3000)
    (fun s => s.ip == 0x1122334455667788#64 && s.getReg 14 == 0x1004#64) = true := by decide +kernel

/-- K7: the read is made although the condition is false. -/
theorem test_jmp_reads_first : stepId [0x10#8, 0xE2#8, 0x70#8, 0x00#8] (reg · 2 0x7FFFFFFF00000000)
    (fun s => s.trapped == some .zee && s.ip == 0x1004#64 && s.getReg 14 == 0#64) = true := by decide +kernel

/-- K8. -/
theorem test_jmp_same_register : stepId [0x5F#8, 0xEE#8] (reg · 14 0x2000)
    (fun s => s.ip == 0x2000#64 && s.getReg 14 == 0x1002#64) = true := by decide +kernel

/-- K9, K10: the first bit of cond designates C = 0, the second C = 1. -/
theorem test_jmp_condition :
    stepId [0x58#8, 0xE3#8] (reg · 3 0x2000) (fun s => s.ip == 0x2000#64) = true ∧
    stepId [0x54#8, 0xE3#8] (reg · 3 0x2000) (fun s => s.ip == 0x1002#64) = true := by decide +kernel

/-- K13. -/
theorem test_jmp_stops : stepId [0xDF#8, 0x50#8, 0x00#8, 0x01#8] id
    (fun s => s.ip == 1#64 && s.stopped && s.getReg 5 == 0x1004#64) = true := by decide +kernel

/-! ## STR, USS, BRS, UDB -/

/-- M2. -/
theorem test_str_constant : stepId [0xF0#8, 0x10#8, 0x80#8, 0x00#8] id
    (fun s => s.getReg 1 == 0xFFFFFFFFFFFF8000#64) = true := by decide +kernel

/-- M14. -/
theorem test_str_load_update : stepId [0x30#8, 0x12#8, 0xE0#8, 0x04#8] (reg · 2 0x3004)
    (fun s => s.getReg 1 == 0xFFFFFFFF80000001#64 && s.getReg 2 == 0x3008#64) = true := by decide +kernel

/-- M15: Z = Q. -/
theorem test_str_load_same : stepId [0x30#8, 0x22#8, 0x80#8, 0x04#8] (reg · 2 0x3000)
    (fun s => s.getReg 2 == 0x84#64) = true := by decide +kernel

/-- M17, and the M bit of the root entry. -/
theorem test_str_store : stepId [0xB0#8, 0x21#8, 0x10#8, 0x08#8] (fun s => reg (reg s 1 0xA1B2C3D4E5F60718) 2 0x3000)
    (fun s => s.mem.readCells 0x3008 4 == [0x07#8, 0x18#8, 0x33#8, 0x44#8] && s.mem.read 0x10007 == 0x5E#8) = true := by
  decide +kernel

/-- M22: Z = Q, the value stored is the updated register. -/
theorem test_str_store_same : stepId [0xB0#8, 0x22#8, 0xB0#8, 0x08#8] (reg · 2 0x3000)
    (fun s => s.getReg 2 == 0x3008#64 && s.mem.readCells 0x300E 2 == [0x30#8, 0x08#8]) = true := by decide +kernel

/-- Section 3.4: the register update stands although the write is not allowed. -/
theorem test_str_store_trapped :
    nextIs (exec (.strMS 15 1 true 3#3 ⟨12, 0xFF8#12⟩) (reg imageFt 15 0x203008))
      (fun s => s.trapped == some .zee && s.getReg 15 == 0x203000#64) = true := by decide +kernel

/-- A1: the store of a USS pair succeeds; A3: without a load it is USSFAIL. -/
theorem test_uss_pair :
    nextIs (exec (.ussMS 2 1 3#3 ⟨12, 0#12⟩)
        { reg (reg imageId 2 0x3000) 1 107 with mon := Monitor.clean [] 0x3000 8 })
      (fun s => s.trapped == none && s.mem.read 0x3007 == 107#8 && s.mon.allClean 0x3000 8) = true ∧
    nextIs (exec (.ussMS 2 1 3#3 ⟨12, 0#12⟩) (reg imageId 2 0x3000))
      (fun s => s.trapped == some .ussfail && s.mem.read 0x3007 == 0x01#8) = true := by decide +kernel

theorem test_uss_load : nextIs (exec (.ussML 4 2 3#3 ⟨12, 0#12⟩) (reg imageId 2 0x3000))
    (fun s => s.getReg 4 == 0x80FF7F0180000001#64 && s.mon.allClean 0x3000 8 && lookupKey 0x3008 s.mon == none) = true := by
  decide +kernel

/-- B1v. -/
theorem test_brs :
    nextIs (step (put (put (reg (reg imageFt 1 0x206000) 2 0x207000) 0x20010 [0x32#8, 0x12#8, 0x00#8, 0x20#8]) 0x33020
        (toCells 16 0x00000000000100020000000000200100)))
      (fun s => s.root == 0x40 && s.cc == 2#2 && s.ip == 0x200100#64 &&
        s.mem.readCells 0x33000 16 == toCells 16 0x00000000000100000000000000200014 && s.mem.read 0x15037 == 0x5C#8) =
      true := by decide +kernel

/-- B2v: the save is made, then ZEE at the read. -/
theorem test_brs_trapped :
    nextIs (step (put { reg imageFt 1 0x206000 with ip := 0x200008#64 } 0x20008 [0x72#8, 0x11#8]))
      (fun s => s.trapped == some .zee && s.ip == 0x20000A#64 &&
        s.mem.readCells 0x33000 16 == toCells 16 0x0000000000010000000000000020000A) = true := by decide +kernel

/-- U1v, with and without a gate at 0x3010. -/
theorem test_udb : stepId [0xB2#8, 0x34#8, 0x00#8, 0x10#8]
    (fun s => { reg (reg (reg s 3 0x3000) 4 0x10000) 5 0x201000 with cfg := { Config.standard with gates := [(0x3010, 7)] } })
    (fun s => s.mem.readCells 0x3010 16 == toCells 16 0x00000000000100000000000000201000 && s.ip == 0x1004#64 &&
      s.irqs == [⟨7, 0x00000000000100000000000000201000#128⟩]) = true := by decide +kernel

theorem test_udb_no_gate : stepId [0xB2#8, 0x34#8, 0x00#8, 0x10#8] (reg · 3 0x3000) (fun s => s.irqs == []) = true := by
  decide +kernel

/-! ## Bitwise and arithmetic functions: the tables of sections 3.7 and 3.8 -/

/-- L1, L4, L32, L33. -/
theorem test_fLsh : fLsh 64 0x0F00000000000001#64 4#64 = 0xF000000000000010#64 ∧ fLsh 64 (-1#64) 64#64 = 0#64 ∧
    fLsh 8 0x81#8 1#64 = 0x02#8 ∧ fLsh 8 0xFF#8 8#64 = 0#8 := by decide

/-- L6, L8, L34. -/
theorem test_fRns : fRns 64 0x8000000000000010#64 4#64 = 0x0800000000000001#64 ∧ fRns 64 (-1#64) 64#64 = 0#64 ∧
    fRns 16 0x8000#16 15#64 = 1#16 := by decide

/-- L9, L12, L13, L35, L37. -/
theorem test_fRfs : fRfs 64 0x8000000000000010#64 4#64 = 0xF800000000000001#64 ∧
    fRfs 64 0x8000000000000000#64 64#64 = -1#64 ∧ fRfs 64 0x7FFFFFFFFFFFFFFF#64 64#64 = 0#64 ∧
    fRfs 8 0x80#8 3#64 = 0xF0#8 ∧ fRfs 16 0x8000#16 16#64 = 0xFFFF#16 := by decide

/-- L15, L17, L19, L20, L39, L40. -/
theorem test_fThr : fThr 64 0x1FF#64 8#64 = 0xFF00000000000001#64 ∧ fThr 64 0x1FF#64 64#64 = 0x1FF#64 ∧
    fThr 64 0x123456789ABCDEF0#64 60#64 = 0x23456789ABCDEF01#64 ∧ fThr 64 1#64 (-1#64) = 2#64 ∧
    fThr 32 0x12345678#32 8#64 = 0x78123456#32 ∧ fThr 8 0x12#8 9#64 = 0x09#8 := by decide

/-- L22, L41, L23, L42, L29, L43. -/
theorem test_fLogic : fAnd 64 0xF0F0F0F0F0F0F0F0#64 0xFF00FF00FF00FF00#64 = 0xF000F000F000F000#64 ∧
    fAnd 8 0xFF#8 0x1230F#64 = 0x0F#8 ∧ fOr 64 0x10#64 0x8001#64 = 0x8011#64 ∧ fNot 16 0#16 0x12345678#64 = 0xA987#16 ∧
    fSsw 64 0#64 0x8000000000000000#64 = 0x8000000000000000#64 ∧ fSsw 8 0#8 0x80#64 = 0x80#8 := by decide

/-- G16, G17, G19, G22: toward zero, the wrap, unsigned. -/
theorem test_quotient : quotient true (-7#64) 2#64 = -3#64 ∧ quotient true 7#64 (-2#64) = -3#64 ∧
    quotient true 0x8000000000000000#64 (-1#64) = 0x8000000000000000#64 ∧
    quotient false 0xFFFFFFFFFFFFFFF9#64 2#64 = 0x7FFFFFFFFFFFFFFC#64 := by decide

/-- L26, L31: W is zero-extended in the bitwise instructions. -/
theorem test_not_constant : stepId [0xE6#8, 0x10#8, 0xFF#8, 0xFF#8] id (fun s => s.getReg 1 == 0xFFFFFFFFFFFF0000#64) = true := by
  decide +kernel

theorem test_ssw_constant : stepId [0xE7#8, 0x10#8, 0xFF#8, 0xFF#8] id (fun s => s.getReg 1 == 0xFFFFFFFFFFFF0001#64) = true := by
  decide +kernel

/-- L44, L45: the source of a load form is widened by G. -/
theorem test_and_load :
    stepId [0x24#8, 0x12#8, 0x00#8, 0x01#8] (fun s => reg (reg s 1 0xFFFFFFFFFFFFFFFF) 2 0x3000)
      (fun s => s.getReg 1 == 0xFF#64) = true ∧
    stepId [0x24#8, 0x12#8, 0x40#8, 0x01#8] (fun s => reg (reg s 1 0x123456789ABCDEF0) 2 0x3000)
      (fun s => s.getReg 1 == 0x123456789ABCDEF0#64) = true := by decide +kernel

/-- L46. -/
theorem test_rfs_store : stepId [0xA2#8, 0x21#8, 0x10#8, 0x00#8] (fun s => reg (reg s 1 4) 2 0x3000)
    (fun s => s.mem.readCells 0x3000 3 == [0xF8#8, 0x0F#8, 0x7F#8]) = true := by decide +kernel

/-- L48: NOT writes without reading, here through an entry that allows only writes (0001 1000: W = 1, R = X = 0). -/
theorem test_not_store :
    nextIs (exec (.notMS 2 1 false 2#3 ⟨12, 0#12⟩) (put8 (reg (reg imageId 1 0xFFFF0000) 2 0x3000) 0x10000 0x18))
      (fun s => s.trapped == none && s.mem.readCells 0x3000 4 == [0x00#8, 0x00#8, 0xFF#8, 0xFF#8]) = true := by decide +kernel

/-- R141: GIV r1, #-1 with x[1] = 5. -/
theorem test_giv : stepId [0xE8#8, 0x10#8, 0xFF#8, 0xFF#8] (reg · 1 5) (fun s => s.getReg 1 == 4#64) = true := by decide +kernel

/-- R142: TAC r1, r2 with 3 and 5. -/
theorem test_tac : stepId [0x69#8, 0x12#8] (fun s => reg (reg s 1 3) 2 5) (fun s => s.getReg 1 == 0xFFFFFFFFFFFFFFFE#64) = true := by
  decide +kernel

/-- R143: FLD r1, #-3 with x[1] = 7. -/
theorem test_fld : stepId [0xEA#8, 0x10#8, 0xFF#8, 0xFD#8] (reg · 1 7) (fun s => s.getReg 1 == 0xFFFFFFFFFFFFFFEB#64) = true := by
  decide +kernel

/-- R144: CUT r1, #100 with x[1] = 7: the source is divided by the target. -/
theorem test_cut : stepId [0xEB#8, 0x10#8, 0x00#8, 0x64#8] (reg · 1 7) (fun s => s.getReg 1 == 14#64) = true := by decide +kernel

/-- R145 (e). -/
theorem test_cut_by_zero : exec (.cutRR 1 2) imageId = .fault .divideUndefined := by rfl

/-! ## Loading and resting -/

/-- The two 2-cell reads of an instruction at the end of a frame, where the second is in another one. -/
theorem test_withFetchWord :
    nextIs (step (State.withFetchWord { State.reset with ip := 0x01FFFFFFFFFFFFFE#64 } 32 0xF0100005))
      (fun s => s.getReg 1 == 5#64) = true := by decide +kernel

/-- With a root table that a pointer of 64 bits puts at the end of the address space, and across a frame's end. -/
theorem test_withFetchWord_pointer : [0xFFFFFFFFFFFFFFF8, 0x01FFFFFFFFFFFFF8].map (fun r =>
    nextIs (step (State.withFetchWord { State.reset with
        root := r, ip := 0xFFFFFFFFFFFFFFFE#64, cfg := { Config.standard with srLayout := { Config.standardSr with rootBits := 64 } } }
      32 0xF0100005)) (fun s => s.getReg 1 == 5#64)) = [true, true] := by decide +kernel

theorem test_withFetchWord_two : nextIs (step (State.reset.withFetchWord 16 0x7034)) (fun s => s.ip == 2#64) = true := by
  decide +kernel

/-- Without anything mapped, the first instruction read of the model's reset state raises ZEE (R192). -/
theorem test_reset_step : nextIs (step State.reset) (fun s => s.trapped == some .zee && s.ip == 0#64) = true := by decide +kernel

/-- R172: a target translates the data address of the entry with the entry's own root table, and processes it. -/
theorem test_target :
    nextIs (step { imageId with irqs := [⟨7, 0x00000000000100000000000000003000#128⟩]
                                turns := [.target ⟨0, true, [⟨0x3000, [0xAA#8]⟩]⟩] })
      (fun s => s.served == [⟨0, .address 0x3000⟩] && s.mem.read 0x3000 == 0xAA#8 && s.ip == 0x1000#64) = true := by
  decide +kernel

/-- R33: a target whose root table is not there is the unit that is stuck; the processing unit goes on, and the target does not. -/
theorem test_target_stuck :
    nextIs (step { imageId with irqs := [⟨7, (-1#54 : BitVec 54) ++ 0x003000#74⟩]
                                cfg := { Config.standard with physCells := 0x20000 }
                                turns := [.target ⟨0, false, [⟨0x3000, [0xAA#8]⟩]⟩] })
      (fun s => s.served == [⟨0, .stuck (.absentCell 0xFFFFFFFFFFFFFC00)⟩] && targetStuck s 7 &&
        s.mem.read 0x3000 == 0x80#8) = true := by decide +kernel

/-- R170, R172: a dependent unit is a source: 16 cells that a target writes at a gate. -/
theorem test_target_source :
    nextIs (step { imageId with irqs := [⟨7, 0x00000000000100000000000000003000#128⟩]
                                cfg := { Config.standard with gates := [(0x3010, 5)] }
                                turns := [.target ⟨0, false, [⟨0x3010, toCells 16 0xAB⟩]⟩] })
      (fun s => s.irqs == [⟨7, 0x00000000000100000000000000003000#128⟩, ⟨5, 0xAB#128⟩]) = true := by decide +kernel

/-- R33: a write by another unit between two cell accesses dirties the monitor. -/
theorem test_other_write :
    okIs (physRead 0x3000 2 { imageId with env := [[⟨0x3001, [0x55#8]⟩]], mon := Monitor.clean [] 0x3000 2 })
      (fun bs s => bs == [0x80#8, 0x55#8] && lookupKey 0x3001 s.mon == some .dirty) = true := by decide +kernel

/-- R107: a write by another unit before the store of a USS pair, after its translation, is USSFAIL; here of the same value. -/
theorem test_uss_atomic :
    trapIs (storeClean 0x3000 [1#8, 2#8] { imageId with env := [[⟨0x3001, [0xFF#8]⟩]], mon := Monitor.clean [] 0x3000 2 })
      (fun c s => c == .ussfail && s.mem.readCells 0x3000 2 == [0x80#8, 0xFF#8]) = true := by decide +kernel

/-- R107: a write by another unit to a cell that the load of a USS pair has already read. -/
theorem test_uss_watch :
    okIs (readWatched 0x3000 2 { imageId with env := [[], [⟨0x3000, [0x01#8]⟩]] })
      (fun bs s => bs == [0x80#8, 0xFF#8] && lookupKey 0x3000 s.mon == some .dirty && lookupKey 0x3001 s.mon == some .clean) =
      true := by decide +kernel

/-- R9: a record with the opcodes and fields of RP-1 for UDB, STR (register format) and SCI (constant format), and no other
rows. -/
def smallTable : List EncodingRow :=
  [{ mnemonic := .udb, format := .ud, length := .four, mask := 0xFF010000, value := 0xB2000000, z := ⟨9, 12⟩, q := ⟨13, 16⟩,
     a := ⟨17, 32⟩ },
   { mnemonic := .str, format := .rr, length := .two, mask := 0xFF00, value := 0x7000, z := ⟨9, 12⟩, q := ⟨13, 16⟩ },
   { mnemonic := .sci, format := .k, length := .four, mask := 0xF00F0000, value := 0xC0000000, cond := ⟨5, 8⟩, z := ⟨9, 12⟩,
     w := ⟨17, 32⟩ }]

/-- The same words as under RP-1: the worked examples of R111 and R104, and K1. -/
theorem test_encoding_table :
    [toCells 4 0xB2340000, toCells 2 0x7034, toCells 4 0xCFE00006].map
        (fun b => { Config.standard with encoding := .table smallTable : Config }.recognize b) =
      [some (.udb 3 4 ⟨16, 0#16⟩), some (.strRR 3 4), some (.sciK [true, true, true, true] 14 ⟨16, 6#16⟩)] ∧
    [0xB2#8, 0x70#8, 0xC5#8, 0x30#8].map (fun b => { Config.standard with encoding := .table smallTable : Config }.lengthOf b) =
      [some .four, some .two, some .four, none] := by decide +kernel

/-- R9, R14, R90 with CW = 3: eight condition bits, of which the sixth designates C = 5; bits {62..64} of an SR image are C. -/
theorem test_wider_condition_code :
    fulfilled [false, false, false, false, false, true, false, false] 5 = true ∧ fulfilled [true, true, true, true, true] 5 = false ∧
    (({ State.reset with cfg := { Config.standard with cw := 3 } } : State).loadSr (5 * 2 ^ 64 + 0x1000)).cc = 5 ∧
    srImage { Config.standard with cw := 3 } 0 13 0x1000#64 = 5 * 2 ^ 64 + 0x1000 := by decide +kernel

/-- N26: STR with a W of 20 bits, {13..32}, the widest beside the opcode and Z: it is sign-extended from its own first bit. -/
def wideTable : List EncodingRow :=
  [{ mnemonic := .str, format := .k, length := .four, mask := 0xFF000000, value := 0xF0000000, z := ⟨9, 12⟩, w := ⟨13, 32⟩ }]

theorem test_wide_constant :
    ({ Config.standard with encoding := .table wideTable } : Config).recognize (toCells 4 0xF0180001) =
      some (.strK 1 ⟨20, 0x80001#20⟩) ∧
    nextIs (exec (.strK 1 ⟨20, 0x80001#20⟩) State.reset) (fun s => s.getReg 1 == 0xFFFFFFFFFFF80001#64) = true := by
  decide +kernel

/-- R9, D3, D14: a root table pointer of 64 bits is the address itself; of 44 bits, its first 44 bits. The load of an SR image keeps
every bit of the field. -/
theorem test_wide_pointer :
    rootAddr { State.reset with
      root := 0x10008, cfg := { Config.standard with srLayout := { Config.standardSr with rootBits := 64 } } } = 0x10008 ∧
    rootAddr { State.reset with
      root := 3, cfg := { Config.standard with srLayout := { Config.standardSr with rootBits := 44 } } } = 0x300000 ∧
    ({ State.reset with cfg := { Config.standard with srLayout := { cells := 17, rootBits := 64, rootLo := 72, ccLo := 64, ipLo := 0 } } }
      : State).loadSr (0x10008 * 2 ^ 72) =
      { State.reset with
        root := 0x10008, cfg := { Config.standard with srLayout := { cells := 17, rootBits := 64, rootLo := 72, ccLo := 64, ipLo := 0 } } } := by
  decide +kernel

/-- N11: G as a size code, here with 16 cells, at a gate: R172. -/
theorem test_wide_datum :
    nextIs (exec (.strMS 2 1 false 0#3 ⟨12, 0#12⟩) (reg (reg { imageId with cfg := { Config.standard with
        gates := [(0x3000, 7)], gFormats := Vector.replicate 8 ⟨false, 16⟩ } } 1 0xAB) 2 0x3000))
      (fun s => s.irqs == [⟨7, 0xAB#128⟩] && s.mem.readCells 0x3000 16 == toCells 16 0xAB) = true := by decide +kernel

/-! ## Witnesses: for each statement with hypotheses, a state and operands that meet them all, clause by clause -/

/-- Image ID with x[1] = 7, x[2] = 0x3000, and the cells of an instruction at 0x1000. -/
def ready (cells : List Byte) : State := put (reg (reg imageId 1 7) 2 0x3000) 0x1000 cells

/-- Image ID with x[1] = 7, x[2] = 0x3000, x[3] = 0x3000. -/
def data : State := reg (ready []) 3 0x3000

/-- A program without a writable mapping: the one entry allows reading and executing only. -/
def readOnly : State := put8 (ready [0x30#8, 0x12#8, 0x30#8, 0x00#8]) 0x10000 0x16

theorem data_readable (va n : Nat) (hv : va = 0x3000 ∨ va = 0x3008) (hn : n = 1 ∨ n = 2 ∨ n = 4 ∨ n = 8) :
    Readable data (BitVec.ofNat 64 va) .data n va := by
  rcases hv with rfl | rfl <;> rcases hn with rfl | rfl | rfl | rfl <;>
    exact readable_of rfl rfl (by decide +kernel) (by decide)

theorem data_writable (n : Nat) (hn : n = 1 ∨ n = 8 ∨ n = 16) :
    ∃ m t, Writable data 0x3000#64 n m t ∧ m.pa = 0x3000 := by
  rcases hn with rfl | rfl | rfl <;> exact writable_of rfl rfl (by decide +kernel) (by decide)

theorem witness_DecodeOfEncode : WellFormed (.udb 15 14 ⟨16, 0xFFFF#16⟩) = true ∧ WellFormed (.ussMS 15 15 7#3 ⟨12, 0xFFF#12⟩) = true := by
  decide

theorem witness_EncodeOfDecode :
    decode [0xB2#8, 0x3E#8, 0xFF#8, 0xFF#8, 0x00#8] = .ok (.udb 3 14 ⟨16, 0xFFFF#16⟩, [0x00#8]) := by decide

theorem witness_UnrecognizedEncodings : UnknownOpcode 0x9F#8 ∧ ¬UnknownOpcode 0xB2#8 ∧ WrongConstant 0xB2#8 0x35#8 0x00#8 ∧
    ¬UnknownOpcode 0xB1#8 ∧ WrongConstant 0xB1#8 0x12#8 0x80#8 ∧ ¬UnknownOpcode 0xCF#8 ∧ WrongConstant 0xCF#8 0xE1#8 0x00#8 := by
  simp only [UnknownOpcode, WrongConstant]
  decide

/-- Two cells, and four cells under both settings of IP_BASE. -/
theorem witness_StepRunsDecoded :
    (Running (ready [0x69#8, 0x12#8]) ∧ (ready [0x69#8, 0x12#8]).cfg.encoding = .rp1 ∧
      Readable (ready [0x69#8, 0x12#8]) (ready [0x69#8, 0x12#8]).instrAddr .instr 2 0x1000 ∧
      decode ((ready [0x69#8, 0x12#8]).mem.readCells 0x1000 2) = .ok (.tacRR 1 2, []) ∧
      (ready [0x69#8, 0x12#8]).cfg.ipBase = .next) ∧
    ∃ s : State, Running s ∧ s.cfg.encoding = .rp1 ∧ Readable s s.instrAddr .instr 2 0x1000 ∧
      Readable s (s.instrAddr + 2#64) .instr 2 0x1002 ∧ s.cfg.ipBase = .this ∧
      decode (s.mem.readCells 0x1000 2 ++ s.mem.readCells 0x1002 2) = .ok (.strK 1 ⟨16, 5#16⟩, []) :=
  ⟨⟨⟨by decide +kernel, rfl, rfl⟩, rfl, readable_of rfl rfl (by decide +kernel) (by decide), by decide +kernel, rfl⟩,
    { ready [0xF0#8, 0x10#8, 0x00#8, 0x05#8] with cfg := { Config.standard with ipBase := .this } },
    ⟨by decide +kernel, rfl, rfl⟩, rfl, readable_of rfl rfl (by decide +kernel) (by decide),
    readable_of rfl rfl (by decide +kernel) (by decide), rfl, by decide +kernel⟩

theorem witness_LoadedWordRuns : decodeTableWord 16 0x7034 = some (.strRR 3 4) ∧
    decodeTableWord 32 0xB2340010 = some (.udb 3 4 ⟨16, 16#16⟩) := by decide

theorem witness_StoppedOrTrappedUnitRests : ({ imageId with ip := 0x1001#64 } : State).stopped = true ∧
    imageId.turns = [] ∧ ({ imageId with trapped := some .zee } : State).trapped ≠ none ∧
    imageId.cfg.trapEntry = .terminal := by decide +kernel

theorem witness_UnrecognizedRaisesAea :
    (∃ s, Running s ∧ s.cfg.encoding = .rp1 ∧ Readable s s.instrAddr .instr 2 0x1000 ∧
      rp1Length ((s.mem.readCells 0x1000 2).headD 0#8) = none ∧ s.cfg.trapEntry = .terminal) ∧
    (∃ s, Running s ∧ s.cfg.encoding = .rp1 ∧ Readable s s.instrAddr .instr 2 0x1000 ∧
      rp1Length ((s.mem.readCells 0x1000 2).headD 0#8) = some .four ∧ Readable s (s.instrAddr + 2#64) .instr 2 0x1002 ∧
      rp1Instr (s.mem.readCells 0x1000 2 ++ s.mem.readCells 0x1002 2) = none) ∧
    nextIs (exec (.strRR 1 2) (beforeExec (.strRR 1 2) (ready []))) (fun t => t.trapped == none) = true :=
  ⟨⟨ready [0x9F#8, 0x00#8], ⟨by decide +kernel, rfl, rfl⟩, rfl, readable_of rfl rfl (by decide +kernel) (by decide),
      by decide +kernel, rfl⟩,
    ⟨ready [0xB2#8, 0x35#8, 0x00#8, 0x10#8], ⟨by decide +kernel, rfl, rfl⟩, rfl,
      readable_of rfl rfl (by decide +kernel) (by decide), by decide +kernel,
      readable_of rfl rfl (by decide +kernel) (by decide), by decide +kernel⟩, by decide +kernel⟩

theorem witness_FetchConditionKeepsRegisters : ∃ c t, Running State.reset ∧ fetchInstr State.reset = .trap c t := by
  obtain ⟨c, t, h, -⟩ := trapIs_exists (r := fetchInstr State.reset) (p := fun c _ => c == .zee) (by decide +kernel)
  exact ⟨c, t, ⟨by decide, rfl, rfl⟩, h⟩

/-- ZEE at the read of a BRS, ZSW, and USSFAIL. -/
theorem witness_ConditionsOfAnInstruction :
    imageFt.cfg.trapEntry = .terminal ∧ imageFt.trapped = none ∧
    nextIs (exec (.brsRR 1 1) (reg imageFt 1 0x206000)) (fun t => t.trapped == some .zee) = true ∧
    nextIs (exec (.strML 2 1 false 0#3 ⟨12, 0#12⟩) (reg imageFt 1 0x205000)) (fun t => t.trapped == some .zsw) = true ∧
    nextIs (exec (.ussMS 2 1 0#3 ⟨12, 0#12⟩) data) (fun t => t.trapped == some .ussfail) = true := by decide +kernel

theorem witness_StepKeepsInv : Inv (ready [0xB1#8, 0x21#8, 0x30#8, 0x00#8]) ∧
    ∃ t, step (ready [0xB1#8, 0x21#8, 0x30#8, 0x00#8]) = .next t := by
  refine ⟨⟨by decide +kernel, by decide, by decide +kernel, by decide, by decide⟩, ?_⟩
  obtain ⟨t, h, -⟩ := nextIs_exists (o := step (ready [0xB1#8, 0x21#8, 0x30#8, 0x00#8])) (p := fun _ => true) (by decide +kernel)
  exact ⟨t, h⟩

theorem witness_StepKeepsParameters : ∃ t, step data = .next t := by
  obtain ⟨t, h, -⟩ := nextIs_exists (o := step data) (p := fun _ => true) (by decide +kernel)
  exact ⟨t, h⟩

theorem witness_CellsOfAString : 7 + 1 ≤ 8 ∧ 7 < 8 * 1 ∧ 0 + 8 ≤ 8 ∧ 63 < 8 * 8 := by decide

/-- All cells exist; or the fifth of eight is the first that does not. -/
theorem witness_PhysicalAccessIsExact :
    Quiet data ∧ CellsExist data.cfg 0x3000 8 ∧
    (∃ c : Config, CellsExist c 0x3000 4 ∧ populated c (0x3000 + 4) = false) :=
  ⟨rfl, cellsExist_standard rfl (by decide), { Config.standard with physCells := 0x3004 },
    (show ∀ k, k < 4 → _ by decide), by decide⟩

theorem witness_UnitReadsItsOwnWrite : ∃ s t : State, (∀ ws ∈ s.env, ∀ w ∈ ws, w.addr + w.cells.length ≤ 0x3000 ∨ 0x3000 + 2 ≤ w.addr) ∧
    s.env ≠ [] ∧ physWrite 0x3000 [1#8, 2#8] s = .ok () t := by
  obtain ⟨u, t, h, -⟩ := okIs_exists (r := physWrite 0x3000 [1#8, 2#8] { data with env := [[⟨0x2FFE, [8#8, 9#8]⟩, ⟨0x3002, [9#8]⟩]] })
    (p := fun _ _ => true) (by decide +kernel)
  exact ⟨_, t, by decide, by decide, h⟩

/-- Every kind of entry occurs, at the lowest and the highest order it can. -/
theorem witness_EntryKindsByBits : entryKind 1 0x20012#64 = .descriptor ∧ entryKind 6 0x1E#64 = .descriptor ∧
    entryKind 1 0x1600D#64 = .key ∧ entryKind 2 0x15080#64 = .table ∧ entryKind 6 0x11080#64 = .table ∧
    entryKind 1 0x15080#64 = .noFormat ∧ entryKind 6 0#64 = .noFormat := by decide +kernel

/-- Orders 6, 2 and 1, and each kind of entry. -/
theorem witness_WalkGoesDown : Quiet imageFt ∧ CellsExist imageFt.cfg 0x10000 8 ∧ CellsExist imageFt.cfg 0x15008 8 ∧
    0x10000 = 0x10000 + 8 * (if 5 + 1 = 6 then (0x201234#64 : Word).toNat / 2 ^ 57 else 0) ∧
    0x15008 = 0x15000 + 8 * (if 0 + 1 = 6 then 0 else (0x201234#64 : Word).toNat / 2 ^ (12 + 9 * 0) % 2 ^ 9) ∧
    entryKind 6 (entryAt imageFt.mem 0x10000) = .table ∧ entryKind 1 (entryAt imageFt.mem 0x15008) = .descriptor ∧
    entryKind 1 (entryAt imageFt.mem 0x15010) = .key ∧ entryKind 2 (entryAt imageFt.mem 0x14000) = .noFormat :=
  ⟨rfl, cellsExist_standard rfl (by decide), cellsExist_standard rfl (by decide), by decide, by decide, by decide +kernel,
    by decide +kernel, by decide +kernel, by decide +kernel⟩

/-- A descriptor that does not allow the access; a key with a malformed gate; a descriptor and a key that succeed. -/
theorem witness_FrameAccessInOrder : Quiet imageFt ∧ CellsExist imageFt.cfg 0x16000 8 ∧
    permits .instr (entryAt imageFt.mem 0x15008) = false ∧
    (entryAt imageFt.mem 0x15010).toNat / 2 ^ 5 * 2 ^ 5 = 0x16000 ∧ permits .write (entryAt imageFt.mem 0x15010) = true ∧
    gateFormat 1 (entryAt imageFt.mem 0x16000) = true ∧ (entryAt imageFt.mem 0x16000).getMsbD 58 = false ∧
    imageFt.cfg.gateFormatCheck = true ∧ gateFormat 1 (entryAt (put8 imageFt 0x16000 0x31081).mem 0x16000) = false :=
  ⟨rfl, cellsExist_standard rfl (by decide), by decide +kernel, by decide +kernel, by decide +kernel, by decide +kernel,
    by decide +kernel, rfl, by decide +kernel⟩

/-- A swapped descriptor: the data access is allowed, the instruction read is not; and one that is not swapped. -/
theorem witness_SwappedRaisesZsw : Quiet imageFt ∧ CellsExist imageFt.cfg 0x15028 8 ∧
    permits .data (entryAt imageFt.mem 0x15028) = true ∧ (entryAt imageFt.mem 0x15028).getMsbD 58 = true ∧
    permits .instr (entryAt imageFt.mem 0x15028) = false ∧ (entryAt imageFt.mem 0x15008).getMsbD 58 = false :=
  ⟨rfl, cellsExist_standard rfl (by decide), by decide +kernel, by decide +kernel, by decide +kernel, by decide +kernel⟩

/-- A condition; a read; a write. -/
theorem witness_TranslatedWriteSetsModified :
    Quiet imageFt ∧ (∃ c t, unitTranslate 0x203008#64 .write 1 imageFt = .trap c t) ∧
    (∃ m t, unitTranslate 0x201234#64 .data 1 imageFt = .ok m t) ∧
    ∃ m t, unitTranslate 0x201234#64 .write 1 imageFt = .ok m t := by
  obtain ⟨c, t, h, -⟩ := trapIs_exists (r := unitTranslate 0x203008#64 .write 1 imageFt) (p := fun _ _ => true) (by decide +kernel)
  obtain ⟨m, u, h', -⟩ := okIs_exists (r := unitTranslate 0x201234#64 .data 1 imageFt) (p := fun _ _ => true) (by decide +kernel)
  obtain ⟨k, v, h'', -⟩ := okIs_exists (r := unitTranslate 0x201234#64 .write 1 imageFt) (p := fun _ _ => true) (by decide +kernel)
  exact ⟨rfl, ⟨c, t, h⟩, ⟨m, u, h'⟩, k, v, h''⟩

/-- At the end of a frame of order 1: 8 cells that just fit, and 8 that run one cell past it. -/
theorem witness_FrameCrossing :
    (∃ t, walk 0x201FF8#64 .data 6 0x10000 imageFt = .ok ⟨0x30FF8, 1, 0x15008⟩ t ∧ t.cfg.crossFrame = .literal) ∧
    (0x201FF8#64 : Word).toNat % 2 ^ offBits 1 + 8 ≤ 2 ^ offBits 1 ∧
    2 ^ offBits 1 < (0x201FF9#64 : Word).toNat % 2 ^ offBits 1 + 8 := by
  obtain ⟨m, t, h, h'⟩ := okIs_exists (r := walk 0x201FF8#64 .data 6 0x10000 imageFt)
    (p := fun m t => decide (m = ⟨0x30FF8, 1, 0x15008⟩ ∧ t.cfg.crossFrame = .literal)) (by decide +kernel)
  simp only [decide_eq_true_eq] at h'
  obtain ⟨rfl, h'⟩ := h'
  exact ⟨⟨t, h, h'⟩, by decide, by decide⟩

theorem witness_FrameCrossing_fault :
    okIs (walk 0x201FF9#64 .data 6 0x10000 { imageFt with cfg := { Config.standard with crossFrame := .fault } })
      (fun m t => m.order == 1 && t.cfg.crossFrame == .fault) = true := by decide +kernel

theorem witness_FieldG : data.cfg.gFormats = Config.standardFormats ∧
    (List.replicate 8 0xFF#8).length ≤ 8 ∧ (⟨64, -1#64⟩ : Const).width ≤ 64 := by decide +kernel

theorem witness_PhysicalAddressByBits : 1 ≤ 6 ∧ 6 ≤ 6 ∧ 0 < 64 ∧ 63 < 64 ∧ data.cfg.srLayout.rootBits.val = 54 ∧
    data.root < 2 ^ 54 := by decide

theorem witness_LogicByBits : 8 ≤ 64 ∧ 0 < 8 ∧ 64 ≤ 64 ∧ 63 < 64 := by decide

theorem witness_ShiftsByBits : 63 < 64 ∧ 0 < 8 ∧ 64 ≤ 64 := by decide

theorem witness_QuotientTowardZero : (2#64 : Word) ≠ 0#64 ∧ (-1#64 : Word) ≠ 0#64 ∧
    (0x8000000000000000#64 : Word).toInt = -2 ^ 63 ∧ (-1#64 : Word).toInt = -1 := by decide

/-- The memory formats of SCI and JMP: a readable source, and one that is not mapped. -/
theorem witness_SkipAddsToIp : Readable data (data.getReg 2 + dispOf data ⟨16, 8#16⟩) .data 8 0x3008 ∧
    ∃ s c t, memRead (s.getReg 2 + dispOf s ⟨16, 0x7000#16⟩) 8 .data s = .trap c t := by
  obtain ⟨c, t, h, -⟩ := trapIs_exists (r := memRead ((reg data 2 0x7FFFFFFF00000000).getReg 2 +
    dispOf (reg data 2 0x7FFFFFFF00000000) ⟨16, 0x7000#16⟩) 8 .data (reg data 2 0x7FFFFFFF00000000)) (p := fun _ _ => true)
    (by decide +kernel)
  exact ⟨readable_of rfl rfl (by decide +kernel) (by decide), _, c, t, h⟩

theorem witness_JumpSetsIp : Readable data (data.getReg 2 + dispOf data ⟨16, 8#16⟩) .data 8 0x3008 ∧
    ∃ s c t, memRead (s.getReg 2 + dispOf s ⟨16, 0x7000#16⟩) 8 .data s = .trap c t := witness_SkipAddsToIp

/-- C = 0: the first bit of cond is looked at, here 1 and 0. -/
theorem witness_ControlFrom : [true, false, false, false].getD data.cc false = true ∧
    [false, true, true, true].getD data.cc false = false := by decide

/-- Ä = 0 and Ä = 1. -/
theorem witness_MoveLoads :
    Readable data (if false then data.getReg 2 else data.getReg 2 + dispOf data ⟨12, 8#12⟩) .data (gCells data 3#3) 0x3008 ∧
    Readable data (if true then data.getReg 2 else data.getReg 2 + dispOf data ⟨12, 8#12⟩) .data (gCells data 4#3) 0x3000 :=
  ⟨readable_of rfl rfl (by decide +kernel) (by decide), readable_of rfl rfl (by decide +kernel) (by decide)⟩

/-- The write can be made; or its translation raises ZEE, after the update of x[15]. -/
theorem witness_MoveStores : (∃ m t, Writable (withDisp data 2 false ⟨12, 0#12⟩) 0x3000#64 8 m t) ∧
    trapIs (unitTranslate 0x203000#64 .write 8 (withDisp (reg imageFt 15 0x203008) 15 true ⟨12, 0xFF8#12⟩)) (fun _ _ => true) = true := by
  obtain ⟨m, t, h, -⟩ := data_writable 8 (.inr (.inl rfl))
  exact ⟨⟨m, t, h⟩, by decide +kernel⟩

theorem witness_AtomicLoadWatches : Readable data (data.getReg 2 + dispOf data ⟨12, 0#12⟩) .data (gCells data 3#3) 0x3000 :=
  readable_of rfl rfl (by decide +kernel) (by decide)

/-- The last cell of the target is not clean; all are. -/
theorem witness_AtomicStoreChecks :
    okIs (unitTranslate (data.getReg 2 + dispOf data ⟨12, 0#12⟩) .write (gCells data 3#3)
      { data with mon := Monitor.clean [] 0x3000 7 })
      (fun m t => decide (m.pa ≤ 0x3007 ∧ 0x3007 < m.pa + 8 ∧ lookupKey 0x3007 t.mon ≠ some .clean)) = true ∧
    okIs (unitTranslate (data.getReg 2 + dispOf data ⟨12, 0#12⟩) .write (gCells data 3#3)
      { data with mon := Monitor.clean [] 0x3000 8 })
      (fun m t => decide (m.pa = 0x3000) && t.mon.allClean 0x3000 8) = true ∧
    CellsExist data.cfg 0x3000 (gCells data 3#3) :=
  ⟨by decide +kernel, by decide +kernel, cellsExist_standard rfl (by decide)⟩

/-- BRS r1, 0x20(r2) in image FT (B1v): the save can be made, and the image can then be read; BRS r1, r1 (B2v): it cannot. -/
theorem witness_ContextSwitch :
    ∃ m t, Writable (reg (reg imageFt 1 0x206000) 2 0x207000) 0x206000#64 16 m t ∧ m.pa = 0x33000 :=
  writable_of rfl rfl (by decide +kernel) (by decide)

theorem witness_ContextSwitchReplacesSr : ∃ s s' t m pa, BrsForm (.brsBA 1 2 ⟨16, 0x20#16⟩) 0x206000#64 0x207020#64 s ∧
    Writable s 0x206000#64 16 m s' ∧
    t = signalled m.pa (savedSr (.brsBA 1 2 ⟨16, 0x20#16⟩) s) (s'.storeCells m.pa (savedSr (.brsBA 1 2 ⟨16, 0x20#16⟩) s)) ∧
    Readable t 0x207020#64 .srload 16 pa := by
  let s := reg (reg imageFt 1 0x206000) 2 0x207000
  let i := Instr.brsBA 1 2 ⟨16, 0x20#16⟩
  obtain ⟨m, s', h, h'⟩ := okIs_exists (r := unitTranslate 0x206000#64 .write 16 s)
    (p := fun m s' => decide (m.pa = 0x33000 ∧ s'.env = [] ∧ s'.cfg.physCells = 2 ^ 64) &&
      okIs (unitTranslate 0x207020#64 .srload 16 (signalled m.pa (savedSr i s) (s'.storeCells m.pa (savedSr i s))))
        (fun k t => decide (k.pa = 0x33020 ∧ t = signalled m.pa (savedSr i s) (s'.storeCells m.pa (savedSr i s)) ∧
          t.env = [] ∧ t.cfg.physCells = 2 ^ 64)))
    (by decide +kernel)
  simp only [Bool.and_eq_true, decide_eq_true_eq] at h'
  obtain ⟨⟨h1, -, -⟩, h2⟩ := h'
  obtain ⟨k, t, h3, h4⟩ := okIs_exists h2
  simp only [decide_eq_true_eq] at h4
  obtain ⟨h5, h6, h7, h8⟩ := h4
  rw [← h6] at h3
  exact ⟨s, s', t, m, 0x33020, .inl ⟨1, 2, ⟨16, 0x20#16⟩, rfl, by decide +kernel, by decide +kernel⟩,
    ⟨rfl, h, h1 ▸ cellsExist_standard rfl (by decide)⟩, h6, h7, ⟨k, h3, h5⟩, cellsExist_standard h8 (by decide)⟩

theorem witness_ContextSwitchKeepsItsSave : BrsForm (.brsRR 1 1) 0x206000#64 0x206000#64 (reg imageFt 1 0x206000) ∧
    okIs (unitTranslate 0x206000#64 .write 16 (reg imageFt 1 0x206000)) (fun m s' =>
      trapIs (memRead 0x206000#64 16 .srload (signalled m.pa (savedSr (.brsRR 1 1) (reg imageFt 1 0x206000))
        (s'.storeCells m.pa (savedSr (.brsRR 1 1) (reg imageFt 1 0x206000))))) (fun _ _ => true)) = true :=
  ⟨.inr ⟨1, 1, rfl, by decide +kernel, by decide +kernel⟩, by decide +kernel⟩

theorem witness_SrImageLayout : data.cfg.srLayout = Config.standardSr ∧ data.cfg.cw = 2 ∧ data.cfg.ipBase = .next :=
  ⟨rfl, rfl, rfl⟩

/-- A gate, and none. -/
theorem witness_InterruptionIsRecorded : (∃ m t, Writable data (data.getReg 3 + dispOf data ⟨16, 0#16⟩) 16 m t ∧ m.pa = 0x3000) ∧
    lookupKey 0x3000 [(0x3000, 7)] = some 7 ∧ lookupKey 0x3000 data.cfg.gates = none :=
  ⟨writable_of rfl rfl (by decide +kernel) (by decide), by decide, by decide⟩

theorem witness_BitwiseOnRegisters : bitwiseRows.length = 8 := rfl

theorem witness_BitwiseLoads : Readable data (effAddr data 2 true ⟨12, 8#12⟩) .data (gCells data 4#3) 0x3000 ∧
    Readable data (effAddr data 2 false ⟨12, 8#12⟩) .data (gCells data 3#3) 0x3008 :=
  ⟨readable_of rfl rfl (by decide +kernel) (by decide), readable_of rfl rfl (by decide +kernel) (by decide)⟩

/-- Ä = 1 with A = 8: the state after the update, its operand, and both accesses to it; also for the arithmetic store forms. -/
theorem witness_BitwiseStores :
    Readable (withDisp data 2 true ⟨12, 8#12⟩) (effAddr (withDisp data 2 true ⟨12, 8#12⟩) 2 true ⟨12, 8#12⟩) .data (gCells data 3#3) 0x3008 ∧
    ∃ m t, Writable (withDisp data 2 true ⟨12, 8#12⟩) (effAddr (withDisp data 2 true ⟨12, 8#12⟩) 2 true ⟨12, 8#12⟩) (gCells data 3#3) m t ∧
      m.pa = 0x3008 :=
  ⟨readable_of rfl rfl (by decide +kernel) (by decide), writable_of rfl rfl (by decide +kernel) (by decide)⟩

/-- The divisor 7 in x[1]; the divisor in memory; and the divisor 0 in each form. -/
theorem witness_Cut : (cutOperands data.cfg (data.getReg 1) 100#64).2 ≠ 0#64 ∧
    (cutOperands data.cfg (datum data 3#3 0x3000) (data.getReg 1)).2 ≠ 0#64 ∧
    (cutOperands data.cfg (data.getReg 4) 100#64).2 = 0#64 ∧ (cutOperands data.cfg (data.getReg 4) (data.getReg 1)).2 = 0#64 ∧
    (cutOperands data.cfg (data.getReg 4) (datum data 3#3 0x3000)).2 = 0#64 ∧
    (cutOperands data.cfg (datum data 3#3 0x4000) (data.getReg 1)).2 = 0#64 := by decide +kernel

theorem witness_CutDivides : (cutOperands data.cfg (data.getReg 1) 100#64).2 ≠ 0#64 ∧
    Readable data (effAddr data 2 true ⟨12, 8#12⟩) .data (gCells data 4#3) 0x3000 := ⟨witness_Cut.1, witness_BitwiseLoads.1⟩

theorem witness_CutByZeroSticks : (cutOperands data.cfg (data.getReg 4) 100#64).2 = 0#64 ∧
    (cutOperands data.cfg (datum data 3#3 0x4000) (data.getReg 1)).2 = 0#64 ∧
    Readable data (effAddr data 2 true ⟨12, 8#12⟩) .data (gCells data 4#3) 0x3000 :=
  ⟨witness_Cut.2.2.1, witness_Cut.2.2.2.2.2, witness_BitwiseLoads.1⟩

/-- The premises of the memory forms of GIV, TAC and FLD. -/
theorem witness_Arith : Readable data (effAddr data 2 true ⟨12, 8#12⟩) .data (gCells data 4#3) 0x3000 ∧
    ∃ m t, Writable (withDisp data 2 true ⟨12, 8#12⟩) (effAddr (withDisp data 2 true ⟨12, 8#12⟩) 2 true ⟨12, 8#12⟩) (gCells data 3#3) m t ∧
      m.pa = 0x3008 := ⟨witness_BitwiseLoads.1, witness_BitwiseStores.2⟩

theorem witness_UnitFrame : isBrs (.strMS 2 1 true 3#3 ⟨12, 8#12⟩) = false ∧ isControl (.strMS 2 1 true 3#3 ⟨12, 8#12⟩) = false ∧
    data.cfg.ccUpdate = .never ∧ data.cfg.ipBase = .next ∧
    nextIs (exec (.strMS 2 1 true 3#3 ⟨12, 8#12⟩) data) (fun _ => true) = true := by decide +kernel

theorem witness_ReadingFormsLeaveMemory : storesAt (.strML 1 2 true 3#3 ⟨12, 8#12⟩) data = none ∧ Quiet data ∧
    isUss (.strML 1 2 true 3#3 ⟨12, 8#12⟩) = false ∧ nextIs (exec (.strML 1 2 true 3#3 ⟨12, 8#12⟩) data) (fun _ => true) = true :=
  ⟨rfl, rfl, rfl, by decide +kernel⟩

/-- A store that is made; and one whose translation raises a condition. -/
theorem witness_StoreFrame : storesAt (.ussMS 2 1 3#3 ⟨12, 0#12⟩) data = some (data, data.getReg 2 + dispOf data ⟨12, 0#12⟩, 8) ∧
    Quiet data ∧ nextIs (exec (.ussMS 2 1 3#3 ⟨12, 0#12⟩) data) (fun _ => true) = true ∧
    okIs (unitTranslate (data.getReg 2 + dispOf data ⟨12, 0#12⟩) .write 8 data) (fun _ _ => true) = true ∧
    nextIs (exec (.ussMS 2 1 3#3 ⟨12, 0#12⟩) readOnly) (fun _ => true) = true ∧
    trapIs (unitTranslate (readOnly.getReg 2 + dispOf readOnly ⟨12, 0#12⟩) .write 8 readOnly) (fun _ _ => true) = true :=
  ⟨rfl, rfl, by decide +kernel, by decide +kernel, by decide +kernel, by decide +kernel⟩

theorem read_unlisted {m : Memory} {a : Nat} (h : ∀ c ∈ m, c.1 ≠ a) : m.read a = Memory.read [] a := by
  induction m with
  | nil => rfl
  | cons c l ih =>
    rw [← ih fun x hx => h x (List.mem_cons_of_mem _ hx)]
    simp [Memory.read, lookupKey, h c List.mem_cons_self]

theorem entryAt_unlisted {m : Memory} {a : Nat} (hm : ∀ c ∈ m, c.1 < a) : entryAt m a = 0#64 := by
  have h0 : entryAt [] a = 0#64 := by
    simp only [entryAt, Memory.readCells, Memory.read, lookupKey, Option.getD_none]
    decide
  rw [← h0]
  unfold entryAt
  rw [Memory.readCells_congr fun x hx _ => read_unlisted fun c hc => by have := hm c hc; omega]

theorem rootIndex_lt (va : Word) : tableIndex 6 va < 128 := by
  simp only [tableIndex, fieldOf, if_pos]
  exact Nat.mod_lt _ (by decide)

theorem walk_refused {s : State} {va : Word} (hq : Quiet s) (hc : s.cfg.physCells = 2 ^ 64) {tb ea : Nat} {e : Word}
    (ha : ea = tb + 8 * tableIndex 6 va) (he : e = entryAt s.mem ea) (hb : ea + 8 ≤ 2 ^ 64)
    (hk : entryKind 6 e = .noFormat ∨ entryKind 6 e = .descriptor ∧ permits .write e = false) :
    walk va .write 6 tb s = .trap .zee s := by
  subst ha he
  rw [walk, bind_of_ok _ (readEntry_quiet hq (cellsExist_standard hc hb))]
  rcases hk with hk | ⟨hk, hp⟩
  · simp only [hk, raise]
  · simp only [hk, frameAccess, hp, raise, if_neg, Bool.false_eq_true, not_false_eq_true]

/-- Where every entry of the root table is of no format, but the first, which does not allow writing, nothing can be written. -/
theorem nothingWritable_of {s : State} (hq : Quiet s) (hc : s.cfg.physCells = 2 ^ 64) {tb : Nat} (ht : tb ≤ 2 ^ 32)
    (hr : rootAddr s = tb)
    (h0 : entryKind 6 (entryAt s.mem tb) = .descriptor ∧ permits .write (entryAt s.mem tb) = false)
    (hm : ∀ c ∈ s.mem, c.1 < tb + 8) : NothingWritable s := by
  intro va n m t h
  have hi := rootIndex_lt va
  obtain ⟨m', u, h1, -⟩ := bind_ok h
  rw [hr, walk_refused hq hc rfl rfl (by omega)] at h1
  · cases h1
  · by_cases hk : tableIndex 6 va = 0
    · exact .inr (by rw [hk]; exact h0)
    · rw [entryAt_unlisted fun c hc => by have := hm c hc; omega]; left; decide

/-- The first step of the confined program completes. -/
theorem witness_ConfinedProgram : Confined readOnly ∧ nextIs (step readOnly) (fun t => t.trapped == none) = true :=
  ⟨⟨rfl, rfl, rfl, nothingWritable_of (tb := 0x10000) rfl rfl (by decide) (by decide +kernel) (by decide +kernel)
    (by decide +kernel)⟩, by decide +kernel⟩

/-- A store form with a clean and a dirty cell; a physical write; other units that write the value that is there. -/
theorem witness_WritesAreNoticed : isUss (.strMS 2 1 false 3#3 ⟨12, 0#12⟩) = false ∧
    storesAt (.strMS 2 1 false 3#3 ⟨12, 0#12⟩) { data with mon := [(0x2000, .dirty), (0x3000, .clean)] } =
      some ({ data with mon := [(0x2000, .dirty), (0x3000, .clean)] }, 0x3000#64, 8) ∧
    okIs (unitTranslate 0x3000#64 .write 8 { data with mon := [(0x2000, .dirty), (0x3000, .clean)] })
      (fun m _ => m.pa == 0x3000) = true ∧
    nextIs (exec (.strMS 2 1 false 3#3 ⟨12, 0#12⟩) { data with mon := [(0x2000, .dirty), (0x3000, .clean)] })
      (fun t => t.trapped == none && lookupKey 0x2000 t.mon == some .dirty && lookupKey 0x3000 t.mon == some .dirty) = true ∧
    okIs (physWrite 0x3000 [0x80#8, 0xFF#8] { data with mon := [(0x3000, .clean)] })
      (fun _ t => lookupKey 0x3000 t.mon == some .dirty) = true ∧
    populated data.cfg 0x3000 = true ∧
    lookupKey 0x3000 ({ data with env := [[⟨0x3000, [0x80#8]⟩]], mon := [(0x3000, .clean)] } : State).envTick.mon =
      some .dirty :=
  ⟨rfl, by decide +kernel, by decide +kernel, by decide +kernel, by decide +kernel, by decide +kernel, by decide +kernel⟩

/-- An entry, and none; a translation that gives an address, by reading and by writing; one that raises a condition; a target that is
stuck in it, and one that is stuck already. -/
theorem witness_TargetTurn :
    nextIs (step { imageId with turns := [.target ⟨0, false, []⟩] }) (fun _ => true) = true ∧
    (let s : State := { imageId with irqs := [⟨7, 0x00000000000100000000000000003000#128⟩] }
     targetStuck s 7 = false ∧ okIs (targetTranslate 0x00000000000100000000000000003000#128 true s) (fun k _ => k.pa == 0x3000) = true ∧
     okIs (targetTranslate 0x00000000000100000000000000003000#128 false s) (fun k _ => k.pa == 0x3000) = true ∧
     nextIs (step { s with turns := [.target ⟨0, true, []⟩] }) (fun _ => true) = true) ∧
    trapIs (targetTranslate 0x00000000000100000200000000000000#128 false imageId) (fun c _ => c == .zee) = true ∧
    stuckIs (targetTranslate ((-1#54 : BitVec 54) ++ 0x003000#74) false { imageId with cfg := { Config.standard with physCells := 8 } })
      (fun _ _ => true) = true ∧
    targetStuck { imageId with irqs := [⟨7, 0#128⟩], served := [⟨0, .stuck (.absentCell 8)⟩] } 7 = true ∧
    imageId.cfg.irqLayout = Config.standardIrq := by
  refine ⟨by decide +kernel, ⟨by decide +kernel, by decide +kernel, by decide +kernel, by decide +kernel⟩, by decide +kernel,
    by decide +kernel, by decide +kernel, rfl⟩

theorem witness_TrapProgramStarts :
    ({ data with cfg := { Config.standard with trapEntry := .program } } : State).cfg.trapEntry = .program := rfl

/-- USS.u8 r1, 0(r2); GIV r1, #1; USS.u8 0(r2), r1 (R106): the load, one step, and the store, which does not trap. -/
theorem witness_AtomicUpdate : ∃ s s' t u v w' x m m', unitTranslate (s.getReg 2 + dispOf s ⟨12, 0#12⟩) .data (gCells s 3#3) s = .ok m s' ∧
    exec (.ussML 1 2 3#3 ⟨12, 0#12⟩) s = .next t ∧ StepsWithoutUss 1 t u ∧ fetchInstr (afterTurn u) = .ok (.ussMS 2 1 3#3 ⟨12, 0#12⟩) v ∧
    unitTranslate ((beforeExec (.ussMS 2 1 3#3 ⟨12, 0#12⟩) v).getReg 2 + dispOf (beforeExec (.ussMS 2 1 3#3 ⟨12, 0#12⟩) v) ⟨12, 0#12⟩) .write
      (gCells (beforeExec (.ussMS 2 1 3#3 ⟨12, 0#12⟩) v) 3#3) (beforeExec (.ussMS 2 1 3#3 ⟨12, 0#12⟩) v) = .ok m' w' ∧
    m'.pa = m.pa ∧ gCells (beforeExec (.ussMS 2 1 3#3 ⟨12, 0#12⟩) v) 3#3 = gCells s 3#3 ∧
    exec (.ussMS 2 1 3#3 ⟨12, 0#12⟩) (beforeExec (.ussMS 2 1 3#3 ⟨12, 0#12⟩) v) = .next x ∧ x ≠ takeTrap .ussfail w'.envTick := by
  let s := ready [0xE8#8, 0x10#8, 0x00#8, 0x01#8, 0xB1#8, 0x21#8, 0x30#8, 0x00#8]
  obtain ⟨m, s', h1, h1'⟩ := okIs_exists (r := unitTranslate (s.getReg 2 + dispOf s ⟨12, 0#12⟩) .data (gCells s 3#3) s)
    (p := fun m _ => m.pa == 0x3000) (by decide +kernel)
  obtain ⟨t, h2, h2'⟩ := nextIs_exists (o := exec (.ussML 1 2 3#3 ⟨12, 0#12⟩) s)
    (p := fun t => okIs (fetchInstr (afterTurn t)) (fun i _ => !isUss i) &&
      nextIs (step t) fun u => okIs (fetchInstr (afterTurn u)) fun i v => i == .ussMS 2 1 3#3 ⟨12, 0#12⟩ &&
        gCells (beforeExec (.ussMS 2 1 3#3 ⟨12, 0#12⟩) v) 3#3 == gCells s 3#3 &&
        okIs (unitTranslate ((beforeExec (.ussMS 2 1 3#3 ⟨12, 0#12⟩) v).getReg 2 + dispOf (beforeExec (.ussMS 2 1 3#3 ⟨12, 0#12⟩) v) ⟨12, 0#12⟩)
          .write (gCells (beforeExec (.ussMS 2 1 3#3 ⟨12, 0#12⟩) v) 3#3) (beforeExec (.ussMS 2 1 3#3 ⟨12, 0#12⟩) v)) fun m' w' =>
            m'.pa == 0x3000 && nextIs (exec (.ussMS 2 1 3#3 ⟨12, 0#12⟩) (beforeExec (.ussMS 2 1 3#3 ⟨12, 0#12⟩) v)) fun x =>
              decide (x ≠ takeTrap .ussfail w'.envTick)) (by decide +kernel)
  simp only [Bool.and_eq_true] at h2'
  obtain ⟨h3, h4⟩ := h2'
  obtain ⟨i, y, h5, h5'⟩ := okIs_exists h3
  obtain ⟨u, h6, h7⟩ := nextIs_exists h4
  obtain ⟨j, v, h8, h9⟩ := okIs_exists h7
  simp only [Bool.and_eq_true, beq_iff_eq] at h9 h1'
  obtain ⟨⟨rfl, h10⟩, h11⟩ := h9
  obtain ⟨m', w', h12, h13⟩ := okIs_exists h11
  simp only [Bool.and_eq_true, beq_iff_eq] at h13
  obtain ⟨h14, h15⟩ := h13
  obtain ⟨x, h16, h17⟩ := nextIs_exists h15
  refine ⟨s, s', t, u, v, w', x, m, m', h1, h2, ⟨.inr fun k z hk => ?_, u, h6, rfl⟩, h8, h12, h14.trans h1'.symm, h10, h16,
    of_decide_eq_true h17⟩
  rw [h5] at hk
  cases hk
  simpa using h5'

/-- Other units at a gate; and a target's turn. -/
theorem witness_OtherUnitsInterrupt :
    ({ data with env := [[⟨0x3010, toCells 16 1⟩]], cfg := { Config.standard with gates := [(0x3010, 5)] } } : State).envTick.irqs =
      [⟨5, 1#128⟩] ∧
    (let s : State := { imageId with irqs := [⟨7, 0x00000000000100000000000000003000#128⟩] }
     Quiet s ∧ targetStuck s 7 = false ∧
     okIs (targetTranslate 0x00000000000100000000000000003000#128 false s) (fun _ _ => true) = true ∧
     nextIs (step { s with turns := [.target ⟨0, false, [⟨0x3010, toCells 16 1⟩]⟩] }) (fun _ => true) = true) :=
  ⟨by decide +kernel, rfl, by decide +kernel, by decide +kernel, by decide +kernel⟩

end Sys2Proof.Tests
end

section
/-! PROOFS of the family `20_memory.md`: the strings in cells (R31, R32). -/

namespace Sys2Proof.Machine

/-- The cells of a longer string are those of its parts, one after the other. -/
theorem Memory.readCells_add (m : Memory) (a j n : Nat) :
    m.readCells a (j + n) = m.readCells a j ++ m.readCells (a + j) n := by
  induction j generalizing a with
  | zero => simp [Memory.readCells]
  | succ j ih => simp [Memory.readCells, Nat.succ_add, ih, Nat.add_assoc]

/-- Cells that come earlier hold the more significant bits. -/
theorem fromCells_append (bs cs : List Byte) :
    fromCells (bs ++ cs) = 2 ^ (8 * cs.length) * fromCells bs + fromCells cs := by
  induction bs with
  | nil => simp [fromCells]
  | cons b bs ih =>
    rw [List.cons_append, fromCells, fromCells, ih, List.length_append]
    ring

theorem testBit_fromCells_append (bs cs : List Byte) (k : Nat) :
    (fromCells (bs ++ cs)).testBit k =
      if k < 8 * cs.length then (fromCells cs).testBit k else (fromCells bs).testBit (k - 8 * cs.length) := by
  rw [fromCells_append, Nat.testBit_two_pow_mul_add _ (fromCells_lt cs)]

/-- A bit of cells between others, counted from the right: only the number of cells after it moves it. -/
theorem testBit_fromCells_middle (xs bs ys : List Byte) {k : Nat} (hk : k < 8 * bs.length) :
    (fromCells (xs ++ (bs ++ ys))).testBit (8 * ys.length + k) = (fromCells bs).testBit k := by
  have hin : 8 * ys.length + k < 8 * (bs ++ ys).length := by rw [List.length_append]; omega
  rw [testBit_fromCells_append, if_pos hin, testBit_fromCells_append, if_neg (by omega), Nat.add_sub_cancel_left]

/-- Bit `i` of a string from the left is bit `n - 1 - i` from the right. -/
theorem getMsbD_ofNat_of_lt {n i : Nat} (v : Nat) (h : i < n) : (BitVec.ofNat n v).getMsbD i = v.testBit (n - 1 - i) := by
  have h' : n - 1 - i < n := by omega
  rw [BitVec.getMsbD_eq_getLsbD, BitVec.getLsbD_ofNat, decide_eq_true h, decide_eq_true h', Bool.true_and, Bool.true_and]

/-- Settles O15: the long string is the `j` cells before, the `m` cells in question and the `k` cells after them; the `k` cells
after shift a bit's place from the right by `8 * k`, and so leave its place from the left at `8 * j + i`. -/
theorem cellsOfAString : Obligations.CellsOfAString := by
  intro mem a n j m i hjm hi
  obtain ⟨k, rfl⟩ := Nat.exists_eq_add_of_le hjm
  have hcells : mem.readCells a (j + m + k) =
      mem.readCells a j ++ (mem.readCells (a + j) m ++ mem.readCells (a + j + m) k) := by
    rw [Nat.add_assoc, Memory.readCells_add, Memory.readCells_add]
  have hplace : 8 * (j + m + k) - 1 - (8 * j + i) = 8 * (mem.readCells (a + j + m) k).length + (8 * m - 1 - i) := by
    rw [Memory.readCells_length]; omega
  have hmid : 8 * m - 1 - i < 8 * (mem.readCells (a + j) m).length := by
    rw [Memory.readCells_length]; omega
  rw [getMsbD_ofNat_of_lt _ hi, getMsbD_ofNat_of_lt _ (by omega), hcells, hplace, testBit_fromCells_middle _ _ _ hmid]

end Sys2Proof.Machine
end

section
/-! PROOFS of the family `60_exceptions.md`: ZSW is the test of S, after the permission check (R163, R57). -/

namespace Sys2Proof.Machine

/-- The source numbers the bits of a string from 1 (R3). -/
theorem bitOf_eq_getMsbD (e : Word) {i : Nat} (h1 : 1 ≤ i) (h64 : i ≤ 64) : bitOf e i = e.getMsbD (i - 1) := by
  have hi : i - 1 < 64 := by omega
  rw [bitOf, BitVec.getMsbD_eq_getLsbD, decide_eq_true hi, Bool.true_and]
  congr 1
  omega

/-- The gate pointer of a key, {1..59}, completed with zeros, is the key without its last 5 bits (R45, D3). -/
theorem gatePointer_eq (e : Word) : fieldOf e 1 59 * 32 = e.toNat / 2 ^ 5 * 2 ^ 5 := by
  have h : e.toNat / 2 ^ 5 < 2 ^ 59 := by have := e.isLt; omega
  exact congrArg (· * 32) (Nat.mod_eq_of_lt h)

/-- The holder, found without other units: the entry itself, or the gate, where it has its format or that is not checked. -/
theorem findHolder_quiet {s : State} {n ea ha : Nat} {e : Word} {k : Bool} (hq : Quiet s) (he : e = entryAt s.mem ea)
    (hha : ha = if k then e.toNat / 2 ^ 5 * 2 ^ 5 else ea) (hx : CellsExist s.cfg ha 8)
    (hg : k = true → s.cfg.gateFormatCheck = true → gateFormat n (entryAt s.mem ha) = true) :
    findHolder n e ea k s = .ok (ha, entryAt s.mem ha) s := by
  cases k with
  | false =>
    rw [if_neg Bool.false_ne_true] at hha
    rw [hha, ← he]
    rfl
  | true =>
    rw [if_pos rfl] at hha
    have hformat : (s.cfg.gateFormatCheck && !gateFormat n (entryAt s.mem ha)) ≠ true := by
      cases hc : s.cfg.gateFormatCheck with
      | false => exact Bool.false_ne_true
      | true => rw [hg rfl hc]; decide
    rw [findHolder, if_pos rfl, gatePointer_eq, ← hha, bind_of_ok _ (readEntry_quiet hq hx)]
    exact if_neg hformat

/-- The permission check is the first one: where it fails, the holder is not looked at (R57 step 1). -/
theorem frameAccess_denied {e : Word} {kind : AccessKind} (hp : permits kind e = false) (n ea : Nat) (k : Bool) (va : Word)
    (s : State) : frameAccess n e ea k va kind s = .trap .zee s := by
  unfold frameAccess
  rw [if_neg (Bool.eq_false_iff.mp hp)]
  rfl

section Found
variable {s : State} {n ea ha : Nat} {e h va : Word} {k : Bool} {kind : AccessKind}

/-- An allowed access whose holder is swapped raises ZSW and changes nothing (R57 step 3). -/
theorem frameAccess_swapped (hp : permits kind e = true) (hf : findHolder n e ea k s = .ok (ha, h) s)
    (hs : bitOf h 59 = true) : frameAccess n e ea k va kind s = .trap .zsw s := by
  unfold frameAccess
  rw [if_pos hp, bind_of_ok _ hf, if_pos hs]
  rfl

/-- An allowed access whose holder is not swapped goes on, a write after it has set M (R57 steps 4 and 5). -/
theorem frameAccess_present (hq : Quiet s) (hx : CellsExist s.cfg ha 8) (hp : permits kind e = true)
    (hf : findHolder n e ea k s = .ok (ha, h) s) (hs : bitOf h 59 = false) :
    frameAccess n e ea k va kind s = .ok ⟨framePa n h va, n, ha⟩
      (if kind = .write then s.storeCells ha (toCells 8 (setModified h).toNat) else s) := by
  have hx' : CellsExist s.cfg ha (toCells 8 (setModified h).toNat).length := by rwa [toCells_length]
  unfold frameAccess
  rw [if_pos hp, bind_of_ok _ hf, if_neg (Bool.eq_false_iff.mp hs)]
  by_cases hk : kind = .write
  · rw [if_pos hk, if_pos hk, bind_of_ok _ (physWrite_quiet hq hx')]
    rfl
  · rw [if_neg hk, if_neg hk]
    rfl

end Found

/-- Settles O21: an allowed access finds its holder, and S alone decides between ZSW and an address; an access that is not allowed
raises ZEE before S is tested. -/
theorem swappedRaisesZsw : Obligations.SwappedRaisesZsw := by
  intro s n ea e va isKey kind ha h hq he hha hh hx
  subst hh
  refine ⟨fun hp hg => ?_, fun hp _ => frameAccess_denied hp n ea isKey va s⟩
  have hf := findHolder_quiet hq he hha hx hg
  rw [← bitOf_eq_getMsbD (i := 59) _ (by decide) (by decide)]
  cases hs : bitOf (entryAt s.mem ha) 59 with
  | true => exact iff_of_true (frameAccess_swapped hp hf hs) rfl
  | false =>
    rw [frameAccess_present hq hx hp hf hs]
    exact iff_of_false (fun hok => nomatch hok) Bool.false_ne_true

end Sys2Proof.Machine
end

section
/-! PROOFS of the family "other", the encoding: decoding and encoding under RP-1 are inverse, and what is not recognized (R70 to R82). -/

open Sys2Proof.Machine Sys2Proof.Claims

namespace Sys2Proof

/-! From an instruction to its cells and back. -/

/-- A constant that fills a field is what the field gives back (R78). -/
theorem constOf_field {n : Nat} {c : Const} (h : constFits n c = true) : constOf (c.field n) = c := by
  obtain ⟨width, bits⟩ := c
  obtain rfl : width = n := by simpa [constFits] using h
  simp [constOf, Const.field]

/-- A 4-cell string whose opcode and constant bits are recognized decodes, whatever follows (R81). -/
theorem decode_four {op b2 b3 b4 : Byte} {rest : List Byte} {i : Instr} (hl : rp1Length op = some .four)
    (hi : rp1Full op b2 b3 b4 = some i) : decode ([op, b2, b3, b4] ++ rest) = .ok (i, rest) := by
  simp [decode, hl, Length.cells, rp1Instr, hi]

/-- A 2-cell string that is recognized decodes, whatever follows (R81). -/
theorem decode_two {op b2 : Byte} {rest : List Byte} {i : Instr} (hl : rp1Length op = some .two)
    (hi : rp1Half op b2 = some i) : decode ([op, b2] ++ rest) = .ok (i, rest) := by
  simp [decode, hl, Length.cells, rp1Instr, hi]

section Alu
variable {op : Byte} {z q : Reg} {ae : Bool} {g : BitVec 3} {a w : Const} {rest : List Byte} {i : Instr}

/-- The constant format of a bitwise or arithmetic instruction (R76). -/
theorem decode_aluK (hl : rp1Length op = some .four) (hf : opForm op = 0b11#2) (hg : opGroup op = 0b10#2)
    (hi : aluK (opNumber op) z w = some i) (hw : constFits 16 w = true) :
    decode (packK op z (w.field 16) ++ rest) = .ok (i, rest) :=
  decode_four hl (by simp [rp1Full, rp1Constant, hf, hg, constOf_field hw, hi])

/-- The load form of a bitwise or arithmetic instruction (R73). -/
theorem decode_aluML (hl : rp1Length op = some .four) (hf : opForm op = 0b00#2) (hg : opGroup op = 0b10#2)
    (hi : aluML (opNumber op) z q ae g a = some i) (ha : constFits 12 a = true) :
    decode (packM op z q ae g (a.field 12) ++ rest) = .ok (i, rest) :=
  decode_four hl (by simp [rp1Full, rp1Load, hf, hg, constOf_field ha, hi])

/-- The store form of a bitwise or arithmetic instruction (R73). -/
theorem decode_aluMS (hl : rp1Length op = some .four) (hf : opForm op = 0b10#2) (hg : opGroup op = 0b10#2)
    (hi : aluMS (opNumber op) z q ae g a = some i) (ha : constFits 12 a = true) :
    decode (packM op z q ae g (a.field 12) ++ rest) = .ok (i, rest) :=
  decode_four hl (by simp [rp1Full, rp1Store, hf, hg, constOf_field ha, hi])

/-- The register format of a bitwise or arithmetic instruction (R72). -/
theorem decode_aluRR (hl : rp1Length op = some .two) (hf : opForm op = 0b01#2) (hg : opGroup op = 0b10#2)
    (hi : aluRR (opNumber op) z q = some i) : decode (packRR op z q ++ rest) = .ok (i, rest) :=
  decode_two hl (by simp [rp1Half, hf, hg, hi])

end Alu

/-- Settles O1: the opcode byte gives the format, and the format's cells give back its fields. -/
theorem decodeOfEncode : Obligations.DecodeOfEncode := by
  intro i rest h
  cases i with
  | lshK z w | rnsK z w | rfsK z w | thrK z w | andK z w | orK z w | notK z w | sswK z w | givK z w | tacK z w | fldK z w
  | cutK z w => exact decode_aluK rfl rfl rfl rfl h
  | lshML z q ae g a | rnsML z q ae g a | rfsML z q ae g a | thrML z q ae g a | andML z q ae g a | orML z q ae g a
  | notML z q ae g a | sswML z q ae g a | givML z q ae g a | tacML z q ae g a | fldML z q ae g a | cutML z q ae g a =>
    exact decode_aluML rfl rfl rfl rfl h
  | lshMS z q ae g a | rnsMS z q ae g a | rfsMS z q ae g a | thrMS z q ae g a | andMS z q ae g a | orMS z q ae g a
  | notMS z q ae g a | sswMS z q ae g a | givMS z q ae g a | tacMS z q ae g a | fldMS z q ae g a | cutMS z q ae g a =>
    exact decode_aluMS rfl rfl rfl rfl h
  | lshRR z q | rnsRR z q | rfsRR z q | thrRR z q | andRR z q | orRR z q | notRR z q | sswRR z q | givRR z q | tacRR z q
  | fldRR z q | cutRR z q => exact decode_aluRR rfl rfl rfl rfl
  | sciK cond r w | jmpK cond r w =>
    obtain ⟨hc, hw⟩ := Bool.and_eq_true_iff.1 h
    have hcond := condBits_condField (beq_iff_eq.1 hc)
    exact decode_four (by simp [rp1Length]; rfl) (by simp [rp1Full, rp1Constant, hcond, constOf_field hw])
  | sciBA cond r q a | jmpBA cond r q a =>
    obtain ⟨hc, ha⟩ := Bool.and_eq_true_iff.1 h
    have hcond := condBits_condField (beq_iff_eq.1 hc)
    exact decode_four (by simp [rp1Length]; rfl) (by simp [rp1Full, rp1Load, hcond, constOf_field ha])
  | sciRR cond r q | jmpRR cond r q =>
    have hcond := condBits_condField (beq_iff_eq.1 h)
    exact decode_two (by simp [rp1Length]; rfl) (by simp [rp1Half, hcond])
  | strK z w =>
    have hn : opNumber 0xF0#8 = 0x0#4 := rfl
    exact decode_four rfl (by simp [rp1Full, rp1Constant, opForm, opGroup, hn, constOf_field h])
  | strML z q ae g a =>
    have hn : opNumber 0x30#8 = 0x0#4 := rfl
    exact decode_four rfl (by simp [rp1Full, rp1Load, opForm, opGroup, hn, constOf_field h])
  | strMS z q ae g a =>
    have hn : opNumber 0xB0#8 = 0x0#4 := rfl
    exact decode_four rfl (by simp [rp1Full, rp1Store, opForm, opGroup, hn, constOf_field h])
  | ussML z q g a =>
    have hn : opNumber 0x31#8 = 0x1#4 := rfl
    exact decode_four rfl (by simp [rp1Full, rp1Load, opForm, opGroup, hn, constOf_field h])
  | ussMS z q g a =>
    have hn : opNumber 0xB1#8 = 0x1#4 := rfl
    exact decode_four rfl (by simp [rp1Full, rp1Store, opForm, opGroup, hn, constOf_field h])
  | brsBA r q a =>
    have hn : opNumber 0x32#8 = 0x2#4 := rfl
    exact decode_four rfl (by simp [rp1Full, rp1Load, opForm, opGroup, hn, constOf_field h])
  | udb z q a =>
    obtain ⟨hq, ha⟩ := Bool.and_eq_true_iff.1 h
    have hn : opNumber 0xB2#8 = 0x2#4 := rfl
    exact decode_four rfl (by simp [rp1Full, rp1Store, opForm, opGroup, hn, hq, constOf_field ha])
  | strRR z q =>
    have hn : opNumber 0x70#8 = 0x0#4 := rfl
    exact decode_two rfl (by simp [rp1Half, opForm, opGroup, hn])
  | brsRR r q =>
    have hn : opNumber 0x72#8 = 0x2#4 := rfl
    exact decode_two rfl (by simp [rp1Half, opForm, opGroup, hn])

/-! From cells to an instruction and back. -/

/-- The parts of an opcode byte are all of it (R80). -/
theorem op_of_parts {op : Byte} {f k : BitVec 2} (hf : opForm op = f) (hk : opGroup op = k) : op = f ++ k ++ opNumber op := by
  subst hf hk
  revert op
  decide +kernel

/-- A constant fits the field that it was read from. -/
@[simp] theorem constFits_constOf {n : Nat} (b : BitVec n) : constFits n (constOf b) = true := by simp [constFits, constOf]

@[simp] theorem field_constOf {n : Nat} (b : BitVec n) : (constOf b).field n = b := by simp [constOf, Const.field]

@[simp] theorem condFits_condBits (n : BitVec 4) : condFits (condBits n) = true := rfl

/-- The instruction is well-formed, and these cells are its encoding. -/
def Encodes (cells : List Byte) (i : Instr) : Prop := WellFormed i = true ∧ cells = encode i

section Parts
variable (op b2 b3 b4 : Byte)

theorem packRR_parts : packRR op (regOf (hiNibble b2)) (regOf (loNibble b2)) = [op, b2] := by simp [packRR]

theorem packM_parts : packM op (regOf (hiNibble b2)) (regOf (loNibble b2)) (aeBit b3) (gField b3) (disp12 b3 b4) =
    [op, b2, b3, b4] := by simp [packM]

theorem packK_parts {b2 : Byte} (h : loNibble b2 = 0x0#4) :
    packK op (regOf (hiNibble b2)) (const16 b3 b4) = [op, b2, b3, b4] := by
  have hb : hiNibble b2 ++ 0x0#4 = b2 := by rw [← h]; exact append_nibbles b2
  simp only [packK, regBits_regOf, hb, const16_hi, const16_lo]

end Parts

section Alu
variable {n : BitVec 4} {z q : Reg} {ae : Bool} {g : BitVec 3} {a w : Const} {i : Instr}

theorem encodes_aluK (hw : constFits 16 w = true) (h : aluK n z w = some i) : Encodes (packK (0xE#4 ++ n) z (w.field 16)) i := by
  unfold aluK at h
  split at h <;> cases h <;> exact ⟨hw, rfl⟩

theorem encodes_aluML (ha : constFits 12 a = true) (h : aluML n z q ae g a = some i) :
    Encodes (packM (0x2#4 ++ n) z q ae g (a.field 12)) i := by
  unfold aluML at h
  split at h <;> cases h <;> exact ⟨ha, rfl⟩

theorem encodes_aluMS (ha : constFits 12 a = true) (h : aluMS n z q ae g a = some i) :
    Encodes (packM (0xA#4 ++ n) z q ae g (a.field 12)) i := by
  unfold aluMS at h
  split at h <;> cases h <;> exact ⟨ha, rfl⟩

theorem encodes_aluRR (h : aluRR n z q = some i) : Encodes (packRR (0x6#4 ++ n) z q) i := by
  unfold aluRR at h
  split at h <;> cases h <;> exact ⟨rfl, rfl⟩

end Alu

theorem two_bits (v : BitVec 2) : v = 0b00#2 ∨ v = 0b01#2 ∨ v = 0b10#2 ∨ v = 0b11#2 := by
  revert v
  decide

section Formats
variable {op b2 b3 b4 : Byte} {i : Instr}

theorem encodes_rp1Half (h : rp1Half op b2 = some i) : Encodes [op, b2] i := by
  by_cases hf : opForm op = 0b01#2
  case neg => simp [rp1Half, hf] at h
  have hop := op_of_parts hf rfl
  rw [← packRR_parts op b2]
  rcases two_bits (opGroup op) with hg | hg | hg | hg <;> rw [hg] at hop <;> simp [rp1Half, hf, hg] at h
  · subst h; exact ⟨rfl, congrArg (packRR · _ _) (by simpa [condOp] using hop)⟩
  · subst h; exact ⟨rfl, congrArg (packRR · _ _) (by simpa [condOp] using hop)⟩
  · rw [hop]; exact encodes_aluRR h
  · split at h <;> rename_i hn <;> cases h <;> rw [hn] at hop <;> exact ⟨rfl, congrArg (packRR · _ _) hop⟩

theorem encodes_rp1Constant (hf : opForm op = 0b11#2) (h : rp1Constant op b2 b3 b4 = some i) : Encodes [op, b2, b3, b4] i := by
  by_cases hz : loNibble b2 = 0x0#4
  case neg => simp [rp1Constant, hz] at h
  have hop := op_of_parts hf rfl
  rw [← packK_parts op b3 b4 hz]
  rcases two_bits (opGroup op) with hg | hg | hg | hg <;> rw [hg] at hop <;> simp [rp1Constant, hz, hg] at h
  · subst h; exact ⟨by simp [WellFormed], by simpa [encode, condOp] using congrArg (packK · _ _) hop⟩
  · subst h; exact ⟨by simp [WellFormed], by simpa [encode, condOp] using congrArg (packK · _ _) hop⟩
  · rw [hop]; simpa using encodes_aluK (constFits_constOf _) h
  · obtain ⟨hn, rfl⟩ := h
    rw [hn] at hop
    exact ⟨by simp [WellFormed], by simpa [encode] using congrArg (packK · _ _) hop⟩

theorem encodes_rp1Load (hf : opForm op = 0b00#2) (h : rp1Load op b2 b3 b4 = some i) : Encodes [op, b2, b3, b4] i := by
  have hop := op_of_parts hf rfl
  rcases two_bits (opGroup op) with hg | hg | hg | hg <;> rw [hg] at hop <;> simp [rp1Load, hg] at h
  · subst h; exact ⟨by simp [WellFormed], by simpa [encode, condOp, packBA] using hop⟩
  · subst h; exact ⟨by simp [WellFormed], by simpa [encode, condOp, packBA] using hop⟩
  · rw [← packM_parts op b2 b3 b4, hop]; simpa using encodes_aluML (constFits_constOf _) h
  · split at h <;> rename_i hn
    · cases h; rw [hn] at hop; exact ⟨by simp [WellFormed], by simpa [encode, packM] using hop⟩
    · rw [hn] at hop
      by_cases hae : aeBit b3 = true <;> simp [hae] at h
      subst h
      rw [Bool.not_eq_true] at hae
      exact ⟨by simp [WellFormed], by simpa [encode, ← hae, packM] using hop⟩
    · cases h; rw [hn] at hop; exact ⟨by simp [WellFormed], by simpa [encode, packBA] using hop⟩
    · cases h

theorem encodes_rp1Store (hf : opForm op = 0b10#2) (h : rp1Store op b2 b3 b4 = some i) : Encodes [op, b2, b3, b4] i := by
  have hop := op_of_parts hf rfl
  rcases two_bits (opGroup op) with hg | hg | hg | hg <;> rw [hg] at hop <;> simp [rp1Store, hg] at h
  · rw [← packM_parts op b2 b3 b4, hop]; simpa using encodes_aluMS (constFits_constOf _) h
  · split at h <;> rename_i hn
    · cases h; rw [hn] at hop; exact ⟨by simp [WellFormed], by simpa [encode, packM] using hop⟩
    · rw [hn] at hop
      by_cases hae : aeBit b3 = true <;> simp [hae] at h
      subst h
      rw [Bool.not_eq_true] at hae
      exact ⟨by simp [WellFormed], by simpa [encode, ← hae, packM] using hop⟩
    · rw [hn] at hop
      by_cases hq : pairFirst (regOf (loNibble b2)) = true <;> simp [hq] at h
      subst h
      exact ⟨by simp [WellFormed, hq], by simpa [encode, packBA] using hop⟩
    · cases h

/-- Cells that hold an instruction, all of it and nothing more, are its encoding (R80, R82). -/
theorem encodes_rp1Instr {cells : List Byte} (h : rp1Instr cells = some i) : Encodes cells i := by
  unfold rp1Instr at h
  split at h
  · exact encodes_rp1Half h
  · next op b2 b3 b4 =>
    rcases two_bits (opForm op) with hf | hf | hf | hf <;> simp [rp1Full, hf] at h
    · exact encodes_rp1Load hf h
    · exact encodes_rp1Store hf h
    · exact encodes_rp1Constant hf h
  · cases h

end Formats

/-- What `decode` does where it answers an instruction (R81). -/
theorem decode_ok {bs rest : List Byte} {i : Instr} (h : decode bs = .ok (i, rest)) :
    ∃ n, rp1Instr (bs.take n) = some i ∧ rest = bs.drop n := by
  cases bs with
  | nil => cases h
  | cons op tail =>
    cases hl : rp1Length op with
    | none => simp [decode, hl] at h
    | some len =>
      simp only [decode, hl] at h
      split at h
      · cases h
      · split at h <;> cases h
        exact ⟨len.cells, by assumption, rfl⟩

/-- Settles O2: the cells that the instruction takes are its encoding, and the rest is what follows them. -/
theorem encodeOfDecode : Obligations.EncodeOfDecode := by
  intro bs rest i h
  obtain ⟨n, hi, rfl⟩ := decode_ok h
  obtain ⟨hw, hcells⟩ := encodes_rp1Instr hi
  exact ⟨hw, by rw [← hcells, List.take_append_drop]⟩

/-! What is not recognized (R82). -/

theorem rp1Length_eq_none_iff (op : Byte) : rp1Length op = none ↔ UnknownOpcode op := by
  unfold UnknownOpcode
  revert op
  decide +kernel

theorem opcode_uss_load (op : Byte) : op = 0x31#8 ↔ opForm op = 0b00#2 ∧ opGroup op = 0b11#2 ∧ opNumber op = 0x1#4 := by
  revert op
  decide +kernel

theorem opcode_uss_store (op : Byte) : op = 0xB1#8 ↔ opForm op = 0b10#2 ∧ opGroup op = 0b11#2 ∧ opNumber op = 0x1#4 := by
  revert op
  decide +kernel

theorem opcode_udb (op : Byte) : op = 0xB2#8 ↔ opForm op = 0b10#2 ∧ opGroup op = 0b11#2 ∧ opNumber op = 0x2#4 := by
  revert op
  decide +kernel

/-- The first twelve numbers, one by one. -/
theorem lt_twelve {n : BitVec 4} (h : n.toNat < 12) : n ∈ [0x0#4, 0x1#4, 0x2#4, 0x3#4, 0x4#4, 0x5#4, 0x6#4, 0x7#4, 0x8#4,
    0x9#4, 0xA#4, 0xB#4] := by
  revert n
  decide

section Numbers
variable {n : BitVec 4} (hn : n.toNat < 12) (z q : Reg) (ae : Bool) (g : BitVec 3) (a w : Const)
include hn

theorem aluK_ne_none : aluK n z w ≠ none := by
  unfold aluK
  have hcases := lt_twelve hn
  split <;> simp_all

theorem aluML_ne_none : aluML n z q ae g a ≠ none := by
  unfold aluML
  have hcases := lt_twelve hn
  split <;> simp_all

theorem aluMS_ne_none : aluMS n z q ae g a ≠ none := by
  unfold aluMS
  have hcases := lt_twelve hn
  split <;> simp_all

theorem aluRR_ne_none : aluRR n z q ≠ none := by
  unfold aluRR
  have hcases := lt_twelve hn
  split <;> simp_all

end Numbers

section Recognized
variable {op : Byte} (hl : rp1Length op ≠ none)
include hl

theorem opNumber_lt_of_alu (hg : opGroup op = 0b10#2) : (opNumber op).toNat < 12 := by
  by_contra h
  exact hl (by simp [rp1Length, hg, h])

theorem opNumber_of_move (hg : opGroup op = 0b11#2) : opNumber op = 0x0#4 ∨
    (opNumber op = 0x1#4 ∧ (opForm op = 0b00#2 ∨ opForm op = 0b10#2)) ∨ (opNumber op = 0x2#4 ∧ opForm op ≠ 0b11#2) := by
  by_contra h
  exact hl (by simp [rp1Length, hg, h])

/-- In the register format no bit is constant (R72). -/
theorem rp1Half_ne_none (hf : opForm op = 0b01#2) (b2 : Byte) : rp1Half op b2 ≠ none := by
  rcases two_bits (opGroup op) with hg | hg | hg | hg <;> simp [rp1Half, hf, hg]
  · exact aluRR_ne_none (opNumber_lt_of_alu hl hg) _ _
  · rcases opNumber_of_move hl hg with hn | ⟨hn, hf'⟩ | ⟨hn, -⟩
    · simp [hn]
    · simp [hf] at hf'
    · simp [hn]

/-- In the constant format bits {13..16} are 0 (R76). -/
theorem rp1Constant_eq_none_iff (hf : opForm op = 0b11#2) (b2 b3 b4 : Byte) :
    rp1Constant op b2 b3 b4 = none ↔ loNibble b2 ≠ 0x0#4 := by
  rcases two_bits (opGroup op) with hg | hg | hg | hg <;> simp [rp1Constant, hg]
  · by_cases hz : loNibble b2 = 0x0#4 <;> simp [hz, aluK_ne_none (opNumber_lt_of_alu hl hg)]
  · rcases opNumber_of_move hl hg with hn | ⟨hn, hf'⟩ | ⟨hn, hf'⟩
    · simp [hn]
    · simp [hf] at hf'
    · simp [hf] at hf'

/-- With F = 00 bit {17} of USS is 0 (R73, R82). -/
theorem rp1Load_eq_none_iff (hf : opForm op = 0b00#2) (b2 b3 b4 : Byte) :
    rp1Load op b2 b3 b4 = none ↔ op = 0x31#8 ∧ aeBit b3 = true := by
  rw [opcode_uss_load]
  rcases two_bits (opGroup op) with hg | hg | hg | hg <;> simp [rp1Load, hf, hg]
  · exact aluML_ne_none (opNumber_lt_of_alu hl hg) _ _ _ _ _
  · rcases opNumber_of_move hl hg with hn | ⟨hn, -⟩ | ⟨hn, -⟩ <;> simp [hn]

/-- With F = 10 bit {17} of USS is 0, and bit {16} of UDB (R73, R75, R82). -/
theorem rp1Store_eq_none_iff (hf : opForm op = 0b10#2) (b2 b3 b4 : Byte) : rp1Store op b2 b3 b4 = none ↔
    (op = 0xB2#8 ∧ pairFirst (regOf (loNibble b2)) = false) ∨ (op = 0xB1#8 ∧ aeBit b3 = true) := by
  rw [opcode_udb, opcode_uss_store]
  rcases two_bits (opGroup op) with hg | hg | hg | hg
  · exact absurd (by simp [rp1Length, hf, hg]) hl
  · exact absurd (by simp [rp1Length, hf, hg]) hl
  · simp [rp1Store, hg]
    exact aluMS_ne_none (opNumber_lt_of_alu hl hg) _ _ _ _ _
  · rcases opNumber_of_move hl hg with hn | ⟨hn, -⟩ | ⟨hn, -⟩ <;> simp [rp1Store, hf, hg, hn]

end Recognized

theorem pairFirst_eq_false_iff (b2 : Byte) : pairFirst (regOf (loNibble b2)) = false ↔ b2.getLsbD 0 = true := by
  revert b2
  decide +kernel

/-- The length is a function of F alone (R81). -/
theorem rp1Length_of_ne_none {op : Byte} (h : rp1Length op ≠ none) : rp1Length op = some (lengthOfForm (opForm op)) := by
  revert op
  decide +kernel

section FourCells
variable {op b2 b3 b4 : Byte} {rest : List Byte}

theorem decode_unknown (hl : rp1Length op = none) : decode (op :: b2 :: b3 :: b4 :: rest) = .error .unknownOpcode := by
  simp [decode, hl]

theorem decode_known {len : Length} (hl : rp1Length op = some len) : decode (op :: b2 :: b3 :: b4 :: rest) ≠ .error .unknownOpcode ∧
    (decode (op :: b2 :: b3 :: b4 :: rest) = .error .constantBits ↔ rp1Instr ([op, b2, b3, b4].take len.cells) = none) := by
  cases len
  · cases hi : rp1Instr [op, b2] <;> simp [decode, hl, Length.cells, hi]
  · have hlen : ¬rest.length + 1 + 1 + 1 + 1 < 4 := by omega
    cases hi : rp1Instr [op, b2, b3, b4] <;> simp [decode, hl, Length.cells, hi, hlen]

/-- Of an assigned opcode exactly the last three cases of R82 are not recognized. -/
theorem rp1Instr_eq_none_iff (hl : rp1Length op ≠ none) :
    rp1Instr ([op, b2, b3, b4].take (lengthOfForm (opForm op)).cells) = none ↔ WrongConstant op b2 b3 := by
  have hae : b3.getMsbD 0 = aeBit b3 := rfl
  unfold WrongConstant
  rw [hae, ← pairFirst_eq_false_iff, opcode_udb, opcode_uss_load, opcode_uss_store]
  rcases two_bits (opForm op) with hf | hf | hf | hf <;> simp [hf, lengthOfForm, Length.cells, rp1Instr, rp1Full]
  · rw [rp1Load_eq_none_iff hl hf, opcode_uss_load]
    simp [hf]
  · exact rp1Half_ne_none hl hf b2
  · rw [rp1Store_eq_none_iff hl hf, opcode_udb, opcode_uss_store]
    simp [hf]
  · exact rp1Constant_eq_none_iff hl hf b2 b3 b4

end FourCells

/-- Settles O4: the opcode map answers nothing exactly for the unassigned opcodes, and an assigned one is refused exactly for a wrong
constant bit of its format. -/
theorem unrecognizedEncodings : Obligations.UnrecognizedEncodings := by
  intro op b2 b3 b4 rest
  rw [← rp1Length_eq_none_iff]
  by_cases hl : rp1Length op = none
  · rw [decode_unknown hl]
    simp [hl]
  · obtain ⟨hknown, hconst⟩ := decode_known (b2 := b2) (b3 := b3) (b4 := b4) (rest := rest) (rp1Length_of_ne_none hl)
    rw [hconst, rp1Instr_eq_none_iff hl]
    simp [hl, hknown]

/-- Settles O3. -/
theorem wordsOfTheSpecDecode : Obligations.WordsOfTheSpecDecode := by
  unfold Obligations.WordsOfTheSpecDecode
  decide +kernel

end Sys2Proof
end

section
/-! PROOFS of the family "other", the laws they share. What a step of the machine can do, said once (`step_rel`), and the forms that
the pseudocode of an instruction takes (`Form`): reads, then at most one store, then the update of registers, SR.C and IP. -/

open Sys2Proof.Claims

namespace Sys2Proof.Machine

/-! Which conditions a piece of pseudocode raises. -/

/-- `m` raises conditions of `P` only. -/
def Act.Raises {α : Type} (P : Condition → Prop) (m : Act α) : Prop := ∀ s c t, m s = .trap c t → P c

/-- The conditions of a translation (R162, R163). -/
def OfTranslation (c : Condition) : Prop := c = .zee ∨ c = .zsw

/-- No condition. -/
def NoCondition (_ : Condition) : Prop := False

section Raises
variable {α β : Type} {P : Condition → Prop}

theorem raises_bind {m : Act α} {f : α → Act β} (hm : m.Raises P) (hf : ∀ a, (f a).Raises P) : (m.bind f).Raises P := by
  intro s c t e
  rcases bind_trap e with e | ⟨a, u, -, e⟩
  · exact hm s c t e
  · exact hf a u c t e

theorem raises_pure (a : α) : (Act.pure a).Raises P := fun _ _ _ e => nomatch e

theorem raises_get (f : State → α) : (Act.get f).Raises P := fun _ _ _ e => nomatch e

theorem raises_modify (f : State → State) : (Act.modify f).Raises P := fun _ _ _ e => nomatch e

theorem raises_raise {c : Condition} (h : P c) : (raise c : Act α).Raises P := fun _ _ _ e => by cases e; exact h

theorem raises_ite {p : Prop} [Decidable p] {m n : Act α} (hm : m.Raises P) (hn : n.Raises P) :
    (if p then m else n).Raises P := by
  split
  · exact hm
  · exact hn

theorem raises_state {m : State → Act α} (h : ∀ s, (m s).Raises P) : Act.Raises P fun s => m s s := fun s => h s s

theorem physRead_raises (a n : Nat) : (physRead a n).Raises P := fun _ _ _ e => (physRead_no_trap _ _ _ _ _ e).elim

theorem physWrite_raises (a : Nat) (bs : List Byte) : (physWrite a bs).Raises P :=
  fun _ _ _ e => (physWrite_no_trap _ _ _ _ _ e).elim

theorem readEntry_raises (a : Nat) : (readEntry a).Raises P := raises_bind (physRead_raises a 8) fun _ => raises_pure _

end Raises

section Translation

theorem findHolder_raises (n : Nat) (e : Word) (ea : Nat) (k : Bool) : (findHolder n e ea k).Raises OfTranslation := by
  unfold findHolder
  refine raises_ite (raises_bind (readEntry_raises _) fun h s c t e => ?_) (raises_pure _)
  split at e <;> cases e
  exact .inl rfl

theorem frameAccess_raises (n : Nat) (e : Word) (ea : Nat) (k : Bool) (va : Word) (kind : AccessKind) :
    (frameAccess n e ea k va kind).Raises OfTranslation := by
  unfold frameAccess
  refine raises_ite (raises_bind (findHolder_raises n e ea k) fun h => ?_) (raises_raise (.inl rfl))
  exact raises_ite (raises_raise (.inr rfl))
    (raises_bind (raises_ite (physWrite_raises _ _) (raises_pure _)) fun _ => raises_pure _)

theorem walk_raises (va : Word) (kind : AccessKind) (n tb : Nat) : (walk va kind n tb).Raises OfTranslation := by
  induction n generalizing tb with
  | zero => exact raises_raise (.inl rfl)
  | succ n ih =>
    refine raises_bind (readEntry_raises _) fun e => ?_
    cases entryKind (n + 1) e
    · exact frameAccess_raises _ _ _ _ _ _
    · exact frameAccess_raises _ _ _ _ _ _
    · exact ih _
    · exact raises_raise (.inl rfl)

theorem translate_raises (root : Nat) (va : Word) (kind : AccessKind) (n : Nat) :
    (translate root va kind n).Raises OfTranslation := by
  refine raises_bind (walk_raises va kind 6 root) fun m s c t e => ?_
  split at e <;> cases e

/-- A translation raises ZEE or ZSW only (R162, R163). -/
theorem unitTranslate_raises (va : Word) (kind : AccessKind) (n : Nat) : (unitTranslate va kind n).Raises OfTranslation :=
  raises_state (m := fun s => translate (rootAddr s) va kind n) fun s => translate_raises (rootAddr s) va kind n

theorem memRead_raises (va : Word) (n : Nat) (kind : AccessKind) : (memRead va n kind).Raises OfTranslation :=
  raises_bind (unitTranslate_raises va kind n) fun _ => physRead_raises _ _

theorem memWrite_raises (va : Word) (bs : List Byte) : (memWrite va bs).Raises OfTranslation :=
  raises_bind (unitTranslate_raises va .write _) fun _ => raises_bind (physWrite_raises _ _) fun _ => raises_modify _

end Translation

/-! The parts of an instruction: what only reads, and what only ends it. -/

/-- `m` only reads: it keeps whatever reads keep, and raises only what translations raise. -/
structure Source {α : Type} (m : Act α) : Prop where
  within : ∀ {R : State → State → Prop}, Reading R → m.Within R
  raises : m.Raises OfTranslation

theorem source_pure {α : Type} (a : α) : Source (Act.pure a) := ⟨fun hR => within_pure hR.chains a, raises_pure a⟩

theorem source_get {α : Type} (f : State → α) : Source (Act.get f) := ⟨fun hR => within_get hR.chains f, raises_get f⟩

theorem source_bind {α β : Type} {m : Act α} {f : α → Act β} (hm : Source m) (hf : ∀ a, Source (f a)) : Source (m.bind f) :=
  ⟨fun hR => within_bind hR.chains (hm.within hR) fun a => (hf a).within hR, raises_bind hm.raises fun a => (hf a).raises⟩

theorem source_state {α : Type} {m : State → Act α} (h : ∀ s, Source (m s)) : Source fun s => m s s :=
  ⟨fun hR => within_state fun s => (h s).within hR, raises_state fun s => (h s).raises⟩

theorem source_memRead (va : Word) (n : Nat) {kind : AccessKind} (hk : kind ≠ .write) : Source (memRead va n kind) :=
  ⟨fun hR => memRead_within hR (fun h => absurd h hk) va n, memRead_raises va n kind⟩

theorem source_computes {f : AluFn} (hf : Computes f) (b : Bool) (t src : Word) : Source (f b t src) := by
  refine ⟨fun hR => computes_within hR.chains hf b t src, fun s c u e => ?_⟩
  rcases hf b t src s with ⟨v, h⟩ | ⟨r, h⟩ <;> rw [h] at e <;> cases e

theorem source_loadSource (q : Reg) (ae : Bool) (g : BitVec 3) (a : Const) : Source (loadSource q ae g a) :=
  source_state (m := fun s => (memRead (effAddr s q ae a) (gCells s g) .data).bind fun bs => .pure (widen (gSigned s g) bs))
    fun _ => source_bind (source_memRead _ _ (by decide)) fun _ => source_pure _

theorem source_mControl (q : Reg) (a : Const) : Source (mControl q a) :=
  source_state (m := fun s => (memRead (s.getReg q + dispOf s a) 8 .data).bind fun bs => .pure (BitVec.ofNat 64 (fromCells bs)))
    fun _ => source_bind (source_memRead _ _ (by decide)) fun _ => source_pure _

theorem source_bitTarget (u : Bool) (va : Word) (n : Nat) : Source (bitTarget u va n) := by
  cases u
  · exact source_pure _
  · exact source_memRead va n (by decide)

/-- Reads change nothing without other units. -/
theorem Source.quiet {α : Type} {m : Act α} (h : Source m) {s : State} (hq : Quiet s) : (m s).state = s :=
  h.within reading_quiet s hq

/-- A relation that the end of an instruction keeps: the update of its registers, of SR.C, and of IP by a control instruction. -/
structure EndKeeps (R : State → State → Prop) (i : Instr) : Prop where
  chains : Chains R
  dest : ∀ r ∈ destRegs i, ∀ s v, R s (s.setReg r v)
  ip : isControl i = true → ∀ s v, R s (s.setIp v)
  hook : ∀ s ops res v, ccUpdate s.cfg i ops res = some v → R s (s.setCc v)

/-- `m` only ends instruction `i`: it updates its registers, SR.C, and IP if `i` is a control instruction, and raises nothing. -/
structure Ending {α : Type} (i : Instr) (m : Act α) : Prop where
  within : ∀ {R : State → State → Prop}, EndKeeps R i → m.Within R
  raises : m.Raises NoCondition

section Ending
variable {i : Instr} {α β : Type}

theorem ending_pure (a : α) : Ending i (Act.pure a) := ⟨fun hR => within_pure hR.chains a, raises_pure a⟩

theorem ending_bind {m : Act α} {f : α → Act β} (hm : Ending i m) (hf : ∀ a, Ending i (f a)) : Ending i (m.bind f) :=
  ⟨fun hR => within_bind hR.chains (hm.within hR) fun a => (hf a).within hR, raises_bind hm.raises fun a => (hf a).raises⟩

theorem ending_state {m : State → Act α} (h : ∀ s, Ending i (m s)) : Ending i fun s => m s s :=
  ⟨fun hR => within_state fun s => (h s).within hR, raises_state fun s => (h s).raises⟩

theorem ending_computes {f : AluFn} (hf : Computes f) (b : Bool) (t src : Word) : Ending i (f b t src) := by
  refine ⟨fun hR => computes_within hR.chains hf b t src, fun s c u e => ?_⟩
  rcases hf b t src s with ⟨v, h⟩ | ⟨r, h⟩ <;> rw [h] at e <;> cases e

theorem EndKeeps.hooked {R : State → State → Prop} (hR : EndKeeps R i) (ops res : List Word) (s : State) :
    R s (hooked i ops res s) := by
  rcases hooked_cases i ops res s with h | ⟨v, h1, h2⟩
  · rw [h]; exact hR.chains.refl s
  · rw [h2]; exact hR.hook s ops res v h1

theorem ending_updateCc (ops res : List Word) : Ending i (updateCc i ops res) :=
  ⟨fun hR s => hR.hooked ops res s, raises_modify _⟩

theorem ending_hook (ops res : List Word) (b : Bool) : Ending i ((updateCc i ops res).bind fun _ => .pure b) :=
  ending_bind (ending_updateCc ops res) fun _ => ending_pure b

theorem ending_writeReg {r : Reg} (h : r ∈ destRegs i) (v : Word) : Ending i (writeReg r v) :=
  ⟨fun hR => within_modify fun s => hR.dest r h s v, raises_modify _⟩

theorem EndKeeps.withDisp {R : State → State → Prop} (hR : EndKeeps R i) {r : Reg} {ae : Bool} (h : ae = true → r ∈ destRegs i)
    (a : Const) (s : State) : R s (withDisp s r ae a) := by
  cases ae with
  | false => exact hR.chains.refl s
  | true => exact hR.dest r (h rfl) s _

theorem ending_addDisp {r : Reg} {ae : Bool} (h : ae = true → r ∈ destRegs i) (a : Const) : Ending i (addDisp r ae a) :=
  ⟨fun hR => within_modify fun s => hR.withDisp h a s, raises_modify _⟩

end Ending

/-- The outcome is read off how the pseudocode ends. -/
theorem finish_congr {i : Instr} {body body' : Act Bool} {s s' : State} (h : body s = body' s') :
    finish i body s = finish i body' s' := by
  unfold finish
  rw [h]

/-! The forms of the pseudocode. -/

/-- How instruction `i` runs from the state `s`. -/
inductive Form (i : Instr) (s : State) : Prop
  /-- It reads, and then ends. -/
  | reads {α : Type} (pre : Act α) (post : α → Act Bool) (hp : storesAt i s = none) (hu : isUss i = false) (hb : isBrs i = false)
      (hpre : Source pre) (hpost : ∀ x, Ending i (post x)) (he : exec i s = finish i (pre.bind post) s)
  /-- After the update of its address register (the state `s1`) it reads, stores `n` cells at `va`, and then ends. -/
  | stores {α : Type} (s1 : State) (va : Word) (n : Nat) (pre : Act α) (bs : α → List Byte) (post : α → Act Bool)
      (hp : storesAt i s = some (s1, va, n)) (hu : isUss i = false) (hb : isBrs i = false)
      (hs : ∃ r ae a, s1 = withDisp s r ae a ∧ (ae = true → r ∈ destRegs i))
      (hpre : Source pre) (hlen : ∀ x, (bs x).length = n) (hpost : ∀ x, Ending i (post x))
      (he : exec i s = finish i (pre.bind fun x => (memWrite va (bs x)).bind fun _ => post x) s1)
  /-- It is a BRS. -/
  | brs (wa ra : Word) (hp : storesAt i s = some (s, wa, s.cfg.srLayout.cells)) (hf : BrsForm i wa ra s) (hb : isBrs i = true)
      (he : exec i s = contextSwitch i wa ra s)
  /-- It is the first format of USS. -/
  | ussLoad (z q : Reg) (g : BitVec 3) (a : Const) (hi : i = .ussML z q g a)
  /-- It is the second format of USS. -/
  | ussStore (z q : Reg) (g : BitVec 3) (a : Const) (hi : i = .ussMS z q g a)

theorem bind_assoc {α β γ : Type} (m : Act α) (f : α → Act β) (g : β → Act γ) :
    (m.bind f).bind g = m.bind fun a => (f a).bind g := by
  funext s
  unfold Act.bind
  cases m s <;> rfl

section Forms
variable {i : Instr} {s : State} (hu : isUss i = false) (hb : isBrs i = false)
include hu hb

theorem form_aluReg {f : AluFn} {z : Reg} {src : Word} (hf : Computes f) (hp : storesAt i s = none) (hz : z ∈ destRegs i)
    (he : exec i s = aluReg f i z src s) : Form i s :=
  .reads (f true (s.getReg z) src) (fun v => (writeReg z v).bind fun _ =>
      (updateCc i [s.getReg z, src] [v]).bind fun _ => .pure false)
    hp hu hb (source_computes hf _ _ _) (fun v => ending_bind (ending_writeReg hz v) fun _ => ending_hook _ _ _) he

theorem form_aluLoad {f : AluFn} {z q : Reg} {ae : Bool} {g : BitVec 3} {a : Const} (hf : Computes f) (hp : storesAt i s = none)
    (hd : destRegs i = if ae then [z, q] else [z]) (he : exec i s = aluLoad f i z q ae g a s) : Form i s := by
  have hz : z ∈ destRegs i := by rw [hd]; cases ae <;> simp
  have hq : ae = true → q ∈ destRegs i := fun h => by simp [hd, h]
  refine .reads (loadSource q ae g a) _ hp hu hb (source_loadSource q ae g a) (fun src => ?_) he
  exact ending_state (m := fun s => (f (gSigned s g) (s.getReg z) src).bind fun v => (writeReg z v).bind fun _ =>
      (addDisp q ae a).bind fun _ => (updateCc i [s.getReg z, src] [v]).bind fun _ => .pure false) fun s =>
    ending_bind (ending_computes hf _ _ _) fun v => ending_bind (ending_writeReg hz v) fun _ =>
      ending_bind (ending_addDisp hq a) fun _ => ending_hook _ _ _

theorem form_control {tgt : Word → Word → Word} {cond : List Bool} {r : Reg} {source : Act Word} (hc : isControl i = true)
    (hs : Source source) (hp : storesAt i s = none) (hr : r ∈ destRegs i) (he : exec i s = control tgt i cond r source s) :
    Form i s := by
  refine .reads source _ hp hu hb hs (fun src => ⟨fun hR t => ?_, fun t c u e => ?_⟩) he
  · split
    · exact hR.chains.trans (hR.chains.trans (hR.ip hc t (tgt t.ip src)) (hR.dest r hr _ t.ip))
        ((ending_hook [src] [tgt t.ip src] true).within hR _)
    · exact hR.chains.refl t
  · split at e
    · exact (ending_hook (i := i) [src] [tgt t.ip src] true).raises _ _ _ e
    · cases e

theorem form_moveReg {z : Reg} {src : Word} (hp : storesAt i s = none) (hz : z ∈ destRegs i)
    (he : exec i s = moveReg i z src s) : Form i s :=
  .reads (.pure src) (fun v => (writeReg z v).bind fun _ => (updateCc i [v] [v]).bind fun _ => .pure false)
    hp hu hb (source_pure src) (fun v => ending_bind (ending_writeReg hz v) fun _ => ending_hook _ _ _) he

theorem form_bitStore {f : BitFn} {u : Bool} {z q : Reg} {ae : Bool} {g : BitVec 3} {a : Const}
    (hp : storesAt i s = some (withDisp s z ae a, effAddr (withDisp s z ae a) z ae a, gCells s g))
    (hd : destRegs i = if ae then [z] else []) (he : exec i s = bitStore f u i z q ae g a s) : Form i s :=
  have hz : ae = true → z ∈ destRegs i := fun h => by simp [hd, h]
  .stores _ _ _ (bitTarget u (effAddr (withDisp s z ae a) z ae a) (gCells (withDisp s z ae a) g))
    (fun bs => toCells (gCells (withDisp s z ae a) g)
      (f _ (BitVec.ofNat _ (fromCells bs)) ((withDisp s z ae a).getReg q)).toNat) _
    hp hu hb ⟨z, ae, a, rfl, hz⟩ (source_bitTarget _ _ _) (fun bs => by simp [gCells]) (fun bs => ending_hook _ _ _) he

theorem form_arithStore {f : AluFn} {z q : Reg} {ae : Bool} {g : BitVec 3} {a : Const} (hf : Computes f)
    (hp : storesAt i s = some (withDisp s z ae a, effAddr (withDisp s z ae a) z ae a, gCells s g))
    (hd : destRegs i = if ae then [z] else []) (he : exec i s = arithStore f i z q ae g a s) : Form i s := by
  have hz : ae = true → z ∈ destRegs i := fun h => by simp [hd, h]
  refine .stores _ _ _ ((memRead (effAddr (withDisp s z ae a) z ae a) (gCells (withDisp s z ae a) g) .data).bind fun bs =>
      (f (gSigned (withDisp s z ae a) g) (widen (gSigned (withDisp s z ae a) g) bs) ((withDisp s z ae a).getReg q)).bind fun v =>
        .pure (bs, v))
    (fun x => narrow (gCells (withDisp s z ae a) g) x.2)
    (fun x => (updateCc i [widen (gSigned (withDisp s z ae a) g) x.1, (withDisp s z ae a).getReg q] [x.2]).bind fun _ => .pure false)
    hp hu hb ⟨z, ae, a, rfl, hz⟩ ?_ (fun x => by simp [gCells]) (fun x => ending_hook _ _ _) ?_
  · exact source_bind (source_memRead _ _ (by decide)) fun bs => source_bind (source_computes hf _ _ _) fun v => source_pure _
  · rw [he, bind_assoc]
    simp only [bind_assoc]
    rfl

end Forms

/-- Every instruction runs in one of the forms. -/
theorem exec_form (i : Instr) (s : State) : Form i s := by
  cases i with
  | lshK z w | rnsK z w | rfsK z w | thrK z w | andK z w | orK z w | notK z w | sswK z w =>
    exact form_aluReg rfl rfl (computes_onWord _) rfl List.mem_cons_self rfl
  | lshRR z q | rnsRR z q | rfsRR z q | thrRR z q | andRR z q | orRR z q | notRR z q | sswRR z q =>
    exact form_aluReg rfl rfl (computes_onWord _) rfl List.mem_cons_self rfl
  | lshML z q ae g a | rnsML z q ae g a | rfsML z q ae g a | thrML z q ae g a | andML z q ae g a | orML z q ae g a
  | notML z q ae g a | sswML z q ae g a => exact form_aluLoad rfl rfl (computes_onWord _) rfl rfl rfl
  | lshMS z q ae g a | rnsMS z q ae g a | rfsMS z q ae g a | thrMS z q ae g a | andMS z q ae g a | orMS z q ae g a
  | notMS z q ae g a | sswMS z q ae g a => exact form_bitStore rfl rfl rfl rfl rfl
  | givK z w | givRR z q => exact form_aluReg rfl rfl computes_gGiv rfl List.mem_cons_self rfl
  | tacK z w | tacRR z q => exact form_aluReg rfl rfl computes_gTac rfl List.mem_cons_self rfl
  | fldK z w | fldRR z q => exact form_aluReg rfl rfl computes_gFld rfl List.mem_cons_self rfl
  | cutK z w | cutRR z q => exact form_aluReg rfl rfl computes_gCut rfl List.mem_cons_self rfl
  | givML z q ae g a => exact form_aluLoad rfl rfl computes_gGiv rfl rfl rfl
  | tacML z q ae g a => exact form_aluLoad rfl rfl computes_gTac rfl rfl rfl
  | fldML z q ae g a => exact form_aluLoad rfl rfl computes_gFld rfl rfl rfl
  | cutML z q ae g a => exact form_aluLoad rfl rfl computes_gCut rfl rfl rfl
  | givMS z q ae g a => exact form_arithStore rfl rfl computes_gGiv rfl rfl rfl
  | tacMS z q ae g a => exact form_arithStore rfl rfl computes_gTac rfl rfl rfl
  | fldMS z q ae g a => exact form_arithStore rfl rfl computes_gFld rfl rfl rfl
  | cutMS z q ae g a => exact form_arithStore rfl rfl computes_gCut rfl rfl rfl
  | sciK cond r w | jmpK cond r w => exact form_control rfl rfl rfl (source_get _) rfl List.mem_cons_self rfl
  | sciRR cond r q | jmpRR cond r q => exact form_control rfl rfl rfl (source_get _) rfl List.mem_cons_self rfl
  | sciBA cond r q a | jmpBA cond r q a => exact form_control rfl rfl rfl (source_mControl q a) rfl List.mem_cons_self rfl
  | strK z w | strRR z q => exact form_moveReg rfl rfl rfl List.mem_cons_self rfl
  | strML z q ae g a =>
    have hz : z ∈ destRegs (.strML z q ae g a) := by cases ae <;> simp [destRegs]
    have hq : ae = true → q ∈ destRegs (.strML z q ae g a) := fun h => by simp [destRegs, h]
    exact .reads (loadSource q ae g a) _ rfl rfl rfl (source_loadSource q ae g a) (fun v =>
      ending_bind (ending_writeReg hz v) fun _ => ending_bind (ending_addDisp hq a) fun _ => ending_hook _ _ _) rfl
  | strMS z q ae g a =>
    exact .stores _ _ _ (.pure ()) (fun _ => narrow (gCells (withDisp s z ae a) g) ((withDisp s z ae a).getReg q)) _ rfl rfl rfl
      ⟨z, ae, a, rfl, fun h => by simp [destRegs, h]⟩ (source_pure _) (fun _ => by simp [gCells]) (fun _ => ending_hook _ _ _) rfl
  | udb z q a =>
    exact .stores s _ _ (.pure ()) (fun _ => entryCells s q) _ rfl rfl rfl ⟨z, false, a, rfl, by simp⟩ (source_pure _)
      (fun _ => by simp [entryCells]) (fun _ => ending_hook _ _ _) rfl
  | ussML z q g a => exact .ussLoad z q g a rfl
  | ussMS z q g a => exact .ussStore z q g a rfl
  | brsBA r q a => exact .brs _ _ rfl (.inl ⟨r, q, a, rfl, rfl, rfl⟩) rfl rfl
  | brsRR r q => exact .brs _ _ rfl (.inr ⟨r, q, rfl, rfl, rfl⟩) rfl rfl

/-! The steps of the machine. -/

/-- What a turn of a target can be (R172). -/
theorem targetStep_cases (m : TargetMove) (s : State) :
    (s.irqs[m.event]? = none ∧ targetStep m s = .next s) ∨
    ∃ e, s.irqs[m.event]? = some e ∧
      ((targetStuck s e.target = true ∧ targetStep m s = .next s) ∨
      (targetStuck s e.target = false ∧
        ((∃ k u, targetTranslate e.entry m.write s = .ok k u ∧
          targetStep m s = .next ((u.addServed ⟨m.event, .address k.pa⟩).otherWrites m.stores)) ∨
        (∃ c u, targetTranslate e.entry m.write s = .trap c u ∧ targetStep m s = .next (u.addServed ⟨m.event, .condition c⟩)) ∨
        ∃ r u, targetTranslate e.entry m.write s = .stuck r u ∧ targetStep m s = .next (u.addServed ⟨m.event, .stuck r⟩)))) := by
  unfold targetStep
  cases he : s.irqs[m.event]? with
  | none => exact .inl ⟨rfl, rfl⟩
  | some e =>
    refine .inr ⟨e, rfl, ?_⟩
    cases hs : targetStuck s e.target with
    | true => exact .inl ⟨rfl, by simp [hs]⟩
    | false =>
      refine .inr ⟨rfl, ?_⟩
      cases ht : targetTranslate e.entry m.write s with
      | ok k u => exact .inl ⟨k, u, rfl, by simp [hs, ht]⟩
      | trap c u => exact .inr (.inl ⟨c, u, rfl, by simp [hs, ht]⟩)
      | stuck r u => exact .inr (.inr ⟨r, u, rfl, by simp [hs, ht]⟩)

/-- A step is a target's turn or the unit's. -/
theorem step_cases (s : State) :
    (∃ m ts, s.turns = .target m :: ts ∧ step s = targetStep m { s with turns := ts }) ∨ step s = unitStep (afterTurn s) := by
  cases ht : s.turns with
  | nil => exact .inr (by simp [step, afterTurn, ht])
  | cons turn ts =>
    cases turn with
    | unit => exact .inr (by simp [step, afterTurn, ht])
    | target m => exact .inl ⟨m, ts, rfl, by simp [step, ht]⟩

/-- What a step of the unit answers (R160). -/
theorem unitStep_next {s t : State} (h : unitStep s = .next t) :
    ((s.stopped = true ∨ s.trapped ≠ none) ∧ t = s) ∨
    (∃ i u, fetchInstr s = .ok i u ∧ exec i (beforeExec i u) = .next t) ∨
    ∃ c u, fetchInstr s = .trap c u ∧ t = takeTrap c u := by
  unfold unitStep at h
  split at h
  · next hr =>
    cases h
    exact .inl ⟨by simpa [Option.isSome_iff_ne_none] using hr, rfl⟩
  · split at h
    · next i u hf => exact .inr (.inl ⟨i, u, hf, h⟩)
    · next c u hf => cases h; exact .inr (.inr ⟨c, u, hf, rfl⟩)
    · cases h

theorem recognized_within {R : State → State → Prop} (hR : Chains R) (cells : List Byte) : (recognized cells).Within R := by
  intro s
  unfold recognized
  split <;> exact hR.refl s

/-- Reading an instruction keeps what reads keep. -/
theorem fetchInstr_within {R : State → State → Prop} (hR : Reading R) : fetchInstr.Within R := by
  refine within_state (m := fun s => (memRead s.instrAddr 2 .instr).bind fun h1 => fun s1 =>
    match s1.cfg.lengthOf (h1.headD 0#8) with
    | none => .trap .aea s1
    | some .two => recognized h1 s1
    | some .four => ((memRead (s.instrAddr + 2#64) 2 .instr).bind fun h2 => recognized (h1 ++ h2)) s1) fun s => ?_
  refine within_bind hR.chains (memRead_within hR (kind := .instr) (fun h => nomatch h) _ _) fun h1 s1 => ?_
  split
  · exact hR.chains.refl s1
  · exact recognized_within hR.chains h1 s1
  · exact within_bind hR.chains (memRead_within hR (kind := .instr) (fun h => nomatch h) _ _) (fun h2 => recognized_within hR.chains _) s1

/-- A relation that all parts of a step but the instruction itself keep. -/
structure StepKeeps (R : State → State → Prop) : Prop where
  access : Access R
  turn : ∀ s ts, R s { s with turns := ts }
  served : ∀ s v, R s (s.addServed v)
  before : ∀ s i, R s (beforeExec i s)
  trap : ∀ s c, R s (takeTrap c s)

theorem targetTranslate_within {R : State → State → Prop} (hR : Access R) (e : BitVec 128) (w : Bool) :
    (targetTranslate e w).Within R :=
  within_state (m := fun s => translate (entryRoot s.cfg e) (entryData s.cfg e) (if w then .write else .data) 1)
    fun _ => translate_within hR.reading (fun _ => hR) _ _ _

section Step
variable {R : State → State → Prop} (hR : StepKeeps R) {s t : State}
include hR

theorem targetStep_rel {m : TargetMove} (h : targetStep m s = .next t) : R s t := by
  have hc := hR.access.chains
  rcases targetStep_cases m s with ⟨-, hs⟩ | ⟨e, -, ⟨-, hs⟩ | ⟨-, ⟨k, u, ht, hs⟩ | ⟨c, u, ht, hs⟩ | ⟨r, u, ht, hs⟩⟩⟩ <;>
    rw [hs] at h <;> cases h
  · exact hc.refl s
  · exact hc.refl s
  · exact hc.trans ((targetTranslate_within hR.access _ _).ok ht) (hc.trans (hR.served u _) (hR.access.others _ _))
  · exact hc.trans ((targetTranslate_within hR.access _ _).trap ht) (hR.served u _)
  · exact hc.trans ((targetTranslate_within hR.access _ _).stuck ht) (hR.served u _)

theorem Ends.keeps (h : Ends R s t) : R s t := by
  obtain ⟨u, hu, rfl | ⟨c, rfl⟩⟩ := h
  · exact hu
  · exact hR.access.chains.trans hu (hR.trap u c)

/-- What the parts of a step keep, and the instruction that it runs, if it runs one, the step keeps. -/
theorem step_rel (hexec : ∀ i u, fetchInstr (afterTurn s) = .ok i u → exec i (beforeExec i u) = .next t →
    Ends R (beforeExec i u) t) (h : step s = .next t) : R s t := by
  have hc := hR.access.chains
  rcases step_cases s with ⟨m, ts, -, hs⟩ | hs <;> rw [hs] at h
  · exact hc.trans (hR.turn s ts) (targetStep_rel hR h)
  · have hturn : R s (afterTurn s) := by
      unfold afterTurn
      split
      · exact hc.refl s
      · exact hR.turn s _
    refine hc.trans hturn ?_
    rcases unitStep_next h with ⟨-, rfl⟩ | ⟨i, u, hf, he⟩ | ⟨c, u, hf, rfl⟩
    · exact hc.refl _
    · exact hc.trans ((fetchInstr_within hR.access.reading).ok hf) (hc.trans (hR.before u i) ((hexec i u hf he).keeps hR))
    · exact hc.trans ((fetchInstr_within hR.access.reading).trap hf) (hR.trap u c)

end Step

/-! What an instruction keeps, if accesses keep it. -/

/-- A relation that all parts of instruction `i` keep: its end, accesses to memory, IP, the marks of USS and the load of SR by BRS. -/
structure ExecKeeps (R : State → State → Prop) (i : Instr) : Prop where
  access : Access R
  dest : ∀ r ∈ destRegs i, ∀ s v, R s (s.setReg r v)
  ip : ∀ s v, R s (s.setIp v)
  hook : ∀ s ops res v, ccUpdate s.cfg i ops res = some v → R s (s.setCc v)
  watch : isUss i = true → ∀ s a n, CellsExist s.cfg a n → R s (s.setMon (s.mon.clean a n))
  sr : isBrs i = true → ∀ s img, R s (s.loadSr img)

section ExecKeeps
variable {R : State → State → Prop} {i : Instr}

/-- A cell that was read exists. -/
theorem readCell_exists {s u : State} {a : Nat} {b : Byte} (h : readCell a s = .ok b u) : populated u.cfg a = true := by
  unfold readCell at h
  dsimp only at h
  split at h <;> cases h
  assumption

theorem readWatched_within_of_exist (hR : Reading R)
    (hm : ∀ (s : State) a n, CellsExist s.cfg a n → R s (s.setMon (s.mon.clean a n))) (a n : Nat) : (readWatched a n).Within R := by
  induction n generalizing a with
  | zero => exact within_pure hR.chains _
  | succ n ih =>
    intro s
    have hcell := readCell_within hR a s
    unfold readWatched
    cases hc : readCell a s with
    | ok b u =>
      rw [hc] at hcell
      rw [bind_of_ok _ hc]
      have hone : CellsExist u.cfg a 1 := cellsExist_succ.2 ⟨readCell_exists hc, fun k hk => absurd hk (Nat.not_lt_zero k)⟩
      refine hR.chains.trans hcell (hR.chains.trans (hm u a 1 hone) ?_)
      exact within_bind hR.chains (ih (a + 1)) (fun bs => within_pure hR.chains (b :: bs)) _
    | trap c u => rw [hc] at hcell; rw [bind_of_trap _ hc]; exact hcell
    | stuck r u => rw [hc] at hcell; rw [bind_of_stuck _ hc]; exact hcell

theorem storeClean_within_of_exist (hR : Access R)
    (hm : ∀ (s : State) a n, CellsExist s.cfg a n → R s (s.setMon (s.mon.clean a n))) (a : Nat) (bs : List Byte) :
    (storeClean a bs).Within R := by
  intro s
  rcases storeClean_cases a bs s with ⟨-, h⟩ | ⟨-, x, -, h⟩ | ⟨-, hx, h⟩ <;> rw [h]
  · exact hR.tick s
  · exact hR.tick s
  · have hw : R s.envTick (s.envTick.written a bs) := hR.chains.trans (hR.storeCells hx) (hR.signalled _ _ _)
    exact hR.chains.trans (hR.tick s) (hR.chains.trans hw (hm _ _ _ (by rwa [written_cfg])))

theorem ExecKeeps.keeps (hR : ExecKeeps R i) : Keeps R i where
  chains := hR.access.chains
  read va n _ hk := memRead_within hR.access.reading (fun h => absurd h hk) va n
  watched hu := ⟨fun va n => unitTranslate_within hR.access.reading (kind := .data) (fun h => nomatch h) va n,
    fun pa n => readWatched_within_of_exist hR.access.reading (hR.watch hu) pa n⟩
  write _ _ _ _ _ va bs := memWrite_within hR.access va bs
  dest := hR.dest
  ip := hR.ip
  hook := hR.hook
  sr := hR.sr

/-- What the parts of an instruction keep, the instruction keeps. -/
theorem ExecKeeps.ends (hR : ExecKeeps R i) {s t : State} (h : exec i s = .next t) : Ends R s t := by
  refine exec_rel hR.keeps (fun hu hx => ?_) h
  obtain ⟨z, q, g, a, rfl⟩ := hu
  refine finish_rel hR.keeps (within_bind hR.access.chains (unitTranslate_within hR.access.reading (fun _ => hR.access) _ _) fun m => ?_) hx
  exact within_bind hR.access.chains (storeClean_within_of_exist hR.access (hR.watch rfl) _ _) fun _ =>
    updateCc_pure_rel hR.keeps _ _ _

end ExecKeeps

end Sys2Proof.Machine
end

section
/-! PROOFS of the family "other", what every step keeps: the invariant, the parameters, the atomicity of the USS pair, and protection. -/

open Sys2Proof.Claims

namespace Sys2Proof.Machine

@[simp] theorem beforeExec_mem (i : Instr) (s : State) : (beforeExec i s).mem = s.mem := by unfold beforeExec; split <;> rfl
@[simp] theorem beforeExec_mon (i : Instr) (s : State) : (beforeExec i s).mon = s.mon := by unfold beforeExec; split <;> rfl
@[simp] theorem beforeExec_cfg (i : Instr) (s : State) : (beforeExec i s).cfg = s.cfg := by unfold beforeExec; split <;> rfl
@[simp] theorem beforeExec_irqs (i : Instr) (s : State) : (beforeExec i s).irqs = s.irqs := by unfold beforeExec; split <;> rfl
@[simp] theorem beforeExec_env (i : Instr) (s : State) : (beforeExec i s).env = s.env := by unfold beforeExec; split <;> rfl
@[simp] theorem beforeExec_turns (i : Instr) (s : State) : (beforeExec i s).turns = s.turns := by unfold beforeExec; split <;> rfl
@[simp] theorem beforeExec_root (i : Instr) (s : State) : (beforeExec i s).root = s.root := by unfold beforeExec; split <;> rfl
@[simp] theorem beforeExec_cc (i : Instr) (s : State) : (beforeExec i s).cc = s.cc := by unfold beforeExec; split <;> rfl
@[simp] theorem beforeExec_trapped (i : Instr) (s : State) : (beforeExec i s).trapped = s.trapped := by
  unfold beforeExec; split <;> rfl

/-! The invariant. -/

theorem inv_congr {s t : State} (hmem : t.mem = s.mem) (hmon : t.mon = s.mon) (hcfg : t.cfg = s.cfg) (hcc : t.cc < 2 ^ t.cfg.cw)
    (hroot : t.root < 2 ^ t.cfg.srLayout.rootBits.val) (h : Inv s) : Inv t := by
  obtain ⟨h1, h2, h3, h4, -, -⟩ := h
  exact ⟨hmem ▸ h1, hmon ▸ h2, hmem ▸ hcfg ▸ h3, hmon ▸ hcfg ▸ h4, hcc, hroot⟩

/-- Cells that exist may be marked clean. -/
theorem inv_clean {s : State} {a n : Nat} (hx : CellsExist s.cfg a n) (h : Inv s) : Inv (s.setMon (s.mon.clean a n)) := by
  obtain ⟨h1, h2, h3, h4, h5, h6⟩ := h
  refine ⟨h1, Monitor.wf_clean h2 a n, h3, fun c hc => ?_, h5, h6⟩
  rcases mem_clean hc with ⟨hlo, hhi⟩ | hc
  · have := hx (c.1 - a) (by omega)
    rwa [Nat.add_sub_cancel' hlo] at this
  · exact h4 c hc

theorem keepsInv_exec (i : Instr) : ExecKeeps KeepsInv i where
  access := keepsInv_access
  dest _ _ _ _ h := h
  ip _ _ h := h
  hook s _ _ v _ h := inv_congr (s := s) rfl rfl rfl (Nat.mod_lt v (Nat.two_pow_pos _)) h.2.2.2.2.2 h
  watch _ _ _ _ hx h := inv_clean hx h
  sr _ s _ h := inv_congr (s := s) rfl rfl rfl (Nat.mod_lt _ (Nat.two_pow_pos _)) (Nat.mod_lt _ (Nat.two_pow_pos _)) h

theorem keepsInv_step : StepKeeps KeepsInv where
  access := keepsInv_access
  turn _ _ h := h
  served _ _ h := h
  before s i h := inv_congr (s := s) (by simp) (by simp) (by simp) (by simpa using h.2.2.2.2.1) (by simpa using h.2.2.2.2.2) h
  trap _ c h := inv_takeTrap h c

/-- Settles O12: every part of a step keeps the invariant, so the step does (`step_rel`). -/
theorem stepKeepsInv : Obligations.StepKeepsInv := fun _ _ hinv h =>
  step_rel keepsInv_step (fun i _ _ he => (keepsInv_exec i).ends he) h hinv

/-- Settles O13. -/
theorem resetHasInv : Obligations.ResetHasInv := by
  refine ⟨⟨List.Pairwise.nil, ?_⟩, List.Pairwise.nil, ?_, ?_, ?_, ?_⟩ <;> simp [State.reset]

/-! The parameters. -/

/-- The parameters are the same. -/
def SameCfg (s t : State) : Prop := t.cfg = s.cfg

theorem sameCfg_access : Access SameCfg where
  chains := ⟨fun _ => rfl, fun h h' => Eq.trans h' h⟩
  env _ _ := rfl
  store _ _ _ _ := rfl
  irq _ _ := rfl

theorem sameCfg_takeTrap (s : State) (c : Condition) : SameCfg s (takeTrap c s) := by
  unfold takeTrap
  split
  · rfl
  · exact sameCfg_access.others _ _

theorem sameCfg_exec (i : Instr) : ExecKeeps SameCfg i where
  access := sameCfg_access
  dest _ _ _ _ := rfl
  ip _ _ := rfl
  hook _ _ _ _ _ := rfl
  watch _ _ _ _ _ := rfl
  sr _ _ _ := rfl

theorem sameCfg_step : StepKeeps SameCfg where
  access := sameCfg_access
  turn _ _ := rfl
  served _ _ := rfl
  before s i := beforeExec_cfg i s
  trap := sameCfg_takeTrap

/-- Settles O14: no part of a step writes the parameters. -/
theorem stepKeepsParameters : Obligations.StepKeepsParameters := fun _ _ h =>
  step_rel sameCfg_step (fun i _ _ he => (sameCfg_exec i).ends he) h

/-! The USS pair (R107). -/

theorem noticed_exec {i : Instr} (hu : isUss i = false) : ExecKeeps Noticed i where
  access := noticed_access
  dest _ _ _ _ := noticed_same rfl rfl
  ip _ _ := noticed_same rfl rfl
  hook _ _ _ _ _ := noticed_same rfl rfl
  watch h := absurd h (by simp [hu])
  sr _ _ _ := noticed_same rfl rfl

theorem noticed_step : StepKeeps Noticed where
  access := noticed_access
  turn _ _ := noticed_same rfl rfl
  served _ _ := noticed_same rfl rfl
  before s i := noticed_same (beforeExec_mon i s) (beforeExec_mem i s)
  trap s c := noticed_takeTrap c s

/-- A step without a USS notices every write. -/
theorem noticed_of_noUss {s t : State} (hn : NoUss s) (h : step s = .next t) : Noticed s t := by
  rcases hn with ⟨m, ts, hturn⟩ | hn
  · have hs : step s = targetStep m { s with turns := ts } := by simp [step, hturn]
    exact noticed_chains.trans (noticed_step.turn s ts) (targetStep_rel noticed_step (hs ▸ h))
  · exact step_rel noticed_step (fun i u hf he => (noticed_exec (hn i u hf)).ends he) h

theorem noticed_of_stepsWithoutUss {k : Nat} {s t : State} (h : StepsWithoutUss k s t) : Noticed s t := by
  induction k generalizing s with
  | zero => obtain rfl := h; exact noticed_chains.refl s
  | succ k ih =>
    obtain ⟨hn, u, hs, hk⟩ := h
    exact noticed_chains.trans (noticed_of_noUss hn hs) (ih hk)

/-- Each of the cells from `a` on holds what `bs` says, or its entry is not clean. -/
def Watched (s : State) (a : Nat) (bs : List Byte) : Prop :=
  ∀ k, k < bs.length → lookupKey (a + k) s.mon = some .clean → some (s.mem.read (a + k)) = bs[k]?

theorem Watched.noticed {s t : State} {a : Nat} {bs : List Byte} (h : Watched s a bs) (hn : Noticed s t) : Watched t a bs := by
  intro k hk hc
  rcases hn (a + k) with ⟨hmon, hmem⟩ | ⟨-, hd⟩
  · rw [hmem (hmon.symm.trans hc)]
    exact h k hk (hmon.symm.trans hc)
  · rw [hd] at hc
    cases hc

/-- Where all cells are clean, they hold what the watch began with. -/
theorem Watched.readCells {s : State} {a : Nat} {bs : List Byte} (h : Watched s a bs)
    (hc : ∀ k, k < bs.length → lookupKey (a + k) s.mon = some .clean) : s.mem.readCells a bs.length = bs := by
  induction bs generalizing a with
  | nil => rfl
  | cons b bs ih =>
    have h0 := h 0 (by simp) (hc 0 (by simp))
    rw [List.length_cons, Memory.readCells, ih]
    · simpa using h0
    · intro k hk hck
      have := h (k + 1) (by simpa using hk) (hc (k + 1) (by simpa using hk))
      simpa [Nat.add_assoc, Nat.add_comm 1] using this
    · intro k hk
      simpa [Nat.add_assoc, Nat.add_comm 1] using hc (k + 1) (by simpa using hk)

/-- A read cell is watched from its read on (R105). -/
theorem Watched.append {s : State} {a : Nat} {bs : List Byte} (h : Watched s a bs) :
    Watched (s.setMon (s.mon.clean (a + bs.length) 1)) a (bs ++ [s.mem.read (a + bs.length)]) := by
  intro k hk hc
  rw [List.length_append, List.length_singleton] at hk
  by_cases hlast : k = bs.length
  · subst hlast; simp
  · have hlt : k < bs.length := by omega
    rw [State.setMon_mon, Monitor.lookup_clean, if_neg (by omega)] at hc
    rw [State.setMon_mem, h k hlt hc, List.getElem?_append_left hlt]

theorem readCell_value {s u : State} {a : Nat} {b : Byte} (h : readCell a s = .ok b u) : b = u.mem.read a := by
  unfold readCell at h
  dsimp only at h
  split at h <;> cases h
  rfl

/-- The read of a USS load watches its cells, and those before them if they were watched. -/
theorem Watched.readWatched {s u : State} {a n : Nat} {cs bs : List Byte} (h : Watched s a cs)
    (hr : readWatched (a + cs.length) n s = .ok bs u) : bs.length = n ∧ Watched u a (cs ++ bs) := by
  induction n generalizing s cs bs with
  | zero => cases hr; exact ⟨rfl, by simpa using h⟩
  | succ n ih =>
    obtain ⟨b, v, hcell, h1⟩ := bind_ok hr
    obtain ⟨_, v', hw, h2⟩ := bind_ok h1
    obtain ⟨bs', v'', hrest, h3⟩ := bind_ok h2
    cases hw
    cases h3
    have hv : Watched v a cs := h.noticed ((readCell_within noticed_access.reading _).ok hcell)
    have hb := hv.append
    rw [← readCell_value hcell] at hb
    obtain ⟨hlen, hu⟩ := ih hb (by simpa [Nat.add_assoc] using hrest)
    exact ⟨by simp [hlen], by simpa using hu⟩

section Ended
variable (i : Instr) (ops res : List Word) (s : State)

theorem hooked_eq : ∃ v, hooked i ops res s = { s with cc := v } := by
  rcases hooked_cases i ops res s with h | ⟨v, -, h⟩ <;> rw [h]
  · exact ⟨s.cc, rfl⟩
  · exact ⟨_, rfl⟩

/-- The end of an instruction that did not write IP changes at most C and IP. -/
theorem ended_eq : ∃ v p, ended i ops res s = { s with cc := v, ip := p } := by
  obtain ⟨v, h⟩ := hooked_eq i ops res s
  unfold ended trailing
  rw [h]
  split
  · exact ⟨v, _, rfl⟩
  · exact ⟨v, s.ip, rfl⟩

@[simp] theorem ended_regs : (ended i ops res s).regs = s.regs := by obtain ⟨v, p, h⟩ := ended_eq i ops res s; rw [h]
@[simp] theorem ended_mem : (ended i ops res s).mem = s.mem := by obtain ⟨v, p, h⟩ := ended_eq i ops res s; rw [h]
@[simp] theorem ended_mon : (ended i ops res s).mon = s.mon := by obtain ⟨v, p, h⟩ := ended_eq i ops res s; rw [h]
@[simp] theorem ended_cfg : (ended i ops res s).cfg = s.cfg := by obtain ⟨v, p, h⟩ := ended_eq i ops res s; rw [h]
@[simp] theorem ended_irqs : (ended i ops res s).irqs = s.irqs := by obtain ⟨v, p, h⟩ := ended_eq i ops res s; rw [h]

theorem getReg_ended (r : Reg) : (ended i ops res s).getReg r = s.getReg r := State.getReg_congr (ended_regs i ops res s) r

end Ended

/-- A USS load raises no condition after its translation. -/
theorem readWatched_raises {P : Condition → Prop} (a n : Nat) : (readWatched a n).Raises P := by
  induction n generalizing a with
  | zero => exact raises_pure _
  | succ n ih =>
    refine raises_bind (fun s c t e => (readCell_no_trap a s t c e).elim) fun b => ?_
    exact raises_bind (raises_modify _) fun _ => raises_bind (ih _) fun bs => raises_pure _

section Uss
variable {z q : Reg} {g : BitVec 3} {a : Const} {s s' : State} {m : Mapped}

/-- The first format of USS, once its cells are read and watched (R105). -/
theorem exec_ussML_read {v : State} {bs : List Byte} (ht : unitTranslate (s.getReg q + dispOf s a) .data (gCells s g) s = .ok m s')
    (hr : readWatched m.pa (gCells s g) s' = .ok bs v) :
    exec (.ussML z q g a) s = .next (ended (.ussML z q g a) [widen (gSigned s g) bs] [widen (gSigned s g) bs]
      (v.setReg z (widen (gSigned s g) bs))) :=
  finish_updateCc (by rw [bind_of_ok _ ht, bind_of_ok _ hr]; rfl)

/-- After a first format of USS its cells hold the datum that it gave, as far as they are clean. -/
theorem exec_ussML_watched {t : State} (ht : unitTranslate (s.getReg q + dispOf s a) .data (gCells s g) s = .ok m s')
    (h : exec (.ussML z q g a) s = .next t) :
    ∃ bs, bs.length = gCells s g ∧ Watched t m.pa bs ∧ t.getReg z = widen (gSigned s g) bs := by
  cases hr : readWatched m.pa (gCells s g) s' with
  | ok bs v =>
    have hempty : Watched s' m.pa [] := fun k hk => absurd hk (Nat.not_lt_zero k)
    obtain ⟨hlen, hv⟩ := hempty.readWatched hr
    rw [exec_ussML_read ht hr] at h
    cases h
    exact ⟨bs, hlen, hv.noticed (noticed_same (by simp) (by simp)), by simp [getReg_ended]⟩
  | trap c v => exact (readWatched_raises (P := NoCondition) m.pa _ s' c v hr).elim
  | stuck r v =>
    have hs : exec (.ussML z q g a) s = .fault r := finish_stuck (by rw [bind_of_ok _ ht, bind_of_stuck _ hr])
    rw [hs] at h
    cases h

/-- The second format of USS after its translation (R106). -/
theorem exec_ussMS_translated (ht : unitTranslate (s.getReg z + dispOf s a) .write (gCells s g) s = .ok m s') :
    exec (.ussMS z q g a) s = finish (.ussMS z q g a) ((storeClean m.pa (narrow (gCells s g) (s.getReg q))).bind fun _ =>
      (updateCc (.ussMS z q g a) [s.getReg q] [s.getReg q]).bind fun _ => .pure false) s' :=
  finish_congr (bind_of_ok _ ht)

/-- What it answers: USSFAIL, or a store to cells that were all clean (R106). -/
theorem exec_ussMS_next {x : State} (ht : unitTranslate (s.getReg z + dispOf s a) .write (gCells s g) s = .ok m s')
    (h : exec (.ussMS z q g a) s = .next x) :
    (s'.envTick.mon.allClean m.pa (gCells s g) = false ∧ x = takeTrap .ussfail s'.envTick) ∨
    (s'.envTick.mon.allClean m.pa (gCells s g) = true ∧ CellsExist s'.envTick.cfg m.pa (gCells s g) ∧
      ∃ v, v = s'.envTick.written m.pa (narrow (gCells s g) (s.getReg q)) ∧
        x = ended (.ussMS z q g a) [s.getReg q] [s.getReg q] (v.setMon (v.mon.clean m.pa (gCells s g)))) := by
  rw [exec_ussMS_translated ht] at h
  rcases storeClean_cases m.pa (narrow (gCells s g) (s.getReg q)) s' with ⟨hc, hs⟩ | ⟨-, y, -, hs⟩ | ⟨hc, he, hs⟩
  · rw [finish_trap (bind_of_trap _ hs)] at h
    cases h
    exact .inl ⟨by simpa using hc, rfl⟩
  · rw [finish_stuck (bind_of_stuck _ hs)] at h
    cases h
  · rw [finish_updateCc (bind_of_ok (fun _ => (updateCc (.ussMS z q g a) [s.getReg q] [s.getReg q]).bind fun _ =>
      .pure false) hs)] at h
    cases h
    exact .inr ⟨by simpa using hc, by simpa using he, _, rfl, by simp⟩

end Uss

/-- Settles O58: after the load each cell holds its datum as far as it is clean in the monitor (`Watched`); every step without a USS
notices what is written (`Noticed`), so that stays so; and the store, which does not trap, finds all cells clean. -/
theorem atomicUpdate : Obligations.AtomicUpdate := by
  intro k z q z' q' g g' a a' s s' t u v w w' x m m' ht hload hsteps hfetch hw ht' hpa hg hstore hx
  subst hw
  obtain ⟨bs, hlen, hwatch, hreg⟩ := exec_ussML_watched ht hload
  have hturn : Noticed u (afterTurn u) := by
    unfold afterTurn
    split
    · exact noticed_chains.refl u
    · exact noticed_step.turn u _
  have hnoticed : Noticed t w'.envTick :=
    noticed_chains.trans (noticed_of_stepsWithoutUss hsteps) <| noticed_chains.trans hturn <|
    noticed_chains.trans ((fetchInstr_within noticed_access.reading).ok hfetch) <|
    noticed_chains.trans (noticed_step.before v _) <|
    noticed_chains.trans ((unitTranslate_within noticed_access.reading (fun _ => noticed_access) _ _).ok ht')
      (noticed_access.tick w')
  rcases exec_ussMS_next ht' hstore with ⟨-, hfail⟩ | ⟨hclean, -, y, rfl, rfl⟩
  · exact absurd hfail hx
  · rw [hg, hpa] at hclean ⊢
    have hcells : w'.envTick.mem.readCells m.pa (gCells s g) = bs := by
      rw [← hlen] at hclean ⊢
      exact (hwatch.noticed hnoticed).readCells ((Monitor.allClean_iff _ _ _).1 hclean)
    refine ⟨by rw [hreg, hcells], ?_⟩
    have := Memory.readCells_writeCells w'.envTick.mem m.pa (narrow (gCells s g) ((beforeExec (.ussMS z' q' g' a') v).getReg q'))
    rw [narrow_length] at this
    simpa using this

end Sys2Proof.Machine
end

section
/-! PROOFS of the family "other", protection (R175): where no virtual address can be written, an instruction changes no memory. -/

open Sys2Proof.Claims

namespace Sys2Proof.Machine

/-! A translation depends on memory and the parameters only. -/

/-- Without other units, memory and the parameters are the same. -/
structure SameMemory (s t : State) : Prop where
  mem : t.mem = s.mem
  cfg : t.cfg = s.cfg
  quiet : Quiet s
  quiet' : Quiet t

/-- Where `m` goes on in `s`, it goes on with the same value in a state with the same memory. -/
def Act.ByMemory {α : Type} (m : Act α) : Prop :=
  ∀ {s t s' : State} {a : α}, SameMemory s t → m s = .ok a s' → ∃ t', m t = .ok a t' ∧ SameMemory s' t'

section ByMemory
variable {α β : Type}

theorem byMemory_pure (a : α) : (Act.pure a).ByMemory := fun h e => by cases e; exact ⟨_, rfl, h⟩

theorem byMemory_raise (c : Condition) : (raise c : Act α).ByMemory := fun _ e => nomatch e

theorem byMemory_bind {m : Act α} {f : α → Act β} (hm : m.ByMemory) (hf : ∀ a, (f a).ByMemory) : (m.bind f).ByMemory := by
  intro s t s' b h e
  obtain ⟨a, u, h1, h2⟩ := bind_ok e
  obtain ⟨u', h3, hu⟩ := hm h h1
  obtain ⟨t', h4, ht⟩ := hf a hu h2
  exact ⟨t', by rw [bind_of_ok _ h3, h4], ht⟩

theorem byMemory_ite {p : Prop} [Decidable p] {m n : Act α} (hm : m.ByMemory) (hn : n.ByMemory) :
    (if p then m else n).ByMemory := by
  split
  · exact hm
  · exact hn

theorem byMemory_readEntry (a : Nat) : (readEntry a).ByMemory := by
  intro s t s' e h he
  obtain ⟨rfl, rfl, hx⟩ := readEntry_quiet_ok h.quiet he
  exact ⟨t, by rw [readEntry_quiet h.quiet' (h.cfg ▸ hx), h.mem], h⟩

theorem byMemory_physWrite (a : Nat) (bs : List Byte) : (physWrite a bs).ByMemory := by
  intro s t s' u h he
  obtain ⟨rfl, hx⟩ := physWrite_quiet_ok h.quiet he
  refine ⟨_, physWrite_quiet h.quiet' (h.cfg ▸ hx), by simp [h.mem], by simp [h.cfg], ?_, ?_⟩
  · rw [Quiet, storeCells_env]; exact h.quiet
  · rw [Quiet, storeCells_env]; exact h.quiet'

theorem byMemory_findHolder (n : Nat) (e : Word) (ea : Nat) (k : Bool) : (findHolder n e ea k).ByMemory := by
  unfold findHolder
  refine byMemory_ite (byMemory_bind (byMemory_readEntry _) fun g => ?_) (byMemory_pure _)
  intro s t s' x h he
  dsimp only at he
  split at he <;> cases he
  next hg => exact ⟨t, if_neg (by rwa [h.cfg]), h⟩

theorem byMemory_frameAccess (n : Nat) (e : Word) (ea : Nat) (k : Bool) (va : Word) (kind : AccessKind) :
    (frameAccess n e ea k va kind).ByMemory := by
  unfold frameAccess
  refine byMemory_ite (byMemory_bind (byMemory_findHolder n e ea k) fun h => ?_) (byMemory_raise _)
  exact byMemory_ite (byMemory_raise _)
    (byMemory_bind (byMemory_ite (byMemory_physWrite _ _) (byMemory_pure _)) fun _ => byMemory_pure _)

theorem byMemory_walk (va : Word) (kind : AccessKind) (n tb : Nat) : (walk va kind n tb).ByMemory := by
  induction n generalizing tb with
  | zero => exact byMemory_raise _
  | succ n ih =>
    refine byMemory_bind (byMemory_readEntry _) fun e => ?_
    cases entryKind (n + 1) e
    · exact byMemory_frameAccess _ _ _ _ _ _
    · exact byMemory_frameAccess _ _ _ _ _ _
    · exact ih _
    · exact byMemory_raise _

end ByMemory

/-! Where nothing can be written. -/

/-- An access of no cells crosses no frame (R38), so the walk alone decides. -/
theorem nothingWritable_iff (s : State) : NothingWritable s ↔ ∀ va m t, walk va .write 6 (rootAddr s) s ≠ .ok m t := by
  constructor
  · intro h va m t hw
    refine h va 0 m t ?_
    change translate (rootAddr s) va .write 0 s = _
    rw [translate, bind_of_ok _ hw]
    refine if_neg fun hc => ?_
    have hcross := of_decide_eq_true hc.2
    have := Nat.mod_lt va.toNat (Nat.two_pow_pos (offBits m.order))
    omega
  · intro h va n m t ht
    obtain ⟨m', u, hw, -⟩ := bind_ok ht
    exact h va m' u hw

theorem nothingWritable_congr {s t : State} (h : SameMemory s t) (hroot : t.root = s.root) (hs : NothingWritable s) :
    NothingWritable t := by
  have hra : rootAddr t = rootAddr s := by unfold rootAddr; rw [hroot, h.cfg]
  rw [nothingWritable_iff] at hs ⊢
  intro va m t' hw
  rw [hra] at hw
  obtain ⟨s', hs', -⟩ := byMemory_walk va .write 6 (rootAddr s) ⟨h.mem.symm, h.cfg.symm, h.quiet', h.quiet⟩ hw
  exact hs va m s' hs'

theorem bind_stuck {α β : Type} {m : Act α} {f : α → Act β} {s t : State} {r : Fault} (h : m.bind f s = .stuck r t) :
    m s = .stuck r t ∨ ∃ a u, m s = .ok a u ∧ f a u = .stuck r t := by
  cases hm : m s with
  | ok a u => rw [bind_of_ok _ hm] at h; exact .inr ⟨a, u, rfl, h⟩
  | trap c u => rw [bind_of_trap _ hm] at h; cases h
  | stuck r' u => rw [bind_of_stuck _ hm] at h; cases h; exact .inl rfl

section Stuck
variable {s t : State} {r : Fault} (hq : Quiet s)
include hq

/-- A frame access that is stuck changed nothing: the holder, which was read, can be written. -/
theorem frameAccess_quiet_stuck {n ea : Nat} {e va : Word} {k : Bool} {kind : AccessKind} (he : e = entryAt s.mem ea)
    (hx : CellsExist s.cfg ea 8) (h : frameAccess n e ea k va kind s = .stuck r t) : t = s := by
  unfold frameAccess at h
  split at h
  · rcases bind_stuck h with h | ⟨hd, u, h1, h2⟩
    · exact (findHolder_within reading_quiet n e ea k).stuck h hq
    · obtain ⟨rfl, -, hx'⟩ := findHolder_quiet_ok hq he hx h1
      split at h2
      · cases h2
      · rcases bind_stuck h2 with h3 | ⟨_, _, _, h3⟩
        · split at h3
          · rw [physWrite_quiet hq (by rwa [toCells_length])] at h3
            cases h3
          · cases h3
        · cases h3
  · cases h

theorem walk_quiet_stuck {n tb : Nat} {va : Word} {kind : AccessKind} (h : walk va kind n tb s = .stuck r t) : t = s := by
  induction n generalizing tb with
  | zero => cases h
  | succ n ih =>
    rcases bind_stuck h with h1 | ⟨e, u, h1, h2⟩
    · exact (readEntry_within reading_quiet _).stuck h1 hq
    · obtain ⟨rfl, he, hx⟩ := readEntry_quiet_ok hq h1
      cases hk : entryKind (n + 1) e <;> simp only [hk] at h2
      · exact frameAccess_quiet_stuck hq he hx h2
      · exact frameAccess_quiet_stuck hq he hx h2
      · exact ih h2
      · cases h2

/-- Where nothing can be written, the translation for a write ends in the state it began in, and gives no address. -/
theorem unitTranslate_nothingWritable (hw : NothingWritable s) (va : Word) (n : Nat) : (unitTranslate va .write n s).state = s := by
  have hwalk := (nothingWritable_iff s).1 hw va
  change (translate (rootAddr s) va .write n s).state = s
  unfold translate
  cases h : walk va .write 6 (rootAddr s) s with
  | ok m u => exact absurd h (hwalk m u)
  | trap c u => rw [bind_of_trap _ h]; exact walk_quiet_trap hq h
  | stuck r u => rw [bind_of_stuck _ h]; exact walk_quiet_stuck hq h

/-- So whatever was to follow the translation does not happen. -/
theorem bind_nothingWritable {α : Type} (hw : NothingWritable s) (va : Word) (n : Nat) (f : Mapped → Act α) :
    ((unitTranslate va .write n).bind f s).state = s ∧ ∀ a u, (unitTranslate va .write n).bind f s ≠ .ok a u := by
  have hs := unitTranslate_nothingWritable hq hw va n
  cases h : unitTranslate va .write n s with
  | ok m u => exact absurd h (hw va n m u)
  | trap c u => rw [h] at hs; rw [bind_of_trap _ h]; exact ⟨hs, fun _ _ => nofun⟩
  | stuck r u => rw [h] at hs; rw [bind_of_stuck _ h]; exact ⟨hs, fun _ _ => nofun⟩

end Stuck

/-! The confined program. -/

/-- A state in which nothing can be written is followed by one, with the same memory, root table and interruptions. -/
def StaysConfined (s t : State) : Prop :=
  Confined s → Confined t ∧ t.mem = s.mem ∧ t.root = s.root ∧ t.irqs = s.irqs

/-- It is enough that what the frame table depends on stays. -/
theorem staysConfined_of {s t : State} (hmem : t.mem = s.mem) (hroot : t.root = s.root) (hirqs : t.irqs = s.irqs)
    (henv : t.env = s.env) (hturns : t.turns = s.turns) (hcfg : t.cfg = s.cfg) : StaysConfined s t := by
  rintro ⟨hq, ht, htrap, hw⟩
  have hq' : Quiet t := henv.trans hq
  exact ⟨⟨hq', hturns.trans ht, hcfg ▸ htrap, nothingWritable_congr ⟨hmem, hcfg, hq, hq'⟩ hroot hw⟩, hmem, hroot, hirqs⟩

theorem staysConfined_rfl (s : State) : StaysConfined s s := staysConfined_of rfl rfl rfl rfl rfl rfl

theorem staysConfined_chains : Chains StaysConfined where
  refl := staysConfined_rfl
  trans h h' hc := by
    obtain ⟨hc', hmem, hroot, hirqs⟩ := h hc
    obtain ⟨hc'', hmem', hroot', hirqs'⟩ := h' hc'
    exact ⟨hc'', hmem'.trans hmem, hroot'.trans hroot, hirqs'.trans hirqs⟩

theorem staysConfined_reading : Reading StaysConfined where
  chains := staysConfined_chains
  tick s := fun hc => by rw [reading_quiet.tick s hc.1]; exact staysConfined_rfl s hc

theorem staysConfined_bind {α : Type} (va : Word) (n : Nat) (f : Mapped → Act α) :
    ((unitTranslate va .write n).bind f).Within StaysConfined := by
  intro s hc
  have ⟨hq, _, _, hw⟩ := hc
  rw [(bind_nothingWritable hq hw va n f).1]
  exact staysConfined_rfl s hc

theorem staysConfined_readWatched (a n : Nat) : (readWatched a n).Within StaysConfined := by
  induction n generalizing a with
  | zero => exact within_pure staysConfined_chains _
  | succ n ih =>
    exact within_bind staysConfined_chains (readCell_within staysConfined_reading a) fun b =>
      within_bind staysConfined_chains (within_modify fun s => staysConfined_of rfl rfl rfl rfl rfl rfl) fun _ =>
        within_bind staysConfined_chains (ih _) fun bs => within_pure staysConfined_chains _

theorem staysConfined_keeps {i : Instr} (hb : isBrs i = false) : Keeps StaysConfined i where
  chains := staysConfined_chains
  read va n _ hk := memRead_within staysConfined_reading (fun h => absurd h hk) va n
  watched _ := ⟨fun va n => unitTranslate_within staysConfined_reading (kind := .data) (fun h => nomatch h) va n,
    staysConfined_readWatched⟩
  write _ _ _ _ _ va bs := staysConfined_bind va bs.length _
  dest _ _ _ _ := staysConfined_of rfl rfl rfl rfl rfl rfl
  ip _ _ := staysConfined_of rfl rfl rfl rfl rfl rfl
  hook _ _ _ _ _ := staysConfined_of rfl rfl rfl rfl rfl rfl
  sr h := absurd h (by simp [hb])

/-- BRS saves the old SR first, so it does not get to load a new one (D34). -/
theorem contextSwitch_confined {i : Instr} {wa ra : Word} {s t : State} (hc : Confined s)
    (h : contextSwitch i wa ra s = .next t) : ∃ c, t = takeTrap c s := by
  obtain ⟨hq, -, -, hw⟩ := hc
  obtain ⟨hs, hok⟩ := bind_nothingWritable hq hw wa (savedSr i s).length fun m =>
    (physWrite m.pa (savedSr i s)).bind fun _ => signalGate m.pa (savedSr i s)
  change (memWrite wa (savedSr i s) s).state = s at hs
  rcases finish_next h with ⟨w, u, hb, -⟩ | ⟨c, u, hb, rfl⟩
  · obtain ⟨_, v, h1, -⟩ := bind_ok hb
    exact absurd h1 (hok _ _)
  · rcases bind_trap hb with h1 | ⟨_, v, h1, -⟩
    · rw [h1] at hs
      exact ⟨c, by rw [← hs]; rfl⟩
    · exact absurd h1 (hok _ _)

theorem staysConfined_takeTrap (s : State) (c : Condition) : StaysConfined s (takeTrap c s) := by
  intro hc
  have ht : takeTrap c s = { s with trapped := some c } := by simp [takeTrap, hc.2.2.1]
  rw [ht]
  exact staysConfined_of rfl rfl rfl rfl rfl rfl hc

theorem exec_staysConfined {i : Instr} {s t : State} (h : exec i s = .next t) : Ends StaysConfined s t := by
  cases hb : isBrs i with
  | false =>
    refine exec_rel (staysConfined_keeps hb) (fun hu hx => ?_) h
    obtain ⟨z, q, g, a, rfl⟩ := hu
    exact finish_rel (staysConfined_keeps hb) (staysConfined_bind _ _ _) hx
  | true =>
    cases exec_form i s with
    | brs wa ra _ _ _ he =>
      refine ⟨t, fun hc => ?_, .inl rfl⟩
      obtain ⟨c, rfl⟩ := contextSwitch_confined hc (he ▸ h)
      exact staysConfined_takeTrap s c hc
    | reads _ _ _ _ hb' => simp [hb] at hb'
    | stores _ _ _ _ _ _ _ _ hb' => simp [hb] at hb'
    | ussLoad z q g a hi => subst hi; cases hb
    | ussStore z q g a hi => subst hi; cases hb

theorem step_staysConfined {s t : State} (h : step s = .next t) : StaysConfined s t := by
  intro hc
  have hunit : unitStep s = .next t := by simpa [step, hc.2.1] using h
  have hread := (fetchInstr_within staysConfined_reading)
  refine (?_ : StaysConfined s t) hc
  rcases unitStep_next hunit with ⟨-, rfl⟩ | ⟨i, u, hf, he⟩ | ⟨c, u, hf, rfl⟩
  · exact staysConfined_rfl t
  · obtain ⟨v, hv, rfl | ⟨c, rfl⟩⟩ := exec_staysConfined he
    all_goals
      have hbefore : StaysConfined u (beforeExec i u) := staysConfined_of (by simp) (by simp) (by simp) (by simp) (by simp) (by simp)
      have hvs := staysConfined_chains.trans (hread.ok hf) (staysConfined_chains.trans hbefore hv)
    · exact hvs
    · exact staysConfined_chains.trans hvs (staysConfined_takeTrap v c)
  · exact staysConfined_chains.trans (hread.trap hf) (staysConfined_takeTrap u c)

theorem run_succ (M : Host.Core) {k : Nat} {s u : M.State} (h : M.step s = .next u) : M.run (k + 1) s = M.run k u := by
  rw [Host.Core.run, h]

theorem run_succ_next (M : Host.Core) {k : Nat} {s t : M.State} (h : M.run (k + 1) s = .next t) :
    ∃ u, M.step s = .next u ∧ M.run k u = .next t := by
  unfold Host.Core.run at h
  split at h
  · next u hu => exact ⟨u, hu, h⟩
  · cases h
  · cases h

/-- What every step keeps, a run keeps. -/
theorem run_rel {R : State → State → Prop} (hR : Chains R) (hstep : ∀ s t, step s = .next t → R s t) {k : Nat} {s t : State}
    (h : Host.Core.run core k s = .next t) : R s t := by
  induction k generalizing s with
  | zero => cases h; exact hR.refl _
  | succ k ih =>
    obtain ⟨u, hu, hk⟩ := run_succ_next core h
    exact hR.trans (hstep s u hu) (ih hk)

/-- Settles O54: a write needs a translation for writing, and no step changes what the translations depend on. -/
theorem confinedProgram : Obligations.ConfinedProgram := fun _ _ _ hc h =>
  (run_rel staysConfined_chains (fun _ _ => step_staysConfined) h hc).2

end Sys2Proof.Machine
end

section
/-! PROOFS of the family "other", the instruction cycle (R160): what a step answers, which conditions there are and when they are
raised (R161 to R167), what an instruction leaves unchanged in the unit, and how a run ends (R195). -/

open Sys2Proof.Claims

namespace Sys2Proof.Machine

/-! What the pseudocode of an instruction does to the unit, and what it raises. -/

/-- A relation that all parts of the pseudocode of instruction `i` keep. -/
structure BodyKeeps (R : State → State → Prop) (i : Instr) : Prop where
  access : Access R
  ending : EndKeeps R i
  watch : isUss i = true → ∀ s a n, R s (s.setMon (s.mon.clean a n))
  sr : isBrs i = true → ∀ s img, R s (s.loadSr img)

/-- The conditions that instruction `i` can raise: those of its translations, and USSFAIL if it is a USS store (R161, R166). -/
def ConditionOf (i : Instr) (c : Condition) : Prop := c = .zee ∨ c = .zsw ∨ (c = .ussfail ∧ ∃ z q g a, i = .ussMS z q g a)

theorem OfTranslation.conditionOf {i : Instr} {c : Condition} (h : OfTranslation c) : ConditionOf i c := h.imp id .inl

/-- What is as it was when a condition is raised in an instruction (R24). -/
structure KeptAtTrap (s u : State) : Prop where
  ip : u.ip = s.ip
  root : u.root = s.root
  cc : u.cc = s.cc
  cfg : u.cfg = s.cfg

theorem SameUnit.keptAtTrap {s u : State} (h : SameUnit s u) : KeptAtTrap s u := ⟨h.ip, h.root, h.cc, h.cfg⟩

/-- The pseudocode `body`, from the state `s1`, does what instruction `i` does from `s`: it keeps what its parts keep, and raises
conditions of the instruction only, before SR and IP change. -/
structure BodyOf (i : Instr) (s : State) (body : Act Bool) (s1 : State) : Prop where
  exec : exec i s = finish i body s1
  rel : ∀ {R : State → State → Prop}, BodyKeeps R i → R s (body s1).state
  trap : ∀ {c u}, body s1 = .trap c u → KeptAtTrap s u ∧ ConditionOf i c

theorem Source.sameUnit_trap {α : Type} {m : Act α} (h : Source m) {s u : State} {c : Condition} (e : m s = .trap c u) :
    SameUnit s u := (h.within sameUnit_access.reading).trap e

theorem memWrite_sameUnit (va : Word) (bs : List Byte) : (memWrite va bs).Within SameUnit := memWrite_within sameUnit_access va bs

theorem unitTranslate_sameUnit (va : Word) (kind : AccessKind) (n : Nat) : (unitTranslate va kind n).Within SameUnit :=
  unitTranslate_within sameUnit_access.reading (fun _ => sameUnit_access) va n

section Bodies
variable {i : Instr} {s : State}

theorem body_reads {α : Type} {pre : Act α} {post : α → Act Bool} (hpre : Source pre) (hpost : ∀ x, Ending i (post x))
    (he : exec i s = finish i (pre.bind post) s) : BodyOf i s (pre.bind post) s where
  exec := he
  rel hR := within_bind hR.access.chains (hpre.within hR.access.reading) (fun x => (hpost x).within hR.ending) s
  trap h := by
    rcases bind_trap h with h | ⟨x, v, -, h⟩
    · exact ⟨(hpre.sameUnit_trap h).keptAtTrap, (hpre.raises _ _ _ h).conditionOf⟩
    · exact ((hpost x).raises _ _ _ h).elim

theorem keptAtTrap_withDisp {u : State} (r : Reg) (ae : Bool) (a : Const) (h : SameUnit (withDisp s r ae a) u) :
    KeptAtTrap s u :=
  ⟨h.ip.trans (withDisp_ip ..), h.root.trans (withDisp_root ..), h.cc.trans (withDisp_cc ..), h.cfg.trans (withDisp_cfg ..)⟩

theorem body_stores {α : Type} {s1 : State} {va : Word} {pre : Act α} {bs : α → List Byte} {post : α → Act Bool}
    (hs : ∃ r ae a, s1 = withDisp s r ae a ∧ (ae = true → r ∈ destRegs i)) (hpre : Source pre) (hpost : ∀ x, Ending i (post x))
    (he : exec i s = finish i (pre.bind fun x => (memWrite va (bs x)).bind fun _ => post x) s1) :
    BodyOf i s (pre.bind fun x => (memWrite va (bs x)).bind fun _ => post x) s1 := by
  obtain ⟨r, ae, a, rfl, hr⟩ := hs
  refine ⟨he, fun {R} hR => ?_, fun {c u} h => ?_⟩
  · refine hR.access.chains.trans (hR.ending.withDisp hr a s) (within_bind hR.access.chains (hpre.within hR.access.reading) (fun x => ?_) _)
    exact within_bind hR.access.chains (memWrite_within hR.access _ _) fun _ => (hpost x).within hR.ending
  · rcases bind_trap h with h | ⟨x, v, hx, h⟩
    · exact ⟨keptAtTrap_withDisp r ae a (hpre.sameUnit_trap h), (hpre.raises _ _ _ h).conditionOf⟩
    · rcases bind_trap h with h | ⟨_, w, -, h⟩
      · have hv := (hpre.within sameUnit_access.reading).ok hx
        exact ⟨keptAtTrap_withDisp r ae a (sameUnit_chains.trans hv ((memWrite_sameUnit _ _).trap h)),
          (memWrite_raises _ _ _ _ _ h).conditionOf⟩
      · exact ((hpost x).raises _ _ _ h).elim

theorem body_brs {wa ra : Word} (hb : isBrs i = true) (he : exec i s = contextSwitch i wa ra s) :
    ∃ body s1, BodyOf i s body s1 := by
  refine ⟨_, s, he, fun hR => ?_, fun {c u} h => ?_⟩
  · exact within_bind hR.access.chains (memWrite_within hR.access _ _) (fun _ =>
      within_bind hR.access.chains (memRead_within hR.access.reading (kind := .srload) (fun h => nomatch h) _ _) fun _ =>
        within_bind hR.access.chains (within_modify fun s => hR.sr hb s _) fun _ => within_pure hR.access.chains _) s
  · rcases bind_trap h with h | ⟨_, v, hv, h⟩
    · exact ⟨((memWrite_sameUnit _ _).trap h).keptAtTrap, (memWrite_raises _ _ _ _ _ h).conditionOf⟩
    · rcases bind_trap h with h | ⟨_, _, -, h⟩
      · have hr := (memRead_within sameUnit_access.reading (kind := .srload) (fun h => nomatch h) ra s.cfg.srLayout.cells).trap h
        exact ⟨(sameUnit_chains.trans ((memWrite_sameUnit _ _).ok hv) hr).keptAtTrap, (memRead_raises _ _ _ _ _ _ h).conditionOf⟩
      · cases h

theorem body_ussML (z q : Reg) (g : BitVec 3) (a : Const) (s : State) : ∃ body s1, BodyOf (.ussML z q g a) s body s1 := by
  have hpost : ∀ bs : List Byte, Ending (.ussML z q g a) ((writeReg z (widen (gSigned s g) bs)).bind fun _ =>
      (updateCc (.ussML z q g a) [widen (gSigned s g) bs] [widen (gSigned s g) bs]).bind fun _ => .pure false) := fun bs =>
    ending_bind (ending_writeReg (by simp [destRegs]) _) fun _ => ending_hook _ _ _
  refine ⟨_, s, rfl, fun hR => ?_, fun {c u} h => ?_⟩
  · exact within_bind hR.access.chains (unitTranslate_within hR.access.reading (fun _ => hR.access) _ _) (fun m =>
      within_bind hR.access.chains (readWatched_within hR.access (hR.watch rfl) _ _) fun bs => (hpost bs).within hR.ending) s
  · rcases bind_trap h with h | ⟨m, v, -, h⟩
    · exact ⟨((unitTranslate_sameUnit _ _ _).trap h).keptAtTrap, (unitTranslate_raises _ _ _ _ _ _ h).conditionOf⟩
    · exact (raises_bind (P := NoCondition) (readWatched_raises _ _) (fun bs => (hpost bs).raises) _ _ _ h).elim

theorem body_ussMS (z q : Reg) (g : BitVec 3) (a : Const) (s : State) : ∃ body s1, BodyOf (.ussMS z q g a) s body s1 := by
  have hpost := ending_hook (i := .ussMS z q g a) [s.getReg q] [s.getReg q] false
  refine ⟨_, s, rfl, fun hR => ?_, fun {c u} h => ?_⟩
  · exact within_bind hR.access.chains (unitTranslate_within hR.access.reading (fun _ => hR.access) _ _) (fun m =>
      within_bind hR.access.chains (storeClean_within hR.access (hR.watch rfl) _ _) fun _ => hpost.within hR.ending) s
  · rcases bind_trap h with h | ⟨m, v, hv, h⟩
    · exact ⟨((unitTranslate_sameUnit _ _ _).trap h).keptAtTrap, (unitTranslate_raises _ _ _ _ _ _ h).conditionOf⟩
    · rcases bind_trap h with h | ⟨_, _, -, h⟩
      · have htick := sameUnit_chains.trans ((unitTranslate_sameUnit _ _ _).ok hv) (sameUnit_envTick v)
        rcases storeClean_cases m.pa (narrow (gCells s g) (s.getReg q)) v with ⟨-, hs⟩ | ⟨-, _, -, hs⟩ | ⟨-, -, hs⟩ <;>
          rw [hs] at h <;> cases h
        exact ⟨htick.keptAtTrap, .inr (.inr ⟨rfl, z, q, g, a, rfl⟩)⟩
      · exact (hpost.raises _ _ _ h).elim

end Bodies

theorem exec_body (i : Instr) (s : State) : ∃ body s1, BodyOf i s body s1 := by
  cases exec_form i s with
  | reads pre post _ _ _ hpre hpost he => exact ⟨_, _, body_reads hpre hpost he⟩
  | stores s1 va n pre bs post _ _ _ hs hpre _ hpost he => exact ⟨_, _, body_stores hs hpre hpost he⟩
  | brs wa ra _ _ hb he => exact body_brs hb he
  | ussLoad z q g a hi => subst hi; exact body_ussML z q g a s
  | ussStore z q g a hi => subst hi; exact body_ussMS z q g a s

/-! What an instruction leaves unchanged in the unit (R11, R14, R24). -/

/-- What instruction `i` leaves unchanged. -/
structure UnitFrame (i : Instr) (s u : State) : Prop where
  regs : ∀ r, r ∉ destRegs i → u.getReg r = s.getReg r
  root : isBrs i = false → u.root = s.root
  cc : isBrs i = false → s.cfg.ccUpdate = .never → u.cc = s.cc
  ip : isBrs i = false → isControl i = false → u.ip = s.ip
  trapped : u.trapped = s.trapped
  irqs : s.irqs <+: u.irqs
  served : u.served = s.served
  turns : u.turns = s.turns
  cfg : u.cfg = s.cfg

theorem SameUnit.unitFrame {i : Instr} {s u : State} (h : SameUnit s u) : UnitFrame i s u :=
  ⟨fun r _ => h.reg r, fun _ => h.root, fun _ _ => h.cc, fun _ _ => h.ip, h.trapped, h.irqs, h.served, h.turns, h.cfg⟩

theorem unitFrame_chains (i : Instr) : Chains (UnitFrame i) where
  refl s := (sameUnit_chains.refl s).unitFrame
  trans h h' := ⟨fun r hr => (h'.regs r hr).trans (h.regs r hr), fun hb => (h'.root hb).trans (h.root hb),
    fun hb hc => (h'.cc hb (h.cfg ▸ hc)).trans (h.cc hb hc), fun hb hc => (h'.ip hb hc).trans (h.ip hb hc),
    h'.trapped.trans h.trapped, h.irqs.trans h'.irqs, h'.served.trans h.served, h'.turns.trans h.turns, h'.cfg.trans h.cfg⟩

theorem unitFrame_access (i : Instr) : Access (UnitFrame i) where
  chains := unitFrame_chains i
  env s e := (sameUnit_access.env s e).unitFrame
  store s a b h := (sameUnit_access.store s a b h).unitFrame
  irq s e := (sameUnit_access.irq s e).unitFrame

theorem unitFrame_body (i : Instr) : BodyKeeps (UnitFrame i) i where
  access := unitFrame_access i
  ending := {
    chains := unitFrame_chains i
    dest := fun r hr s v => ⟨fun r' hr' => State.getReg_setReg_ne s (ne_of_mem_of_not_mem hr hr').symm v, fun _ => rfl, fun _ _ => rfl,
      fun _ _ => rfl, rfl, List.prefix_refl _, rfl, rfl, rfl⟩
    ip := fun hc s v => ⟨fun _ _ => rfl, fun _ => rfl, fun _ _ => rfl, fun _ h => absurd hc (by simp [h]), rfl,
      List.prefix_refl _, rfl, rfl, rfl⟩
    hook := fun s ops res v hv => ⟨fun _ _ => rfl, fun _ => rfl, fun _ h => absurd hv (by simp [ccUpdate, h]), fun _ _ => rfl, rfl,
      List.prefix_refl _, rfl, rfl, rfl⟩ }
  watch _ s a n := ⟨fun _ _ => rfl, fun _ => rfl, fun _ _ => rfl, fun _ _ => rfl, rfl, List.prefix_refl _, rfl, rfl, rfl⟩
  sr hb s img := ⟨fun _ _ => rfl, fun h => absurd hb (by simp [h]), fun h => absurd hb (by simp [h]),
    fun h => absurd hb (by simp [h]), rfl, List.prefix_refl _, rfl, rfl, rfl⟩

/-- What an instruction's outcome is: the end of it, in a state that kept the frame, or the trap of one of its conditions. -/
theorem exec_next {i : Instr} {s t : State} (h : exec i s = .next t) :
    (∃ u, UnitFrame i s u ∧ (t = u ∨ (u.cfg.ipBase = .this ∧ t = advanceIp i u))) ∨
    ∃ c u, UnitFrame i s u ∧ KeptAtTrap s u ∧ ConditionOf i c ∧ t = takeTrap c u := by
  obtain ⟨body, s1, hbody⟩ := exec_body i s
  have hframe := hbody.rel (unitFrame_body i)
  rcases finish_next (hbody.exec ▸ h) with ⟨w, u, hu, ht⟩ | ⟨c, u, hu, ht⟩ <;> rw [hu] at hframe
  · refine .inl ⟨u, hframe, ?_⟩
    split at ht
    · next hip => exact .inr ⟨hip.1, ht⟩
    · exact .inl ht
  · obtain ⟨hkept, hc⟩ := hbody.trap hu
    exact .inr ⟨c, u, hframe, hkept, hc, ht⟩

/-- Settles O51: the frame holds of the state in which the pseudocode ends; only IP_BASE = this advances IP after it. -/
theorem unitFrame : Obligations.UnitFrame := by
  intro i s t h
  rcases exec_next h with ⟨u, hu, rfl | ⟨hip, rfl⟩⟩ | ⟨c, u, hu, -, -, rfl⟩
  · exact ⟨t, .inl rfl, hu.regs, hu.root, hu.cc, fun hb hc _ => hu.ip hb hc, hu.trapped, hu.irqs, hu.served, hu.turns, hu.cfg⟩
  · exact ⟨_, .inl rfl, hu.regs, hu.root, hu.cc, fun _ _ hnext => absurd hip (by rw [hu.cfg, hnext]; decide), hu.trapped, hu.irqs,
      hu.served, hu.turns, hu.cfg⟩
  · exact ⟨u, .inr ⟨c, rfl⟩, hu.regs, hu.root, hu.cc, fun hb hc _ => hu.ip hb hc, hu.trapped, hu.irqs, hu.served, hu.turns, hu.cfg⟩

theorem takeTrap_terminal {s : State} (h : s.cfg.trapEntry = .terminal) (c : Condition) : takeTrap c s = { s with trapped := some c } := by
  simp [takeTrap, h]

/-- Settles O10: a newly recorded condition is the trap of one of the instruction's conditions. -/
theorem conditionsOfAnInstruction : Obligations.ConditionsOfAnInstruction := by
  intro i s t c hterm hnone h ht
  rcases exec_next h with ⟨u, hu, ht'⟩ | ⟨c', u, hu, hkept, hc, rfl⟩
  · have : t.trapped = u.trapped := by rcases ht' with rfl | ⟨-, rfl⟩ <;> rfl
    rw [this, hu.trapped, hnone] at ht
    cases ht
  · rw [takeTrap_terminal (hkept.cfg ▸ hterm)] at ht ⊢
    cases ht
    exact ⟨hc, hkept.ip, hkept.root, hkept.cc⟩

/-- Settles O11: every arm of `exec` ends by `finish`, which refuses nothing. -/
theorem stepNeverRefuses : Obligations.StepNeverRefuses := by
  intro s r h
  have hexec : ∀ i u, exec i u ≠ .refused r := fun i u hr => by
    obtain ⟨body, s1, hbody⟩ := exec_body i u
    rw [hbody.exec] at hr
    unfold finish at hr
    split at hr
    · split at hr <;> cases hr
    · cases hr
    · cases hr
  have hunit : ∀ u, unitStep u ≠ .refused r := fun u hr => by
    unfold unitStep at hr
    split at hr
    · cases hr
    · split at hr
      · exact hexec _ _ hr
      · cases hr
      · cases hr
  rcases step_cases s with ⟨m, ts, -, hs⟩ | hs <;> rw [hs] at h
  · rcases targetStep_cases m { s with turns := ts } with ⟨-, ht⟩ | ⟨e, -, ⟨-, ht⟩ | ⟨-, ⟨_, _, -, ht⟩ | ⟨_, _, -, ht⟩ | ⟨_, _, -, ht⟩⟩⟩ <;>
      rw [ht] at h <;> cases h
  · exact hunit _ h

/-! Steps 1 and 2 of the instruction cycle (R160). -/

theorem recognized_raises (cells : List Byte) : (recognized cells).Raises fun c => c = .aea := by
  intro s c t h
  unfold recognized at h
  split at h <;> cases h
  rfl

/-- Reading an instruction raises ZEE, ZSW or AEA only (R165, R167). -/
theorem fetchInstr_raises : fetchInstr.Raises fun c => c = .zee ∨ c = .zsw ∨ c = .aea := by
  have hread : ∀ va {s t c}, memRead va 2 .instr s = .trap c t → c = .zee ∨ c = .zsw ∨ c = .aea := fun va _ _ _ h =>
    (memRead_raises va 2 .instr _ _ _ h).imp id .inl
  intro s c t h
  rcases bind_trap h with h | ⟨h1, u, -, h⟩
  · exact hread _ h
  · split at h
    · cases h; exact .inr (.inr rfl)
    · exact .inr (.inr (recognized_raises _ _ _ _ h))
    · rcases bind_trap h with h | ⟨h2, v, -, h⟩
      · exact hread _ h
      · exact .inr (.inr (recognized_raises _ _ _ _ h))

section Running
variable {s t : State} (hrun : Running s)
include hrun

theorem step_running : step s = unitStep s := by simp [step, hrun.2.2]

theorem step_of_fetch {i : Instr} (h : fetchInstr s = .ok i t) : step s = exec i (beforeExec i t) := by
  rw [step_running hrun, unitStep, hrun.1, hrun.2.1, h]
  rfl

theorem step_of_fetch_trap {c : Condition} (h : fetchInstr s = .trap c t) : step s = .next (takeTrap c t) := by
  rw [step_running hrun, unitStep, hrun.1, hrun.2.1, h]
  rfl

end Running

/-- Settles O9: reading an instruction leaves the unit alone, and the step takes its condition. -/
theorem fetchConditionKeepsRegisters : Obligations.FetchConditionKeepsRegisters := by
  intro s t c hrun h
  have hunit : SameUnit s t := (fetchInstr_within sameUnit_access.reading).trap h
  exact ⟨step_of_fetch_trap hrun h, fetchInstr_raises _ _ _ h, hunit.ip, hunit.regs, hunit.root, hunit.cc⟩

/-- Settles O7. -/
theorem stoppedOrTrappedUnitRests : Obligations.StoppedOrTrappedUnitRests := by
  intro s c
  refine ⟨fun ht hs => ?_, fun ht hs => ?_, fun hterm => takeTrap_terminal hterm c, fun hterm ht => ?_⟩
  · simp [step, ht, unitStep, hs]
  · simp [step, ht, unitStep, Option.isSome_iff_ne_none.2 hs]
  · simp [takeTrap_terminal hterm, step, ht, unitStep]

theorem recognized_rp1 {s : State} (henc : s.cfg.encoding = .rp1) {cells : List Byte} {i : Instr} (hi : rp1Instr cells = some i) :
    recognized cells s = .ok i s := by simp [recognized, Config.recognize, henc, hi]

theorem recognized_rp1_none {s : State} (henc : s.cfg.encoding = .rp1) {cells : List Byte} (hi : rp1Instr cells = none) :
    recognized cells s = .trap .aea s := by simp [recognized, Config.recognize, henc, hi]

section Fetch
variable {s : State} {pa pb : Nat} {i : Instr} (henc : s.cfg.encoding = .rp1) (hr : Readable s s.instrAddr .instr 2 pa)
include henc hr

theorem fetchInstr_unknown (hl : rp1Length ((s.mem.readCells pa 2).headD 0#8) = none) : fetchInstr s = .trap .aea s := by
  unfold fetchInstr
  rw [bind_of_ok _ (memRead_readable hr)]
  simp only [Config.lengthOf, henc, hl]

theorem fetchInstr_two (hl : rp1Length ((s.mem.readCells pa 2).headD 0#8) = some .two)
    (hi : rp1Instr (s.mem.readCells pa 2) = some i) : fetchInstr s = .ok i s := by
  unfold fetchInstr
  rw [bind_of_ok _ (memRead_readable hr)]
  simp only [Config.lengthOf, henc, hl]
  exact recognized_rp1 henc hi

theorem fetchInstr_four (hl : rp1Length ((s.mem.readCells pa 2).headD 0#8) = some .four)
    (hr' : Readable s (s.instrAddr + 2#64) .instr 2 pb) :
    fetchInstr s = recognized (s.mem.readCells pa 2 ++ s.mem.readCells pb 2) s := by
  unfold fetchInstr
  rw [bind_of_ok _ (memRead_readable hr)]
  simp only [Config.lengthOf, henc, hl]
  rw [bind_of_ok _ (memRead_readable hr')]

end Fetch

/-- Cells that decode to an instruction and nothing more have its length and are recognized whole. -/
theorem decode_whole {cells : List Byte} {i : Instr} (h : decode cells = .ok (i, [])) :
    ∃ len, rp1Length (cells.headD 0#8) = some len ∧ cells.length = len.cells ∧ rp1Instr cells = some i := by
  cases cells with
  | nil => cases h
  | cons op tail =>
    cases hl : rp1Length op with
    | none => simp [decode, hl] at h
    | some len =>
      simp only [decode, hl] at h
      split at h
      · cases h
      · next hlen =>
        split at h
        · next j hj =>
          simp only [Except.ok.injEq, Prod.mk.injEq, List.drop_eq_nil_iff] at h
          obtain ⟨rfl, hdrop⟩ := h
          rw [List.take_of_length_le hdrop] at hj
          exact ⟨len, hl, by omega, hj⟩
        · cases h

/-- Settles O5: the cells that decode are those of a whole instruction, so the unit reads and recognizes it. -/
theorem stepRunsDecoded : Obligations.StepRunsDecoded := by
  intro s i pa hrun henc hr
  refine ⟨fun h => ?_, fun pb hr' h => ?_, fun hip => ?_, fun hip => ?_⟩
  · obtain ⟨len, hl, hlen, hi⟩ := decode_whole h
    cases len
    · exact step_of_fetch hrun (fetchInstr_two henc hr hl hi)
    · simp [Length.cells] at hlen
  · obtain ⟨len, hl, hlen, hi⟩ := decode_whole h
    cases len
    · simp [Length.cells] at hlen
    · exact step_of_fetch hrun ((fetchInstr_four henc hr hl hr').trans (recognized_rp1 henc hi))
  · simp [beforeExec, hip, advanceIp, nextIp, Config.cellsOf, henc]
  · simp [beforeExec, hip]

/-- Settles O8: the opcode or the constant bits fail to be recognized, which raises AEA; and AEA is no condition of an instruction
(O10). -/
theorem unrecognizedRaisesAea : Obligations.UnrecognizedRaisesAea := by
  intro s pa hrun henc hr
  refine ⟨fun hl => step_of_fetch_trap hrun (fetchInstr_unknown henc hr hl), fun pb hl hr' hi => ?_,
    fun hterm => takeTrap_terminal hterm _, fun i t hterm h haea => ?_⟩
  · exact step_of_fetch_trap hrun ((fetchInstr_four henc hr hl hr').trans (recognized_rp1_none henc hi))
  · obtain ⟨hc | hc | ⟨hc, -⟩, -⟩ := conditionsOfAnInstruction i (beforeExec i s) t .aea (by rwa [beforeExec_cfg])
      (by rw [beforeExec_trapped]; exact hrun.2.1) h haea <;> cases hc

/-! How a run ends (R195). -/

/-- A unit that is still running, with steps to go, takes one. -/
theorem runEnd_step {k : Nat} {s : State} (hstop : s.stopped = false) (htrap : s.trapped = none) :
    (∃ u, step s = .next u ∧ runEnd (k + 1) s = runEnd k u) ∨ ∃ r, step s = .fault r ∧ runEnd (k + 1) s = .stuck r s := by
  cases hs : step s with
  | next u => exact .inl ⟨u, rfl, by simp [runEnd, hstop, htrap, hs]⟩
  | fault r => exact .inr ⟨r, rfl, by simp [runEnd, hstop, htrap, hs]⟩
  | refused r => exact absurd hs (stepNeverRefuses s r)

/-- A unit that is Stopped or Trapped has ended its run. -/
theorem runEnd_rest (k : Nat) (s : State) : (∃ c, s.trapped = some c ∧ runEnd k s = .trapped c s) ∨
    (s.trapped = none ∧ s.stopped = true ∧ runEnd k s = .stopped s) ∨ (s.trapped = none ∧ s.stopped = false) := by
  cases htrap : s.trapped with
  | some c => exact .inl ⟨c, rfl, by cases k <;> simp [runEnd, htrap]⟩
  | none =>
    cases hstop : s.stopped with
    | true => exact .inr (.inl ⟨rfl, rfl, by cases k <;> simp [runEnd, htrap, hstop]⟩)
    | false => exact .inr (.inr ⟨rfl, rfl⟩)

/-- Settles O60: by induction on the number of steps; a unit at rest has ended its run, and one that is not takes a step. -/
theorem runOutcomes : Obligations.RunOutcomes := by
  intro k
  induction k with
  | zero =>
    intro s
    rcases runEnd_rest 0 s with ⟨c, htrap, h⟩ | ⟨htrap, hstop, h⟩ | ⟨htrap, hstop⟩
    · rw [h]; exact ⟨⟨0, le_rfl, rfl⟩, htrap⟩
    · rw [h]; exact ⟨⟨0, le_rfl, rfl⟩, hstop, htrap⟩
    · have h : runEnd 0 s = .outOfSteps s := by simp [runEnd, htrap, hstop]
      rw [h]; exact ⟨rfl, hstop, htrap⟩
  | succ k ih =>
    intro s
    rcases runEnd_rest (k + 1) s with ⟨c, htrap, h⟩ | ⟨htrap, hstop, h⟩ | ⟨htrap, hstop⟩
    · rw [h]; exact ⟨⟨0, Nat.zero_le _, rfl⟩, htrap⟩
    · rw [h]; exact ⟨⟨0, Nat.zero_le _, rfl⟩, hstop, htrap⟩
    · rcases runEnd_step (k := k) hstop htrap with ⟨u, hu, h⟩ | ⟨r, hr, h⟩
      · have hrun : ∀ j, Host.Core.run core (j + 1) s = Host.Core.run core j u := fun j => run_succ core hu
        have hend := ih u
        rw [h]
        cases hk : runEnd k u <;> rw [hk] at hend <;> dsimp only at hend ⊢
        · obtain ⟨⟨j, hj, hj'⟩, hrest⟩ := hend
          exact ⟨⟨j + 1, Nat.succ_le_succ hj, (hrun j).trans hj'⟩, hrest⟩
        · obtain ⟨⟨j, hj, hj'⟩, hrest⟩ := hend
          exact ⟨⟨j + 1, Nat.succ_le_succ hj, (hrun j).trans hj'⟩, hrest⟩
        · obtain ⟨⟨j, hj, hj'⟩, hrest⟩ := hend
          exact ⟨⟨j + 1, Nat.succ_lt_succ hj, (hrun j).trans hj'⟩, hrest⟩
        · exact ⟨(hrun k).trans hend.1, hend.2⟩
      · rw [h]; exact ⟨⟨0, Nat.succ_pos k, rfl⟩, hstop, htrap, hr⟩

end Sys2Proof.Machine
end

section
/-! PROOFS of the family "other", cells and physical memory (R33, R36), the frame table and the translation (R40 to R59). -/

open Sys2Proof.Claims

namespace Sys2Proof.Machine

/-! Physical accesses. -/

theorem envTick_quiet {s : State} (hq : Quiet s) : s.envTick = s := reading_quiet.tick s hq

/-- A read that reaches a cell that does not exist is stuck on it (R33, D10). -/
theorem physRead_absent {s : State} {a n k : Nat} (hq : Quiet s) (hk : k < n) (hx : CellsExist s.cfg a k)
    (hp : populated s.cfg (a + k) = false) : physRead a n s = .stuck (.absentCell (a + k)) s := by
  obtain ⟨n, rfl⟩ : ∃ m, n = m + 1 := ⟨n - 1, by omega⟩
  induction k generalizing a n with
  | zero =>
    have hcell : readCell a s = .stuck (.absentCell a) s := by simp [readCell, envTick_quiet hq, show populated s.cfg a = false from hp]
    exact bind_of_stuck _ hcell
  | succ k ih =>
    obtain ⟨h0, h1⟩ := cellsExist_succ.1 hx
    obtain ⟨n, rfl⟩ : ∃ m, n = m + 1 := ⟨n - 1, by omega⟩
    have ha : a + (k + 1) = a + 1 + k := by omega
    rw [ha] at hp ⊢
    rw [physRead, bind_of_ok _ (readCell_quiet hq h0), bind_of_stuck _ (ih h1 hp n (by omega))]

/-- A write that reaches a cell that does not exist is stuck on it, the cells before it written (R33, D10). -/
theorem physWrite_absent {s : State} {a k : Nat} {bs : List Byte} (hq : Quiet s) (hk : k < bs.length) (hx : CellsExist s.cfg a k)
    (hp : populated s.cfg (a + k) = false) :
    physWrite a bs s = .stuck (.absentCell (a + k)) (s.storeCells a (bs.take k)) := by
  induction k generalizing a bs s with
  | zero =>
    cases bs with
    | nil => simp at hk
    | cons b bs =>
      have hcell : writeCell a b s = .stuck (.absentCell a) s := by
        simp [writeCell, envTick_quiet hq, show populated s.cfg a = false from hp]
      exact bind_of_stuck _ hcell
  | succ k ih =>
    obtain ⟨h0, h1⟩ := cellsExist_succ.1 hx
    cases bs with
    | nil => simp at hk
    | cons b bs =>
      have ha : a + (k + 1) = a + 1 + k := by omega
      rw [ha] at hp ⊢
      rw [physWrite, bind_of_ok _ (writeCell_quiet b hq h0),
        ih (s := s.storeCell a b) hq (by simpa using hk) h1 hp]
      rfl

/-- Settles O16: without other units an access does its cells one after the other, up to the first that does not exist. -/
theorem physicalAccessIsExact : Obligations.PhysicalAccessIsExact := by
  intro s pa bs hq
  refine ⟨fun hx => ⟨_, physWrite_quiet hq hx, fun a => ?_, fun a => ?_, ?_⟩, fun k hk hx hp =>
    ⟨physWrite_absent hq hk hx hp, physRead_absent hq hk hx hp⟩⟩
  · rw [storeCells_mem, Memory.read_writeCells]
    split
    · next h => rw [List.getD_eq_getElem _ _ (by omega)]
    · rfl
  · rw [storeCells_mon]
    simp only [and_assoc]
  · rw [physRead_quiet (by rw [Quiet, storeCells_env]; exact hq) (by rw [storeCells_cfg]; exact hx), storeCells_mem,
      Memory.readCells_writeCells]

/-! What other units leave alone. -/

/-- A cell reads as before, and its entry in the monitor is as before. -/
def SameCell (a : Nat) (s t : State) : Prop := t.mem.read a = s.mem.read a ∧ lookupKey a t.mon = lookupKey a s.mon

theorem sameCell_chains (a : Nat) : Chains (SameCell a) where
  refl _ := ⟨rfl, rfl⟩
  trans h h' := ⟨h'.1.trans h.1, h'.2.trans h.2⟩

theorem sameCell_storeCell {a x : Nat} (h : a ≠ x) (s : State) (b : Byte) : SameCell a s (s.storeCell x b) :=
  ⟨Memory.read_write_ne _ h b, by rw [State.storeCell_mon, Monitor.lookup_dirty, if_neg fun e => h e.1]⟩

theorem sameCell_signalled (a pa : Nat) (bs : List Byte) (s : State) : SameCell a s (signalled pa bs s) := by
  rcases signalled_cases pa bs s with h | ⟨e, h⟩ <;> rw [h] <;> exact ⟨rfl, rfl⟩

theorem sameCell_storeExisting {a x : Nat} {bs : List Byte} (h : a < x ∨ x + bs.length ≤ a) (s : State) :
    SameCell a s (s.storeExisting x bs) := by
  induction bs generalizing x s with
  | nil => exact (sameCell_chains a).refl s
  | cons b bs ih =>
    rw [List.length_cons] at h
    refine (sameCell_chains a).trans ?_ (ih (x := x + 1) (by omega) _)
    split
    · exact sameCell_storeCell (by omega) s b
    · exact (sameCell_chains a).refl s

theorem sameCell_otherWrites {a : Nat} {ws : List Store} (h : Outside a ws) (s : State) : SameCell a s (s.otherWrites ws) := by
  induction ws generalizing s with
  | nil => exact (sameCell_chains a).refl s
  | cons w ws ih =>
    have hw := sameCell_storeExisting (h w List.mem_cons_self) s
    refine (sameCell_chains a).trans ?_ (ih (fun w' hw' => h w' (List.mem_cons_of_mem _ hw')) (s.otherStore w))
    unfold State.otherStore
    split
    · exact (sameCell_chains a).trans hw (sameCell_signalled a _ _ _)
    · exact hw

@[simp] theorem signalled_env (pa : Nat) (bs : List Byte) (s : State) : (signalled pa bs s).env = s.env := by
  rcases signalled_cases pa bs s with h | ⟨e, h⟩ <;> rw [h]
  rfl

@[simp] theorem storeExisting_env (s : State) (a : Nat) (bs : List Byte) : (s.storeExisting a bs).env = s.env := by
  induction bs generalizing a s with
  | nil => rfl
  | cons b bs ih =>
    rw [State.storeExisting, ih]
    split <;> rfl

/-- A write by another unit uses up none of the writes to come. -/
@[simp] theorem otherWrites_env (s : State) (ws : List Store) : (s.otherWrites ws).env = s.env := by
  induction ws generalizing s with
  | nil => rfl
  | cons w ws ih =>
    rw [State.otherWrites, ih, State.otherStore]
    split <;> simp

/-- No other unit writes any of these cells. -/
def Untouched (lo hi : Nat) (s : State) : Prop := ∀ a, lo ≤ a → a < hi → ∀ ws ∈ s.env, Outside a ws

/-- Other units that write other cells let these be. -/
theorem Untouched.tick {lo hi : Nat} {s : State} (h : Untouched lo hi s) :
    Untouched lo hi s.envTick ∧ ∀ a, lo ≤ a → a < hi → SameCell a s s.envTick := by
  unfold State.envTick
  split
  · exact ⟨h, fun a _ _ => (sameCell_chains a).refl s⟩
  · next ws rest henv =>
    refine ⟨fun a hlo hhi ws' hws' => ?_, fun a hlo hhi => ?_⟩
    · rw [otherWrites_env] at hws'
      exact h a hlo hhi ws' (by rw [henv]; exact List.mem_cons_of_mem _ hws')
    · exact (sameCell_chains a).trans ⟨rfl, rfl⟩ (sameCell_otherWrites (h a hlo hhi ws (by rw [henv]; exact List.mem_cons_self)) _)

theorem Untouched.mono {lo hi lo' hi' : Nat} {s : State} (h : Untouched lo hi s) (h1 : lo ≤ lo') (h2 : hi' ≤ hi) :
    Untouched lo' hi' s := fun a hlo hhi => h a (by omega) (by omega)

theorem readCell_ok {s : State} {a : Nat} (hp : populated s.cfg a = true) :
    readCell a s = .ok (s.envTick.mem.read a) s.envTick := by
  have hp' : populated s.envTick.cfg a = true := by rwa [(sameUnit_envTick s).cfg]
  simp [readCell, hp']

theorem writeCell_ok {s t : State} {a : Nat} {b : Byte} {u : Unit} (h : writeCell a b s = .ok u t) :
    t = s.envTick.storeCell a b ∧ populated s.cfg a = true := by
  unfold writeCell at h
  dsimp only at h
  split at h <;> cases h
  next hp => exact ⟨rfl, by rwa [(sameUnit_envTick s).cfg] at hp⟩

/-- What a write of its own leaves of the cells that no other unit writes: its cells hold what was written, the others what they held
(R36). -/
theorem physWrite_untouched {lo hi a : Nat} {bs : List Byte} {s t : State} {u : Unit} (hs : Untouched lo hi s) (hlo : lo ≤ a)
    (hhi : a + bs.length ≤ hi) (h : physWrite a bs s = .ok u t) :
    Untouched lo hi t ∧ CellsExist t.cfg a bs.length ∧ t.mem.readCells a bs.length = bs ∧
      ∀ x, lo ≤ x → x < a → t.mem.read x = s.mem.read x := by
  induction bs generalizing a s with
  | nil => cases h; exact ⟨hs, fun k hk => absurd hk (Nat.not_lt_zero k), rfl, fun _ _ _ => rfl⟩
  | cons b bs ih =>
    obtain ⟨_, v, hcell, hrest⟩ := bind_ok h
    obtain ⟨rfl, hp⟩ := writeCell_ok hcell
    rw [List.length_cons] at hhi
    obtain ⟨htick, hsame⟩ := hs.tick
    have hv : Untouched lo hi (s.envTick.storeCell a b) := htick
    obtain ⟨ht, hx, hread, hbefore⟩ := ih hv (by omega) (by omega) hrest
    have hcfg : t.cfg = s.cfg := (physWrite_within sameUnit_access a (b :: bs)).ok h |>.cfg
    refine ⟨ht, cellsExist_succ.2 ⟨hcfg ▸ hp, hx⟩, ?_, fun x hx1 hx2 => ?_⟩
    · rw [List.length_cons, Memory.readCells, hread, hbefore a hlo (by omega)]
      simp
    · rw [hbefore x hx1 (by omega), State.storeCell_mem, Memory.read_write_ne _ (by omega)]
      exact (hsame x hx1 (by omega)).1

/-- A read of cells that no other unit writes gives what they hold (R36). -/
theorem physRead_untouched {a n : Nat} {s : State} (hs : Untouched a (a + n) s) (hx : CellsExist s.cfg a n) :
    ∃ u, physRead a n s = .ok (s.mem.readCells a n) u := by
  induction n generalizing a s with
  | zero => exact ⟨s, rfl⟩
  | succ n ih =>
    obtain ⟨h0, h1⟩ := cellsExist_succ.1 hx
    obtain ⟨htick, hsame⟩ := hs.tick
    obtain ⟨u, hu⟩ := ih (htick.mono (Nat.le_succ a) (by omega)) (by rwa [(sameUnit_envTick s).cfg])
    refine ⟨u, ?_⟩
    rw [physRead, bind_of_ok _ (readCell_ok h0), bind_of_ok _ hu, pure_apply, Memory.readCells, (hsame a le_rfl (by omega)).1,
      Memory.readCells_congr fun x hx1 hx2 => (hsame x (by omega) (by omega)).1]

/-- Settles O17: the cells hold what was written, and no other unit writes them before the read. -/
theorem unitReadsItsOwnWrite : Obligations.UnitReadsItsOwnWrite := by
  intro s t pa bs henv h
  have hs : Untouched pa (pa + bs.length) s := fun a hlo hhi ws hws w hw => by
    have := henv ws hws w hw
    omega
  obtain ⟨ht, hx, hread, -⟩ := physWrite_untouched hs le_rfl le_rfl h
  obtain ⟨u, hu⟩ := physRead_untouched ht hx
  exact ⟨u, by rw [hu, hread]⟩

/-! The bits of table entries (R43 to R46). -/

/-- The number in bits {a..b} of a string, bit by bit. -/
theorem fieldOf_eq_iff (e : Word) {a b v : Nat} (ha : 1 ≤ a) (hb : b ≤ 64) (hv : v < 2 ^ (b + 1 - a)) :
    fieldOf e a b = v ↔ ∀ i, a ≤ i → i ≤ b → e.getMsbD (i - 1) = v.testBit (b - i) := by
  have hbit : ∀ i, a ≤ i → i ≤ b → (fieldOf e a b).testBit (b - i) = e.getMsbD (i - 1) := fun i hai hib => by
    have h1 : b - i < b + 1 - a := by omega
    have h2 : 64 - b + (b - i) = 63 - (i - 1) := by omega
    have h3 : i - 1 < 64 := by omega
    rw [fieldOf, Nat.testBit_mod_two_pow, Nat.testBit_div_two_pow, BitVec.getMsbD_eq_getLsbD, decide_eq_true h1, decide_eq_true h3,
      Bool.true_and, Bool.true_and, BitVec.getLsbD]
    congr 1
    omega
  constructor
  · rintro rfl i hai hib
    exact (hbit i hai hib).symm
  · intro h
    refine Nat.eq_of_testBit_eq fun j => ?_
    by_cases hj : j < b + 1 - a
    · have hj' : j = b - (b - j) := by omega
      rw [hj', hbit (b - j) (by omega) (by omega)]
      exact h (b - j) (by omega) (by omega)
    · have hpow : 2 ^ (b + 1 - a) ≤ 2 ^ j := Nat.pow_le_pow_right (by decide) (by omega)
      rw [Nat.testBit_lt_two_pow (Nat.lt_of_lt_of_le hv hpow), fieldOf, Nat.testBit_mod_two_pow, decide_eq_false hj, Bool.false_and]

theorem fieldOf_eq_zero_iff (e : Word) {a b : Nat} (ha : 1 ≤ a) (hb : b ≤ 64) :
    fieldOf e a b = 0 ↔ ∀ i, a ≤ i → i ≤ b → e.getMsbD (i - 1) = false := by
  rw [fieldOf_eq_iff e ha hb (Nat.two_pow_pos _)]
  simp only [Nat.zero_testBit]

/-- The constant bits of a table pointer (R46). -/
theorem tableFormat_iff (e : Word) :
    fieldOf e 53 64 = 0b000010000000 ↔ ∀ i, 53 ≤ i → i ≤ 64 → e.getMsbD (i - 1) = decide (i = 57) := by
  rw [fieldOf_eq_iff e (by decide) le_rfl (by decide)]
  have hbit : ∀ i, 53 ≤ i → i ≤ 64 → Nat.testBit 0b000010000000 (64 - i) = decide (i = 57) := by decide
  exact forall_congr' fun i => forall_congr' fun h1 => forall_congr' fun h2 => by rw [hbit i h1 h2]

/-- Settles O18: the three formats differ in bits {60} and {64}, so the order in which they are compared does not matter. -/
theorem entryKindsByBits : Obligations.EntryKindsByBits := by
  intro n e h1 h6
  rw [← fieldOf_eq_zero_iff e (by omega) (by decide), ← tableFormat_iff, ← bitOf_eq_getMsbD (i := 60) e (by decide) (by decide),
    ← bitOf_eq_getMsbD (i := 64) e (by decide) (by decide)]
  have htable : fieldOf e 53 64 = 0b000010000000 → bitOf e 60 = false ∧ bitOf e 64 = false := fun h => by
    have hbits := (tableFormat_iff e).1 h
    rw [bitOf_eq_getMsbD e (by decide) (by decide), bitOf_eq_getMsbD e (by decide) (by decide)]
    exact ⟨hbits 60 (by decide) (by decide), hbits 64 (by decide) (by decide)⟩
  unfold entryKind
  refine ⟨?_, ?_, ?_, rfl, rfl⟩ <;> split_ifs <;> simp_all <;> omega

/-! The walk (R54, R55). -/

/-- The index of the table of order n + 1, as the bits of the virtual address that it is (R41). -/
theorem tableIndex_eq {n : Nat} (hn : n ≤ 5) (va : Word) :
    tableIndex (n + 1) va = if n + 1 = 6 then va.toNat / 2 ^ 57 else va.toNat / 2 ^ (12 + 9 * n) % 2 ^ 9 := by
  unfold tableIndex fieldOf
  split
  · have := va.isLt
    omega
  · have h1 : 64 - (16 + 9 * (5 - (n + 1))) = 12 + 9 * n := by omega
    have h2 : 16 + 9 * (5 - (n + 1)) + 1 - (8 + 9 * (5 - (n + 1))) = 9 := by omega
    rw [h1, h2]

/-- The pointer to the next lower table, {1..52} completed with zeros (R46, D3). -/
theorem tablePointer_eq (e : Word) : fieldOf e 1 52 * 2 ^ 12 = e.toNat / 2 ^ 12 * 2 ^ 12 := by
  have h : e.toNat / 2 ^ 12 < 2 ^ 52 := by have := e.isLt; omega
  exact congrArg (· * 2 ^ 12) (Nat.mod_eq_of_lt h)

section Walk
variable {s : State} {va : Word} {kind : AccessKind} {n tb ea : Nat} (hq : Quiet s) (hea : ea = tb + 8 * tableIndex (n + 1) va)
  (hx : CellsExist s.cfg ea 8)
include hq hea hx

theorem walk_descriptor (hk : entryKind (n + 1) (entryAt s.mem ea) = .descriptor) :
    walk va kind (n + 1) tb s = frameAccess (n + 1) (entryAt s.mem ea) ea false va kind s := by
  subst hea
  simp only [walk, bind_of_ok _ (readEntry_quiet hq hx), hk]

theorem walk_key (hk : entryKind (n + 1) (entryAt s.mem ea) = .key) :
    walk va kind (n + 1) tb s = frameAccess (n + 1) (entryAt s.mem ea) ea true va kind s := by
  subst hea
  simp only [walk, bind_of_ok _ (readEntry_quiet hq hx), hk]

theorem walk_table (hk : entryKind (n + 1) (entryAt s.mem ea) = .table) :
    walk va kind (n + 1) tb s = walk va kind n ((entryAt s.mem ea).toNat / 2 ^ 12 * 2 ^ 12) s := by
  subst hea
  simp only [walk, bind_of_ok _ (readEntry_quiet hq hx), hk, tablePointer_eq]

theorem walk_noFormat (hk : entryKind (n + 1) (entryAt s.mem ea) = .noFormat) : walk va kind (n + 1) tb s = .trap .zee s := by
  subst hea
  simp only [walk, bind_of_ok _ (readEntry_quiet hq hx), hk, raise_apply]

end Walk

/-- Settles O19. -/
theorem walkGoesDown : Obligations.WalkGoesDown := by
  intro s va kind n tb ea e hq hn hea hx he
  rw [← tableIndex_eq hn] at hea
  subst he
  exact ⟨walk_descriptor hq hea hx, walk_key hq hea hx, walk_table hq hea hx, walk_noFormat hq hea hx⟩

/-! The frame access (R57, R59). -/

/-- An allowed access by a key whose gate has a wrong format raises ZEE (R57 step 2). -/
theorem frameAccess_gateFormat {s : State} {n ea ha : Nat} {e va : Word} {kind : AccessKind} (hq : Quiet s)
    (hha : ha = e.toNat / 2 ^ 5 * 2 ^ 5) (hx : CellsExist s.cfg ha 8) (hp : permits kind e = true)
    (hc : s.cfg.gateFormatCheck = true) (hg : gateFormat n (entryAt s.mem ha) = false) :
    frameAccess n e ea true va kind s = .trap .zee s := by
  have hf : findHolder n e ea true s = .trap .zee s := by
    rw [findHolder, if_pos rfl, gatePointer_eq, ← hha, bind_of_ok _ (readEntry_quiet hq hx)]
    simp [hc, hg]
  rw [frameAccess, if_pos hp, bind_of_trap _ hf]

/-- Settles O20: each test of the frame access is made where the ones before it passed. -/
theorem frameAccessInOrder : Obligations.FrameAccessInOrder := by
  intro s n ea e va isKey kind ha h hq he hha hh hx
  subst hh
  refine ⟨fun hp => frameAccess_denied hp n ea isKey va s, fun hp hk hc hg => ?_, fun hp hg hs => ?_⟩
  · subst hk
    exact frameAccess_gateFormat hq hha hx hp hc hg
  · rw [← bitOf_eq_getMsbD (i := 59) _ (by decide) (by decide)] at hs
    exact frameAccess_present hq hx hp (findHolder_quiet hq he hha hx hg) hs

/-- Settles O22. -/
theorem permissionByBits : Obligations.PermissionByBits := by
  intro e
  simp only [permits, bitOf_eq_getMsbD e (i := 61) (by decide) (by decide), bitOf_eq_getMsbD e (i := 62) (by decide) (by decide),
    bitOf_eq_getMsbD e (i := 63) (by decide) (by decide)]
  simp

/-! The physical address (R57 step 5, R48). -/

/-- The frame base in a holder, as the number that it is the bits of. -/
theorem frameBase_eq {n : Nat} (h1 : 1 ≤ n) (h6 : n ≤ 6) (h : Word) : fieldOf h 1 (tEnd n) = h.toNat / 2 ^ offBits n := by
  have hoff : 64 - tEnd n = offBits n := by unfold tEnd offBits; omega
  have hlt : h.toNat / 2 ^ offBits n < 2 ^ tEnd n := by
    rw [Nat.div_lt_iff_lt_mul (Nat.two_pow_pos _), ← Nat.pow_add]
    have : tEnd n + offBits n = 64 := by unfold tEnd offBits; omega
    rw [this]
    exact h.isLt
  rw [fieldOf, hoff, Nat.add_sub_cancel, Nat.mod_eq_of_lt hlt]

/-- The bits of the physical address, counted from the right. -/
theorem testBit_framePa {n : Nat} (h1 : 1 ≤ n) (h6 : n ≤ 6) (h va : Word) (j : Nat) :
    (framePa n h va).testBit j = if j < offBits n then va.toNat.testBit j else h.toNat.testBit j := by
  rw [framePa, frameBase_eq h1 h6, Nat.mul_comm, Nat.testBit_two_pow_mul_add _ (Nat.mod_lt _ (Nat.two_pow_pos _)),
    Nat.testBit_mod_two_pow, Nat.testBit_div_two_pow]
  split
  · next hj => rw [decide_eq_true hj, Bool.true_and]
  · next hj => rw [Nat.sub_add_cancel (by omega)]

theorem framePa_lt {n : Nat} (h1 : 1 ≤ n) (h6 : n ≤ 6) (h va : Word) : framePa n h va < 2 ^ 64 := by
  refine Nat.lt_pow_two_of_testBit _ fun j hj => ?_
  have hoff : ¬j < offBits n := by unfold offBits; omega
  rw [testBit_framePa h1 h6, if_neg hoff]
  exact BitVec.getLsbD_of_ge h j hj

/-- The bits of a pointer of k bits as an address (D3). -/
theorem testBit_pointerAddr (k : Fin 65) (v j : Nat) :
    (pointerAddr k v).testBit j = (decide (64 - k.val ≤ j ∧ j < 64) && v.testBit (j - (64 - k.val))) := by
  have := k.isLt
  rw [pointerAddr, Nat.mul_comm, Nat.testBit_two_pow_mul, Nat.testBit_mod_two_pow]
  by_cases h1 : 64 - k.val ≤ j <;> by_cases h2 : j < 64 <;> simp [h1, h2] <;> omega

/-- Settles O23: bit {i} of an address is bit 64 - i from the right, so it is of the base or of the offset, of the pointer or a zero. -/
theorem physicalAddressByBits : Obligations.PhysicalAddressByBits := by
  refine ⟨fun n h va h1 h6 => ⟨framePa_lt h1 h6 h va, fun i hi => ?_⟩, fun s k hk => ?_⟩
  · have hbit : ∀ v : Word, v.getMsbD i = v.toNat.testBit (64 - 1 - i) := fun v => by
      rw [BitVec.getMsbD_eq_getLsbD, decide_eq_true hi, Bool.true_and, BitVec.getLsbD]
    rw [getMsbD_ofNat_of_lt _ hi, testBit_framePa h1 h6, hbit, hbit]
    have : 64 - 1 - i < offBits n ↔ ¬i < tEnd n := by unfold tEnd offBits; omega
    by_cases hi' : i < tEnd n <;> simp [this, hi']
  · have hk65 := s.cfg.srLayout.rootBits.isLt
    refine ⟨Nat.lt_pow_two_of_testBit _ fun j hj => ?_, fun i hi => ?_, fun h54 hlt => ?_⟩
    · rw [rootAddr, testBit_pointerAddr, decide_eq_false (by omega), Bool.false_and]
    · rw [getMsbD_ofNat_of_lt _ hi, rootAddr, testBit_pointerAddr]
      by_cases hik : i < k
      · rw [getMsbD_ofNat_of_lt _ hik, decide_eq_true (by omega), decide_eq_true hik, Bool.true_and, Bool.true_and]
        congr 1
        omega
      · rw [decide_eq_false (by omega), decide_eq_false hik, Bool.false_and, Bool.false_and]
    · rw [rootAddr, pointerAddr, ← hk, h54, Nat.mod_eq_of_lt hlt]

/-! The M bit (R57 step 4), and the frame's end (R38). -/

@[simp] theorem entryAt_writeCells (m : Memory) (a : Nat) (v : Word) : entryAt (m.writeCells a (toCells 8 v.toNat)) a = v := by
  have h := Memory.readCells_writeCells m a (toCells 8 v.toNat)
  rw [toCells_length] at h
  rw [entryAt, h, fromCells_toCells]
  exact BitVec.eq_of_toNat_eq (by rw [BitVec.toNat_ofNat, Nat.mod_mod]; exact Nat.mod_eq_of_lt v.isLt)

/-- M is bit {58}. -/
theorem getMsbD_setModified (h : Word) {i : Nat} (hi : i < 64) :
    (setModified h).getMsbD i = (decide (i = 57) || h.getMsbD i) := by
  have hm : ∀ i, i < 64 → (0x40#64).getMsbD i = decide (i = 57) := by decide
  rw [setModified, BitVec.getMsbD_or, hm i hi, Bool.or_comm]

/-- Settles O24: a translation that goes on is an access of its kind (`Accessed`), and that one for a write stores the holder. -/
theorem translatedWriteSetsModified : Obligations.TranslatedWriteSetsModified := by
  intro s t va kind n m c hq
  refine ⟨fun h => ⟨unitTranslate_quiet_trap hq h, unitTranslate_raises _ _ _ _ _ _ h⟩, fun h hk => ?_, fun h hk => ?_⟩
  · rw [(unitTranslate_quiet_ok hq h).after, if_neg hk]
  · have ht := (unitTranslate_quiet_ok hq h).after
    rw [if_pos hk] at ht
    have hunit : SameUnit s t := (unitTranslate_sameUnit va kind n).ok h
    refine ⟨fun i hi => ?_, fun a ha => ?_, fun a hlo hhi => ?_, hunit.regs, hunit.root, hunit.cc, hunit.ip⟩ <;>
      subst ht
    · rw [storeCells_mem, entryAt_writeCells, getMsbD_setModified _ hi]
    · rw [storeCells_mem, storeCells_mon, Memory.read_writeCells_outside _ (by simp; omega), if_neg (by simp; omega)]
      exact ⟨rfl, rfl⟩
    · rw [storeCells_mon, toCells_length]
      split
      · exact nofun
      · next hc => exact fun e => hc ⟨⟨hlo, hhi⟩, e⟩

/-- The check of CROSS_FRAME comes after the walk (R38). -/
theorem translate_of_walk {root n : Nat} {va : Word} {kind : AccessKind} {s t : State} {m : Mapped}
    (h : walk va kind 6 root s = .ok m t) : translate root va kind n s =
      if t.cfg.crossFrame = .fault ∧ crosses m va n = true then .stuck (.crossFrame va) t else .ok m t := by
  rw [translate, bind_of_ok _ h]

/-- Settles O25. -/
theorem frameCrossing : Obligations.FrameCrossing := by
  intro s t root va kind n m h
  rw [translate_of_walk h]
  refine ⟨fun hl => if_neg (by simp [hl]), fun _ hin => if_neg ?_, fun hf hout => if_pos ⟨hf, decide_eq_true hout⟩⟩
  simp [crosses, hin]

end Sys2Proof.Machine
end

section
/-! PROOFS of the family "other", operands and functions: field G and constants (R77, R78), the numbers of strings (R17 to R19), the
functions of the bitwise instructions (R121 to R129) and the quotient (R145). -/

open Sys2Proof.Claims

namespace Sys2Proof.Machine

/-! Field G and constants. -/

theorem fromCells_lt_word {bs : List Byte} (h : bs.length ≤ 8) : fromCells bs < 2 ^ 64 :=
  Nat.lt_of_lt_of_le (fromCells_lt bs) (Nat.pow_le_pow_right (by decide) (by omega))

theorem standardFormats_field (g : BitVec 3) : Config.standardFormats[g.toFin].signed = g.getMsbD 0 ∧
    Config.standardFormats[g.toFin].cells = 2 ^ (g.toNat % 4) := by
  revert g
  decide

/-- Settles O26: zero extension keeps the unsigned number, sign extension the signed one, and narrowing the number modulo 2^(8n). -/
theorem fieldG : Obligations.FieldG := by
  refine ⟨fun s g hg => ?_, fun bs => ⟨?_, fun hlen => ⟨?_, ?_⟩⟩, fun n v => ⟨narrow_length n v, fromCells_toCells n v.toNat⟩,
    fun c hc => ⟨?_, BitVec.toInt_signExtend_of_le hc⟩⟩
  · unfold gSigned gCells formatOf
    rw [hg]
    exact standardFormats_field g
  · exact BitVec.toNat_ofNat _ _
  · exact (BitVec.toNat_ofNat _ _).trans (Nat.mod_eq_of_lt (fromCells_lt_word hlen))
  · exact BitVec.toInt_signExtend_of_le (by omega)
  · change (c.bits.setWidth 64).toNat = c.bits.toNat
    rw [BitVec.toNat_setWidth]
    exact Nat.mod_eq_of_lt (Nat.lt_of_lt_of_le c.bits.isLt (Nat.pow_le_pow_right (by decide) hc))

/-! The numbers of strings (R17). -/

/-- A number is the sum of its bits, the rightmost ones modulo a power of 2. -/
theorem sum_testBit (v w : Nat) :
    ∑ j ∈ Finset.range w, (2 : ℚ) ^ j * (if v.testBit j then 1 else 0) = ((v % 2 ^ w : Nat) : ℚ) := by
  induction w with
  | zero => simp [Nat.mod_one]
  | succ w ih =>
    have hbit : (if v.testBit w then 1 else 0 : ℚ) = ((v / 2 ^ w % 2 : Nat) : ℚ) := by
      rw [← Nat.toNat_testBit]
      cases v.testBit w <;> simp
    rw [Finset.sum_range_succ, ih, hbit, Nat.mod_pow_succ]
    push_cast
    ring

/-- Bit i of a string is bit w - i of its number. -/
theorem stringBit_eq {w : Nat} (s : BitVec w) {i : Nat} (h1 : 1 ≤ i) (hw : i ≤ w) :
    stringBit s i = if s.toNat.testBit (w - i) then 1 else 0 := by
  have h2 : i - 1 < w := by omega
  have h3 : w - 1 - (i - 1) = w - i := by omega
  rw [stringBit, BitVec.getMsbD_eq_getLsbD, decide_eq_true h2, Bool.true_and, BitVec.getLsbD, h3]

/-- The sum of R17 is the unsigned number. -/
theorem sum_stringBit {w : Nat} (s : BitVec w) : ∑ i ∈ Finset.Icc 1 w, (2 : ℚ) ^ (w - i) * stringBit s i = (s.toNat : ℚ) := by
  calc ∑ i ∈ Finset.Icc 1 w, (2 : ℚ) ^ (w - i) * stringBit s i
      = ∑ j ∈ Finset.range w, (2 : ℚ) ^ j * (if s.toNat.testBit j then 1 else 0) := by
        refine Finset.sum_nbij' (fun i => w - i) (fun j => w - j) ?_ ?_ ?_ ?_ ?_
        · intro i hi; rw [Finset.mem_Icc] at hi; rw [Finset.mem_range]; omega
        · intro j hj; rw [Finset.mem_range] at hj; rw [Finset.mem_Icc]; omega
        · intro i hi; rw [Finset.mem_Icc] at hi; omega
        · intro j hj; rw [Finset.mem_range] at hj; omega
        · intro i hi
          rw [Finset.mem_Icc] at hi
          rw [stringBit_eq s hi.1 hi.2]
    _ = (s.toNat : ℚ) := by rw [sum_testBit, Nat.mod_eq_of_lt s.isLt]

theorem zU_eq {w : Nat} (s : BitVec w) (m : Int) : zU s m = (2 : ℚ) ^ m * (s.toNat : ℚ) := by rw [zU, sum_stringBit]

/-- Two's complement: the first bit counts negative. -/
theorem zZ_eq {w : Nat} (s : BitVec w) (m : Int) : zZ s m = (2 : ℚ) ^ m * (s.toInt : ℚ) := by
  rw [zZ]
  congr 1
  cases w with
  | zero => simp [stringBit, BitVec.of_length_zero]
  | succ w =>
    have hsplit : (s.toNat : ℚ) = 2 ^ w * stringBit s 1 + ∑ i ∈ Finset.Icc 2 (w + 1), (2 : ℚ) ^ (w + 1 - i) * stringBit s i := by
      rw [← sum_stringBit s, ← Finset.add_sum_Ioc_eq_sum_Icc (by omega : 1 ≤ w + 1)]
      rfl
    have hbit : stringBit s 1 = if s.msb then 1 else 0 := by rw [BitVec.msb_eq_getMsbD_zero]; rfl
    rw [BitVec.toInt_eq_msb_cond]
    rw [Nat.add_sub_cancel]
    cases hm : s.msb <;> rw [hm] at hbit <;> simp only [hbit, if_true, Bool.false_eq_true, if_false] at hsplit ⊢ <;>
      push_cast [pow_succ] <;> linarith

/-- Settles O27. -/
theorem numbersOfStrings : Obligations.NumbersOfStrings := by
  refine ⟨fun w s m => ⟨zU_eq s m, zZ_eq s m⟩, fun m b v e f => ⟨?_, ?_⟩⟩
  · have hpow : (2 : ℚ) ^ (-1 - (b : Int)) = 1 / 2 ^ (b + 1) := by
      rw [show -1 - (b : Int) = -((b + 1 : Nat) : Int) by push_cast; ring, zpow_neg, zpow_natCast, one_div]
    rw [xValue, zU_eq, hpow]
    ring
  · have hlt : (f.toNat : ℚ) < 2 ^ b := by exact_mod_cast f.isLt
    rw [div_lt_div_iff₀ (by positivity) (by norm_num), pow_succ]
    linarith

/-! The bitwise functions. -/

theorem fThr_eq_rotateRight (w : Nat) (t : BitVec w) (s : Word) : fThr w t s = t.rotateRight s.toNat := by
  rw [BitVec.rotateRight_def]
  rfl

/-- Settles O28: the bits of each shift, and of the rotation, by place. -/
theorem shiftsByBits : Obligations.ShiftsByBits := by
  intro w t s i hi
  refine ⟨?_, ?_, ?_, ?_⟩
  · unfold fLsh
    split
    · rw [BitVec.getMsbD_shiftLeft]
      by_cases h : i + s.toNat < w
      · rw [decide_eq_true h, Bool.true_and]
      · rw [decide_eq_false h, Bool.false_and, BitVec.getMsbD_of_ge _ _ (by omega)]
    · rw [decide_eq_false (by omega), Bool.false_and, BitVec.getMsbD_zero]
  · unfold fRns
    split
    · rw [BitVec.getMsbD_ushiftRight, decide_eq_true hi, Bool.true_and]
      by_cases h : s.toNat ≤ i <;> simp [h]
    · rw [decide_eq_false (by omega), Bool.false_and, BitVec.getMsbD_zero]
  · unfold fRfs
    split
    · rw [BitVec.getMsbD_sshiftRight, decide_eq_true hi, Bool.true_and, BitVec.msb_eq_getMsbD_zero]
      by_cases h : s.toNat ≤ i
      · rw [if_neg (by omega), if_pos h]
      · rw [if_pos (by omega), if_neg h]
    · have hout : ¬s.toNat ≤ i := by omega
      rw [if_neg hout, ← BitVec.msb_eq_getMsbD_zero]
      cases t.msb <;> simp [hi]
  · rw [fThr_eq_rotateRight, BitVec.getMsbD_rotateRight, decide_eq_true hi, Bool.true_and, Nat.add_comm i w]
    have hr := Nat.mod_lt s.toNat (Nat.zero_lt_of_lt hi)
    split
    · rfl
    · have : w + i - s.toNat % w = (i - s.toNat % w) + w := by omega
      have hin : i - s.toNat % w < w := by omega
      rw [this, Nat.add_mod_right, Nat.mod_eq_of_lt hin]

/-- Settles O29: bit i of a w-bit target meets bit 64 - w + i of the source. -/
theorem logicByBits : Obligations.LogicByBits := by
  intro w t s hw
  have hsource : ∀ i, (s.setWidth w).getMsbD i = s.getMsbD (64 - w + i) := fun i => by
    rw [BitVec.getMsbD_setWidth, decide_eq_true (by omega), Bool.true_and]
    congr 1
    omega
  refine ⟨fun i hi => ⟨?_, ?_, ?_⟩, ?_⟩
  · rw [fAnd, BitVec.getMsbD_and, hsource]
  · rw [fOr, BitVec.getMsbD_or, hsource]
  · rw [fNot, BitVec.getMsbD_not, decide_eq_true hi, Bool.true_and, hsource]
  · exact neg_add_cancel (s.setWidth w)

/-! The quotient. -/

/-- A signed quotient fits, but for -2^63 by -1. -/
theorem tdiv_fits {a b : Int} (hb : b ≠ 0) (ha : -2 ^ 63 ≤ a) (ha' : a < 2 ^ 63) (h : a ≠ -2 ^ 63 ∨ b ≠ -1) :
    -2 ^ 63 ≤ a.tdiv b ∧ a.tdiv b < 2 ^ 63 := by
  have hle : (a.tdiv b).natAbs ≤ a.natAbs := by rw [Int.natAbs_tdiv]; exact Nat.div_le_self _ _
  by_cases hmin : a = -2 ^ 63
  · have hb1 : b ≠ -1 := h.resolve_left (fun hn => hn hmin)
    by_cases hone : b = 1
    · subst hone; rw [Int.tdiv_one]; omega
    · have hhalf : (a.tdiv b).natAbs ≤ a.natAbs / 2 := by
        rw [Int.natAbs_tdiv]
        exact Nat.div_le_div_left (by omega) (by decide)
      omega
  · omega

/-- Settles O30. -/
theorem quotientTowardZero : Obligations.QuotientTowardZero := by
  intro a b hb
  have hb' : b.toInt ≠ 0 := fun h => hb (BitVec.eq_of_toInt_eq h)
  refine ⟨?_, fun h => ?_, fun ⟨ha, hb1⟩ => ?_⟩
  · exact (BitVec.toNat_ofNat _ _).trans (Nat.mod_eq_of_lt (Nat.lt_of_le_of_lt (Nat.div_le_self _ _) a.isLt))
  · obtain ⟨hlo, hhi⟩ := tdiv_fits hb' (BitVec.le_toInt a) BitVec.toInt_lt h
    have hq : (quotient true a b).toInt = a.toInt.tdiv b.toInt := BitVec.toInt_ofInt_eq_self (by decide) hlo hhi
    rw [hq, Int.tdiv_mul_add_tmod]
  · refine BitVec.eq_of_toInt_eq ?_
    rw [quotient, if_pos rfl, ha, hb1]
    decide

end Sys2Proof.Machine
end

section
/-! PROOFS of the family "other", how the control and the move instructions complete (R90 to R111). -/

open Sys2Proof.Claims

namespace Sys2Proof.Machine

/-! Control instructions (R90 to R94). -/

theorem controlFrom {tgt : Word → Word → Word} {i : Instr} {cond : List Bool} {r : Reg} {source : Act Word} {s : State} {src : Word}
    (he : exec i s = control tgt i cond r source s) (h : source s = .ok src s) : ControlFrom i cond r src (tgt s.ip src) s := by
  constructor <;> intro hc <;> rw [he, control_next h, fulfilled, hc]
  · rw [if_pos rfl]
  · rw [if_neg Bool.false_ne_true]

/-- A condition of the memory source is taken, whatever the instruction condition (D24). -/
theorem control_memory_trap {tgt : Word → Word → Word} {i : Instr} {cond : List Bool} {r q : Reg} {a : Const} {s t : State}
    {c : Condition} (he : exec i s = control tgt i cond r (mControl q a) s)
    (h : memRead (s.getReg q + dispOf s a) 8 .data s = .trap c t) : (c = .zee ∨ c = .zsw) ∧ exec i s = .next (takeTrap c t) :=
  ⟨memRead_raises _ _ _ _ _ _ h, he.trans (control_trap (mControl_trap h))⟩

/-- The last bit of a sum. -/
theorem getLsbD_zero_add (x y : Word) : (x + y).getLsbD 0 = (x.getLsbD 0 ^^ y.getLsbD 0) := by
  rw [BitVec.getLsbD_add (by decide)]
  simp

/-- Settles O31. -/
theorem skipAddsToIp : Obligations.SkipAddsToIp := by
  intro cond c r q w a s
  refine ⟨controlFrom (source := wControl w) rfl rfl, controlFrom (source := rControl q) rfl rfl,
    fun pa hr => controlFrom rfl (mControl_readable hr), fun c t h => control_memory_trap rfl h, fun src => getLsbD_zero_add _ _,
    ?_, ?_, ?_⟩ <;> simp [encode, packK, packBA, packRR, condOp]

/-- Settles O32. -/
theorem jumpSetsIp : Obligations.JumpSetsIp := by
  intro cond c r q w a s
  refine ⟨controlFrom (tgt := jumpTarget) (source := wControl w) rfl rfl,
    controlFrom (tgt := jumpTarget) (source := rControl q) rfl rfl,
    fun pa hr => controlFrom (tgt := jumpTarget) rfl (mControl_readable hr),
    fun c t h => control_memory_trap (tgt := jumpTarget) rfl h, fun src => rfl,
    ?_, ?_, ?_⟩ <;> simp [encode, packK, packBA, packRR, condOp]

/-! STR (R100 to R104). -/

/-- Settles O33. -/
theorem moveConstant : Obligations.MoveConstant := fun z w s => moveReg_next (.strK z w) z (extend s.cfg.wExtMove w) s

theorem setReg_getReg (s : State) (r : Reg) : s.setReg r (s.getReg r) = s := by
  simp [State.setReg, State.getReg]

/-- Settles O34. -/
theorem moveRegister : Obligations.MoveRegister := fun z q s =>
  ⟨moveReg_next (.strRR z q) z (s.getReg q) s, setReg_getReg s z, rfl⟩

/-- Settles O35: the datum is read before the address register is updated. -/
theorem moveLoads : Obligations.MoveLoads := by
  intro z q ae g a s pa hr
  exact finish_updateCc (by rw [bind_of_ok _ (loadSource_readable hr)]; rfl)

/-- The store form of STR, after the update of its address register (R103). -/
theorem exec_strMS {z q : Reg} {ae : Bool} {g : BitVec 3} {a : Const} {s s1 : State} (hs : s1 = withDisp s z ae a) :
    exec (.strMS z q ae g a) s = finish (.strMS z q ae g a)
      ((memWrite (effAddr s1 z ae a) (narrow (gCells s g) (s1.getReg q))).bind fun _ =>
        (updateCc (.strMS z q ae g a) [s1.getReg q] [s1.getReg q]).bind fun _ => .pure false) s1 := by
  subst hs
  have hg : gCells (withDisp s z ae a) g = gCells s g := by simp [gCells]
  rw [← hg]
  exact finish_congr rfl

/-- Settles O36. -/
theorem moveStores : Obligations.MoveStores := by
  intro z q ae g a s s1 va hs hva
  have hd : dispOf s1 a = dispOf s a := by simp [dispOf, hs]
  have he : effAddr s1 z ae a = va := by rw [effAddr, hd, hva]
  rw [exec_strMS hs, he]
  refine ⟨fun m s' hw => finish_updateCc (bind_of_ok _ (memWrite_cells (narrow_length _ _) hw)), fun c t h => ⟨?_, ?_⟩⟩
  · have hm : memWrite va (narrow (gCells s g) (s1.getReg q)) s1 = .trap c t := bind_of_trap _ (by rwa [narrow_length])
    exact finish_trap (bind_of_trap _ hm)
  · exact ((unitTranslate_sameUnit _ _ _).trap h).regs

/-! USS (R105, R106). -/

/-- Settles O37. -/
theorem atomicLoadWatches : Obligations.AtomicLoadWatches := by
  intro z q g a s pa hr
  obtain ⟨hq, ⟨m, ht, rfl⟩, hx⟩ := hr
  exact ⟨exec_ussML_read ht (readWatched_quiet hq hx), fun c => Monitor.lookup_clean _ _ _ _⟩

/-- Settles O38: the check is made in the state that other units leave right before it. -/
theorem atomicStoreChecks : Obligations.AtomicStoreChecks := by
  intro z q g a s s' u v m ht hu
  subst hu
  have hcfg : s'.envTick.cfg = s.cfg := (sameUnit_envTick s').cfg.trans ((unitTranslate_sameUnit _ _ _).ok ht).cfg
  rw [exec_ussMS_translated ht]
  refine ⟨fun ⟨c, hlo, hhi, hc⟩ => ?_, fun hx hc hv => ?_⟩
  · obtain ⟨k, rfl⟩ := Nat.exists_eq_add_of_le hlo
    exact finish_trap (bind_of_trap _ (storeClean_fails (by rw [narrow_length]; omega) hc))
  · subst hv
    have hs := storeClean_clean (s := s') (pa := m.pa) (bs := narrow (gCells s g) (s.getReg q))
      (fun k hk => hc _ (by omega) (by rw [narrow_length] at hk; omega)) (by rwa [narrow_length, hcfg])
    rw [narrow_length] at hs
    exact finish_updateCc (bind_of_ok _ hs)

/-! BRS (R108 to R110). -/

theorem exec_of_brsForm {i : Instr} {wa ra : Word} {s : State} (h : BrsForm i wa ra s) : exec i s = contextSwitch i wa ra s := by
  rcases h with ⟨r, q, a, rfl, rfl, rfl⟩ | ⟨r, q, rfl, rfl, rfl⟩ <;> rfl

section Saved
variable {i : Instr} {wa : Word} {s s' : State} {m : Mapped} {n : Nat}

theorem Writable.sameUnit (hw : Writable s wa n m s') : SameUnit s s' := (unitTranslate_sameUnit _ _ _).ok hw.2.1

theorem Writable.quiet (hw : Writable s wa n m s') : Quiet s' := by
  rw [(unitTranslate_quiet_ok hw.1 hw.2.1).after]
  split
  · rw [Quiet, storeCells_env]; exact hw.1
  · exact hw.1

/-- Where a store can be made, it keeps SR and all else of the unit. -/
theorem Writable.sameUnit_written (hw : Writable s wa n m s') (bs : List Byte) : SameUnit s (s'.written m.pa bs) :=
  sameUnit_chains.trans hw.sameUnit (Machine.sameUnit_written s' m.pa bs)

end Saved

/-- Settles O39: the new SR is read where the old root table still holds. -/
theorem contextSwitchReplacesSr : Obligations.ContextSwitchReplacesSr := by
  intro i wa ra s s' t m pa hf hw ht
  subst ht
  exact ⟨(hw.sameUnit_written _).root, fun hr => (exec_of_brsForm hf).trans (contextSwitch_next (saveSr_writable hw) hr)⟩

/-- Settles O40: the read that raises the condition changed nothing after the save. -/
theorem contextSwitchKeepsItsSave : Obligations.ContextSwitchKeepsItsSave := by
  intro i wa ra s s' t u m c hf hw ht hr
  have hq : Quiet t := by rw [ht, Quiet, written_env]; exact hw.quiet
  obtain rfl := memRead_quiet_trap hq hr
  subst ht
  have hunit := hw.sameUnit_written (savedSr i s)
  refine ⟨(exec_of_brsForm hf).trans (contextSwitch_trap (saveSr_writable hw) hr), rfl, ?_, hunit.root, hunit.cc, hunit.ip⟩
  have hread := Memory.readCells_writeCells s'.mem m.pa (savedSr i s)
  rwa [savedSr_length, ← written_mem] at hread

/-- A string put before another, as a number. -/
theorem toNat_append_eq {m n : Nat} (x : BitVec m) (y : BitVec n) : (x ++ y).toNat = x.toNat * 2 ^ n + y.toNat := by
  rw [BitVec.toNat_append, ← Nat.shiftLeft_add_eq_or_of_lt y.isLt, Nat.shiftLeft_eq]

/-- The image under the layout of the spec, as a sum (R13). -/
theorem srImage_standard {c : Config} (hl : c.srLayout = Config.standardSr) (hcw : c.cw = 2) (root cc : Nat) (ip : Word) :
    srImage c root cc ip = (BitVec.ofNat 54 root ++ 0#8 ++ BitVec.ofNat 2 cc ++ ip).toNat := by
  have hip : ip.toNat < 2 ^ 64 := ip.isLt
  have hcc : cc % 2 ^ 2 * 2 ^ 64 + ip.toNat < 2 ^ 74 := by omega
  simp only [srImage, hl, hcw, Config.standardSr]
  rw [Nat.or_assoc, Nat.shiftLeft_zero, ← Nat.shiftLeft_add_eq_or_of_lt hip, Nat.shiftLeft_eq (cc % 2 ^ 2),
    ← Nat.shiftLeft_add_eq_or_of_lt hcc, Nat.shiftLeft_eq]
  have h54 : ((54 : Fin 65) : Nat) = 54 := rfl
  simp only [toNat_append_eq, BitVec.toNat_ofNat, h54]
  omega

/-- Settles O41. -/
theorem srImageLayout : Obligations.SrImageLayout := by
  refine ⟨fun i s hl hcw hip => ⟨by simp [hl, Config.standardSr], ?_⟩, fun s r x c p hl hcw => ?_⟩
  · have hcells : s.cfg.srLayout.cells = 16 := by rw [hl]; rfl
    rw [savedSr, fromCells_toCells, hcells, srImage_standard hl hcw, Nat.mod_eq_of_lt (BitVec.isLt _)]
    simp [resumeIp, hip]
  · have hr := r.isLt
    have hx := x.isLt
    have hc := c.isLt
    have hp := p.isLt
    have h54 : ((54 : Fin 65) : Nat) = 54 := rfl
    simp only [h54, State.loadSr_root, State.loadSr_cc, State.loadSr_ip, hl, hcw, Config.standardSr, fieldAt, toNat_append_eq]
    refine ⟨by omega, by omega, BitVec.eq_of_toNat_eq ?_⟩
    rw [BitVec.toNat_ofNat]
    omega

/-! UDB (R111). -/

/-- The register pair as the cells of an entry (R171). -/
theorem fromCells_entryCells (s : State) (q : Reg) :
    BitVec.ofNat 128 (fromCells (entryCells s q)) = s.getReg q ++ s.getReg (q + 1) := by
  refine BitVec.eq_of_toNat_eq ?_
  have h1 := (s.getReg q).isLt
  have h2 := (s.getReg (q + 1)).isLt
  rw [entryCells, fromCells_append, narrow_length, narrow, narrow, fromCells_toCells, fromCells_toCells, toNat_append_eq,
    BitVec.toNat_ofNat]
  omega

theorem entryCells_length (s : State) (q : Reg) : (entryCells s q).length = 16 := by simp [entryCells]

@[simp] theorem storeCells_irqs (s : State) (a : Nat) (bs : List Byte) : (s.storeCells a bs).irqs = s.irqs := by
  induction bs generalizing a s with
  | nil => rfl
  | cons b bs ih => rw [State.storeCells, ih]; rfl

section Accessed
variable {s t : State} {va : Word} {kind : AccessKind} {m : Mapped}

/-- A translation without other units records no interruption. -/
theorem Accessed.irqs (h : Accessed s va kind m t) : t.irqs = s.irqs := by
  rw [h.after]
  split
  · exact storeCells_irqs _ _ _
  · rfl

/-- Without other units it writes no cell but the holder's, and those for a write only. -/
theorem Accessed.read_outside (h : Accessed s va kind m t) {a : Nat} (ha : kind = .write → a < m.holder ∨ m.holder + 8 ≤ a) :
    t.mem.read a = s.mem.read a := by
  rw [h.after]
  split
  · next hk =>
    have := ha hk
    rw [storeCells_mem]
    exact Memory.read_writeCells_outside _ (by rw [toCells_length]; omega)
  · rfl

end Accessed

/-- Settles O42: the store is an interruption exactly at a gate. -/
theorem interruptionIsRecorded : Obligations.InterruptionIsRecorded := by
  intro z q a s s' t m hw ht
  subst ht
  have hgates : (s'.storeCells m.pa (entryCells s q)).cfg.gates = s.cfg.gates := by rw [storeCells_cfg, hw.sameUnit.cfg]
  have hexec : exec (.udb z q a) s = .next (ended (.udb z q a) [s.getReg q, s.getReg (q + 1)] [s.getReg q, s.getReg (q + 1)]
      (s'.written m.pa (entryCells s q))) :=
    finish_updateCc (bind_of_ok _ (memWrite_cells (entryCells_length s q) hw))
  refine ⟨fromCells_entryCells s q, fun k hk => ?_, fun hk => ?_⟩ <;>
    rw [hexec, State.written, signalled, if_pos (entryCells_length s q), hgates, hk]
  · rw [fromCells_entryCells]
    simp only [State.addIrq, storeCells_irqs, (unitTranslate_quiet_ok hw.1 hw.2.1).irqs]

end Sys2Proof.Machine
end

section
/-! PROOFS of the family "other", the bitwise and the arithmetic instructions complete (R120 to R145). -/

open Sys2Proof.Claims

namespace Sys2Proof.Machine

/-! The bitwise functions as numbers (R121 to R129). -/

section Numbers
variable (w : Nat) (t : BitVec w) (s : Word)

theorem fLsh_eq_ofNat : fLsh w t s = BitVec.ofNat w (t.toNat * 2 ^ s.toNat) := by
  apply BitVec.eq_of_toNat_eq
  rw [fLsh, BitVec.toNat_ofNat]
  split
  · rw [BitVec.toNat_shiftLeft, Nat.shiftLeft_eq]
  · next h => exact (Nat.mod_eq_zero_of_dvd ((Nat.pow_dvd_pow 2 (by omega)).mul_left _)).symm

theorem fRns_eq_ofNat : fRns w t s = BitVec.ofNat w (t.toNat / 2 ^ s.toNat) := by
  apply BitVec.eq_of_toNat_eq
  rw [fRns, BitVec.toNat_ofNat, Nat.mod_eq_of_lt (lt_of_le_of_lt (Nat.div_le_self _ _) t.isLt)]
  split
  · rw [BitVec.toNat_ushiftRight, Nat.shiftRight_eq_div_pow]
  · next h => exact (Nat.div_eq_of_lt (t.isLt.trans_le (Nat.pow_le_pow_right (by decide) (by omega)))).symm

/-- A count of `w` or more leaves copies of the first bit, as the library's shift does. -/
theorem fRfs_eq_sshiftRight : fRfs w t s = t.sshiftRight s.toNat := by
  rw [fRfs]
  split
  · rfl
  · next h =>
    refine BitVec.eq_of_getLsbD_eq fun i hi => ?_
    have hn : ¬s.toNat + i < w := by omega
    rw [BitVec.getLsbD_sshiftRight]
    cases t.msb <;> simp [hn, hi]

theorem fRfs_eq_ofInt : fRfs w t s = BitVec.ofInt w (t.toInt / 2 ^ s.toNat) := by
  rw [fRfs_eq_sshiftRight, ← BitVec.ofInt_toInt (x := t.sshiftRight _), BitVec.toInt_sshiftRight, Int.shiftRight_eq_div_pow]
  norm_cast

theorem fSsw_eq_ofNat : fSsw w t s = BitVec.ofNat w (2 ^ w - (s.setWidth w).toNat) := by
  apply BitVec.eq_of_toNat_eq
  rw [fSsw, BitVec.toNat_neg, BitVec.toNat_ofNat]

end Numbers

/-- The four forms of a bitwise instruction run the shared formats with a function equal to the row's (R120). -/
structure RunsAs (row : BitwiseRow) (f : BitFn) : Prop where
  number : ∀ w t s, f w t s = row.f w t s
  k  : ∀ z w s, exec (row.forms.k z w) s = aluReg (onWord f) (row.forms.k z w) z (extend (row.wExt s) w) s
  rr : ∀ z q s, exec (row.forms.rr z q) s = aluReg (onWord f) (row.forms.rr z q) z (s.getReg q) s
  ml : ∀ z q ae g a s, exec (row.forms.ml z q ae g a) s = aluLoad (onWord f) (row.forms.ml z q ae g a) z q ae g a s
  ms : ∀ z q ae g a s, exec (row.forms.ms z q ae g a) s = bitStore f row.usesT (row.forms.ms z q ae g a) z q ae g a s

theorem bitwiseRows_run : ∀ row ∈ bitwiseRows, ∃ f, RunsAs row f := by
  simp only [bitwiseRows, List.forall_mem_cons]
  refine ⟨⟨fLsh, ?_⟩, ⟨fRns, ?_⟩, ⟨fRfs, ?_⟩, ⟨fThr, ?_⟩, ⟨fAnd, ?_⟩, ⟨fOr, ?_⟩, ⟨fNot, ?_⟩, ⟨fSsw, ?_⟩, by simp⟩
  · exact ⟨fLsh_eq_ofNat, fun _ _ _ => rfl, fun _ _ _ => rfl, fun _ _ _ _ _ _ => rfl, fun _ _ _ _ _ _ => rfl⟩
  · exact ⟨fRns_eq_ofNat, fun _ _ _ => rfl, fun _ _ _ => rfl, fun _ _ _ _ _ _ => rfl, fun _ _ _ _ _ _ => rfl⟩
  · exact ⟨fRfs_eq_ofInt, fun _ _ _ => rfl, fun _ _ _ => rfl, fun _ _ _ _ _ _ => rfl, fun _ _ _ _ _ _ => rfl⟩
  · exact ⟨fun w t s => (fThr_eq_rotateRight w t s).trans (BitVec.rotateRight_mod_eq_rotateRight ..).symm,
      fun _ _ _ => rfl, fun _ _ _ => rfl, fun _ _ _ _ _ _ => rfl, fun _ _ _ _ _ _ => rfl⟩
  · exact ⟨fun _ _ _ => rfl, fun _ _ _ => rfl, fun _ _ _ => rfl, fun _ _ _ _ _ _ => rfl, fun _ _ _ _ _ _ => rfl⟩
  · exact ⟨fun _ _ _ => rfl, fun _ _ _ => rfl, fun _ _ _ => rfl, fun _ _ _ _ _ _ => rfl, fun _ _ _ _ _ _ => rfl⟩
  · exact ⟨fun _ _ _ => rfl, fun _ _ _ => rfl, fun _ _ _ => rfl, fun _ _ _ _ _ _ => rfl, fun _ _ _ _ _ _ => rfl⟩
  · exact ⟨fSsw_eq_ofNat, fun _ _ _ => rfl, fun _ _ _ => rfl, fun _ _ _ _ _ _ => rfl, fun _ _ _ _ _ _ => rfl⟩

/-- A bitwise function on register values answers at once. -/
theorem onWord_ok {row : BitwiseRow} {f : BitFn} (hf : RunsAs row f) (b : Bool) (t src : Word) (s : State) :
    onWord f b t src s = .ok (row.f 64 t src) s := congrArg (Res.ok · s) (hf.number 64 t src)

/-- Settles O43. -/
theorem bitwiseOnRegisters : Obligations.BitwiseOnRegisters := by
  intro row hrow z q w s
  obtain ⟨f, hf⟩ := bitwiseRows_run row hrow
  exact ⟨(hf.k z w s).trans (aluReg_next (onWord_ok hf _ _ _ s)), (hf.rr z q s).trans (aluReg_next (onWord_ok hf _ _ _ s))⟩

/-- Settles O44. -/
theorem bitwiseLoads : Obligations.BitwiseLoads := by
  intro row hrow z q ae g a s pa hr
  obtain ⟨f, hf⟩ := bitwiseRows_run row hrow
  exact (hf.ml z q ae g a s).trans (aluLoad_next hr (onWord_ok hf _ _ _ s))

/-- Settles O45. -/
theorem bitwiseStores : Obligations.BitwiseStores := by
  intro row hrow z q ae g a s s1 s' pa m t v hs hr hw ht hv
  obtain ⟨f, hf⟩ := bitwiseRows_run row hrow
  exact (hf.ms z q ae g a s).trans (bitStore_next hs hr hw ht (hv.trans (hf.number _ _ _).symm))

/-! The arithmetic instructions (R140 to R145). -/

/-- The four forms of an arithmetic instruction run the shared formats with the function `f` (R140). -/
structure RunsArith (F : Forms) (f : AluFn) : Prop where
  k  : ∀ z w s, exec (F.k z w) s = aluReg f (F.k z w) z (wArith w) s
  rr : ∀ z q s, exec (F.rr z q) s = aluReg f (F.rr z q) z (s.getReg q) s
  ml : ∀ z q ae g a s, exec (F.ml z q ae g a) s = aluLoad f (F.ml z q ae g a) z q ae g a s
  ms : ∀ z q ae g a s, exec (F.ms z q ae g a) s = arithStore f (F.ms z q ae g a) z q ae g a s

theorem giv_runs : RunsArith giv gGiv :=
  ⟨fun _ _ _ => rfl, fun _ _ _ => rfl, fun _ _ _ _ _ _ => rfl, fun _ _ _ _ _ _ => rfl⟩

theorem tac_runs : RunsArith tac gTac :=
  ⟨fun _ _ _ => rfl, fun _ _ _ => rfl, fun _ _ _ _ _ _ => rfl, fun _ _ _ _ _ _ => rfl⟩

theorem fld_runs : RunsArith fld gFld :=
  ⟨fun _ _ _ => rfl, fun _ _ _ => rfl, fun _ _ _ _ _ _ => rfl, fun _ _ _ _ _ _ => rfl⟩

theorem cut_runs : RunsArith cut gCut :=
  ⟨fun _ _ _ => rfl, fun _ _ _ => rfl, fun _ _ _ _ _ _ => rfl, fun _ _ _ _ _ _ => rfl⟩

/-- The forms complete where the function has a value, which the parameters and the operands decide. -/
theorem arithCompletes {F : Forms} {f : AluFn} {g : State → Bool → Word → Word → Word} {ok : State → Word → Word → Prop}
    (hF : RunsArith F f) (hf : ∀ s s' b t src, s'.cfg = s.cfg → ok s t src → f b t src s' = .ok (g s b t src) s') :
    ArithCompletes F g ok := by
  intro z q ae gf a w s
  refine ⟨fun h => ?_, fun h => ?_, fun pa hr h => ?_, fun pa m s1 s' hs hr hw h => ?_⟩
  · exact (hF.k z w s).trans (aluReg_next (hf s s _ _ _ rfl h))
  · exact (hF.rr z q s).trans (aluReg_next (hf s s _ _ _ rfl h))
  · exact (hF.ml z q ae gf a s).trans (aluLoad_next hr (hf s s _ _ _ rfl h))
  · exact (hF.ms z q ae gf a s).trans (arithStore_next hs hr hw (hf s s1 _ _ _ (by rw [hs, withDisp_cfg]) h))

/-- Settles O46. -/
theorem givAdds : Obligations.GivAdds :=
  ⟨arithCompletes giv_runs fun _ _ _ _ _ _ _ => rfl, fun _ _ _ _ _ _ => ⟨rfl, rfl, rfl, rfl⟩⟩

/-- Settles O47. -/
theorem tacSubtracts : Obligations.TacSubtracts :=
  ⟨arithCompletes tac_runs fun _ _ _ _ _ _ _ => rfl, fun _ _ _ _ _ _ => ⟨rfl, rfl, rfl, rfl⟩⟩

/-- The product of strings is that of their unsigned numbers. -/
theorem mul_eq_ofNat (t s : Word) : t * s = BitVec.ofNat 64 (t.toNat * s.toNat) := by
  apply BitVec.eq_of_toNat_eq
  rw [BitVec.toNat_mul, BitVec.toNat_ofNat]

/-- Settles O48: modulo 2^64 the unsigned and the signed product are one. -/
theorem fldMultiplies : Obligations.FldMultiplies := by
  refine ⟨arithCompletes fld_runs fun _ s' _ t src _ _ => congrArg (Res.ok · s') (mul_eq_ofNat t src), fun t s => ?_,
    fun _ _ _ _ _ _ => ⟨rfl, rfl, rfl, rfl⟩⟩
  rw [← mul_eq_ofNat, BitVec.ofInt_mul, BitVec.ofInt_toInt, BitVec.ofInt_toInt]

/-- CUT divides the operands in the order in force. -/
theorem gCut_eq_divide (b : Bool) (t src : Word) (s : State) :
    gCut b t src s = divide b (cutOperands s.cfg t src).1 (cutOperands s.cfg t src).2 s := by
  rw [gCut, cutOperands]
  cases s.cfg.cutOrder <;> rfl

theorem gCut_ok {b : Bool} {t src : Word} {s : State} (h : (cutOperands s.cfg t src).2 ≠ 0#64) :
    gCut b t src s = .ok (divOf s.cfg b (cutOperands s.cfg t src).1 (cutOperands s.cfg t src).2) s := by
  rw [gCut_eq_divide]
  exact ((divide_cases ..).resolve_left fun hz => h hz.1).2

theorem gCut_stuck {b : Bool} {t src : Word} {s : State} (h : (cutOperands s.cfg t src).2 = 0#64) :
    gCut b t src s = .stuck .divideUndefined s := by
  rw [gCut_eq_divide]
  exact ((divide_cases ..).resolve_right fun hn => hn.1 h).2

/-- Settles O49. -/
theorem cutDivides : Obligations.CutDivides :=
  arithCompletes cut_runs fun s s' b t src hc h => by rw [← hc] at h ⊢; exact gCut_ok h

/-- Settles O50. -/
theorem cutByZeroSticks : Obligations.CutByZeroSticks := by
  intro z q ae g a w s
  refine ⟨fun h => ?_, fun h => ?_, fun pa hr h => ?_, fun pa s1 hs hr h => ?_⟩
  · exact (cut_runs.k z w s).trans (aluReg_stuck (gCut_stuck h))
  · exact (cut_runs.rr z q s).trans (aluReg_stuck (gCut_stuck h))
  · exact (cut_runs.ml z q ae g a s).trans (aluLoad_stuck hr (gCut_stuck h))
  · exact (cut_runs.ms z q ae g a s).trans
      (arithStore_stuck hs hr (gCut_stuck (by rwa [show s1.cfg = s.cfg by rw [hs, withDisp_cfg]])))

end Sys2Proof.Machine
end

section
/-! PROOFS of the family "other", what an instruction leaves of memory: a form that stores nothing (`readingFormsLeaveMemory`), and a
form that stores (`exec_stores`, all its outcomes without other units). -/

open Sys2Proof.Claims

namespace Sys2Proof.Machine

/-- Whether an instruction stores does not depend on the state. -/
theorem isSome_storesAt (i : Instr) (s s' : State) : (storesAt i s').isSome = (storesAt i s).isSome := by cases i <;> rfl

theorem storesAt_none {i : Instr} {s : State} (h : storesAt i s = none) (s' : State) : storesAt i s' = none := by
  rw [← Option.not_isSome_iff_eq_none, isSome_storesAt i s s', h]
  exact Bool.false_ne_true

/-- What a form that stores nothing leaves as it was, without other units. -/
def ReadsOnly (i : Instr) (s t : State) : Prop :=
  Quiet s → Quiet t ∧ t.mem = s.mem ∧ (isUss i = false → t.mon = s.mon) ∧ t.irqs = s.irqs

theorem readsOnly_chains (i : Instr) : Chains (ReadsOnly i) where
  refl _ hq := ⟨hq, rfl, fun _ => rfl, rfl⟩
  trans h h' hq := by
    obtain ⟨hq1, hm1, hn1, hi1⟩ := h hq
    obtain ⟨hq2, hm2, hn2, hi2⟩ := h' hq1
    exact ⟨hq2, hm2.trans hm1, fun hu => (hn2 hu).trans (hn1 hu), hi2.trans hi1⟩

theorem readsOnly_reading (i : Instr) : Reading (ReadsOnly i) where
  chains := readsOnly_chains i
  tick s hq := by rw [envTick_quiet hq]; exact (readsOnly_chains i).refl s hq

/-- The first format of USS marks cells in the monitor, and nothing else. -/
theorem readsOnly_watch {i : Instr} (hu : isUss i = true) (s : State) (a n : Nat) : ReadsOnly i s (s.setMon (s.mon.clean a n)) := by
  refine fun hq => ⟨hq, rfl, fun h => ?_, rfl⟩
  rw [hu] at h
  cases h

theorem readsOnly_keeps {i : Instr} (hp : ∀ s, storesAt i s = none) : Keeps (ReadsOnly i) i where
  chains := readsOnly_chains i
  read va n _ hk := memRead_within (readsOnly_reading i) (fun h => absurd h hk) va n
  watched hu := ⟨fun va n => unitTranslate_within (readsOnly_reading i) (kind := .data) (fun h => nomatch h) va n, fun pa n =>
    readWatched_within_of_exist (readsOnly_reading i) (fun s a n _ => readsOnly_watch hu s a n) pa n⟩
  write s s1 va n h := by rw [hp s] at h; cases h
  dest _ _ _ _ hq := ⟨hq, rfl, fun _ => rfl, rfl⟩
  ip _ _ hq := ⟨hq, rfl, fun _ => rfl, rfl⟩
  hook _ _ _ _ _ hq := ⟨hq, rfl, fun _ => rfl, rfl⟩
  sr _ _ _ hq := ⟨hq, rfl, fun _ => rfl, rfl⟩

/-- Settles O52. -/
theorem readingFormsLeaveMemory : Obligations.ReadingFormsLeaveMemory := by
  intro i s t hp hq h
  have hends : Ends (ReadsOnly i) s t := by
    refine exec_rel (readsOnly_keeps (storesAt_none hp)) (fun ⟨z, q, g, a, hi⟩ _ => ?_) h
    rw [hi] at hp
    cases hp
  obtain ⟨u, hu, ht⟩ := hends
  obtain ⟨-, hm, hn, hi⟩ := hu hq
  exact ⟨u, ht, fun a => by rw [hm], hn, hi⟩

/-! A form that stores. -/

/-- What the end of instruction `i` leaves as it was. -/
structure SameStore (i : Instr) (s u : State) : Prop where
  mem : u.mem = s.mem
  irqs : u.irqs = s.irqs
  cfg : u.cfg = s.cfg
  mon : isUss i = false → u.mon = s.mon

theorem sameStore_endKeeps (i : Instr) : EndKeeps (SameStore i) i where
  chains := ⟨fun _ => ⟨rfl, rfl, rfl, fun _ => rfl⟩, fun h h' => ⟨h'.mem.trans h.mem, h'.irqs.trans h.irqs,
    h'.cfg.trans h.cfg, fun hu => (h'.mon hu).trans (h.mon hu)⟩⟩
  dest _ _ _ _ := ⟨rfl, rfl, rfl, fun _ => rfl⟩
  ip _ _ _ := ⟨rfl, rfl, rfl, fun _ => rfl⟩
  hook _ _ _ _ _ := ⟨rfl, rfl, rfl, fun _ => rfl⟩

/-- All outcomes of a form that stores `n` cells at `va`, translated in the state `s1`. -/
inductive StoreEnds (i : Instr) (s1 : State) (va : Word) (n : Nat) (t : State) : Prop
  /-- A condition before the store. -/
  | before (c : Condition) (ht : t = takeTrap c s1)
  /-- The check of a USS store fails, after the translation. -/
  | fails (m : Mapped) (s' : State) (hu : isUss i = true) (hm : unitTranslate va .write n s1 = .ok m s')
      (ht : t = takeTrap .ussfail s')
  /-- The store is made, and then nothing else is stored. -/
  | stored (bs : List Byte) (m : Mapped) (s' u : State) (hn : bs.length = n) (hw : Writable s1 va n m s')
      (hu : SameStore i (s'.written m.pa bs) u) (ht : EndsIn u t)

section Outcomes
variable {i : Instr} {α : Type}

/-- How a sequence ends an instruction: its first part raises a condition, or the rest ends it. -/
theorem finish_bind {m : Act α} {f : α → Act Bool} {s t : State} (h : finish i (m.bind f) s = .next t) :
    (∃ c u, m s = .trap c u ∧ t = takeTrap c u) ∨ ∃ a u, m s = .ok a u ∧ finish i (f a) u = .next t := by
  cases hm : m s with
  | ok a u => exact .inr ⟨a, u, rfl, (finish_congr (bind_of_ok _ hm)).symm.trans h⟩
  | trap c u =>
    rw [finish_trap (bind_of_trap _ hm)] at h
    cases h
    exact .inl ⟨c, u, rfl, rfl⟩
  | stuck r u => rw [finish_stuck (bind_of_stuck _ hm)] at h; cases h

theorem sameStore_advanceIp (s : State) : SameStore i s (advanceIp i s) := ⟨rfl, rfl, rfl, fun _ => rfl⟩

/-- The end of an instruction stores nothing and raises nothing. -/
theorem Ending.sameStore {post : Act Bool} (hp : Ending i post) {s t : State} (h : finish i post s = .next t) : SameStore i s t := by
  have hR := sameStore_endKeeps i
  rcases finish_next h with ⟨w, u, hb, ht⟩ | ⟨c, u, hb, -⟩
  · have hu : SameStore i s u := (hp.within hR).ok hb
    rw [ht]
    split
    · exact hR.chains.trans hu (sameStore_advanceIp u)
    · exact hu
  · exact (hp.raises _ _ _ hb).elim

/-- A store of an instruction without other units, and its end. -/
theorem storeEnds_memWrite {s1 t : State} {va : Word} {n : Nat} {bs : List Byte} {f : Unit → Act Bool} (hq : Quiet s1)
    (hn : bs.length = n) (hf : ∀ u, Quiet u → finish i (f ()) u = .next t → ∃ v, SameStore i u v ∧ EndsIn v t)
    (h : finish i ((memWrite va bs).bind f) s1 = .next t) : StoreEnds i s1 va n t := by
  subst hn
  rcases finish_bind h with ⟨c, u, hm, ht⟩ | ⟨⟨⟩, u, hm, ht⟩
  · rw [memWrite_quiet_trap hq hm] at ht
    exact .before c ht
  · obtain ⟨m, s', hw, rfl⟩ := memWrite_quiet_ok hq hm
    obtain ⟨v, hv, hend⟩ := hf _ (by rw [Quiet, signalled_env, storeCells_env]; exact hw.quiet) ht
    exact .stored bs m s' v rfl hw hv hend

end Outcomes

/-- The state in which a storing form translates its address differs in its address register only. -/
def AddressUpdated (s s1 : State) : Prop := ∃ r ae a, s1 = withDisp s r ae a

theorem addressUpdated_refl (s : State) : AddressUpdated s s := ⟨0, false, ⟨0, 0#0⟩, rfl⟩

theorem AddressUpdated.quiet {s s1 : State} (h : AddressUpdated s s1) (hq : Quiet s) : Quiet s1 := by
  obtain ⟨r, ae, a, rfl⟩ := h
  rw [Quiet, withDisp_env]
  exact hq

theorem sameStore_loadSr (i : Instr) (s : State) (img : Nat) : SameStore i s (s.loadSr img) := ⟨rfl, rfl, rfl, fun _ => rfl⟩

/-- All outcomes of BRS. -/
theorem contextSwitch_storeEnds {i : Instr} {s t : State} {wa ra : Word} (hq : Quiet s)
    (h : contextSwitch i wa ra s = .next t) : StoreEnds i s wa s.cfg.srLayout.cells t := by
  refine storeEnds_memWrite hq (savedSr_length i s) (fun u hq' hu => ?_) h
  rcases finish_bind hu with ⟨c, v, hm, ht⟩ | ⟨bs, v, hm, ht⟩
  · rw [memRead_quiet_trap hq' hm] at ht
    exact ⟨u, (sameStore_endKeeps i).chains.refl u, .inr ⟨c, ht⟩⟩
  · obtain ⟨rfl, -⟩ := memRead_quiet_ok hq' (by decide) hm
    rcases finish_next ht with ⟨w, v, hv, rfl⟩ | ⟨c, v, hv, -⟩ <;> cases hv
    rw [if_neg (fun h => nomatch h.2)]
    exact ⟨_, sameStore_loadSr i _ _, .inl rfl⟩

/-- All outcomes of the second format of USS. -/
theorem ussStore_storeEnds {z q : Reg} {g : BitVec 3} {a : Const} {s t : State} (hq : Quiet s)
    (h : exec (.ussMS z q g a) s = .next t) :
    StoreEnds (.ussMS z q g a) s (s.getReg z + dispOf s a) (gCells s g) t := by
  rcases finish_bind h with ⟨c, u, hm, ht⟩ | ⟨m, s', hm, ht⟩
  · rw [unitTranslate_quiet_trap hq hm] at ht
    exact .before c ht
  · have hq' : Quiet s' := by
      have hs := (unitTranslate_quiet_ok hq hm).after
      rw [if_pos rfl] at hs
      rw [hs, Quiet, storeCells_env]
      exact hq
    have hx := exec_ussMS_next hm h
    rw [envTick_quiet hq'] at hx
    rcases hx with ⟨-, ht⟩ | ⟨-, hx, v, rfl, ht⟩
    · exact .fails m s' rfl hm ht
    · have hw : Writable s (s.getReg z + dispOf s a) (gCells s g) m s' :=
        ⟨hq, hm, by rwa [((unitTranslate_sameUnit _ _ _).ok hm).cfg] at hx⟩
      refine .stored (narrow (gCells s g) (s.getReg q)) m s' t (narrow_length _ _) hw ?_ (.inl rfl)
      rw [ht]
      exact ⟨by simp, by simp, by simp, fun hu => nomatch hu⟩

/-- All outcomes of a form that stores, without other units. -/
theorem exec_stores {i : Instr} {s s1 t : State} {va : Word} {n : Nat} (hp : storesAt i s = some (s1, va, n)) (hq : Quiet s)
    (h : exec i s = .next t) : AddressUpdated s s1 ∧ StoreEnds i s1 va n t := by
  cases exec_form i s with
  | reads pre post hp' => rw [hp] at hp'; cases hp'
  | stores s1' va' n' pre bs post hp' hu hb hs hpre hlen hpost he =>
    rw [hp] at hp'
    cases hp'
    obtain ⟨r, ae, a, hs, -⟩ := hs
    have hs1 : AddressUpdated s s1 := ⟨r, ae, a, hs⟩
    refine ⟨hs1, ?_⟩
    rw [he] at h
    rcases finish_bind h with ⟨c, u, hm, ht⟩ | ⟨x, u, hm, ht⟩
    · have hu := hpre.quiet (hs1.quiet hq)
      rw [hm] at hu
      exact .before c (by rw [ht]; exact congrArg _ hu)
    · have hu := hpre.quiet (hs1.quiet hq)
      rw [hm] at hu
      cases hu
      exact storeEnds_memWrite (hs1.quiet hq) (hlen x) (fun v _ hv => ⟨t, (hpost x).sameStore hv, .inl rfl⟩) ht
  | brs wa ra hp' hf hb he =>
    rw [hp] at hp'
    cases hp'
    exact ⟨addressUpdated_refl s, contextSwitch_storeEnds hq (he.symm.trans h)⟩
  | ussLoad z q g a hi => subst hi; cases hp
  | ussStore z q g a hi =>
    subst hi
    cases hp
    exact ⟨addressUpdated_refl s, ussStore_storeEnds hq h⟩

/-- A string that is no interruption records none (R172). -/
theorem written_irqs {s : State} {pa : Nat} {bs : List Byte} (h : bs.length ≠ 16 ∨ lookupKey pa s.cfg.gates = none) :
    (s.written pa bs).irqs = s.irqs := by
  rcases h with h | h
  · rw [written_short s pa bs h, storeCells_irqs]
  · simp [State.written, signalled, h]

theorem AddressUpdated.same {s s1 : State} (h : AddressUpdated s s1) :
    s1.mem = s.mem ∧ s1.mon = s.mon ∧ s1.irqs = s.irqs ∧ s1.cfg = s.cfg := by
  obtain ⟨r, ae, a, rfl⟩ := h
  exact ⟨withDisp_mem .., withDisp_mon .., withDisp_irqs .., withDisp_cfg ..⟩

/-- Settles O53. -/
theorem storeFrame : Obligations.StoreFrame := by
  intro i s s1 t va n hp hq h
  obtain ⟨hs, hends⟩ := exec_stores hp hq h
  obtain ⟨hmem, -, hirqs, hcfg⟩ := hs.same
  have htr := fun {m s'} => unitTranslate_quiet_ok (m := m) (t := s') (va := va) (kind := .write) (n := n) (hs.quiet hq)
  cases hends with
  | before c ht =>
    exact ⟨s1, .inr ⟨c, ht⟩, fun m s' _ => ⟨fun b _ _ => by rw [hmem], fun _ => hirqs⟩, fun c v _ => ⟨fun b => by rw [hmem], hirqs⟩⟩
  | fails m s' hu hm ht =>
    refine ⟨s', .inr ⟨_, ht⟩, fun m' u' hm' => ?_, fun c v hm' => ?_⟩ <;> rw [hm] at hm' <;> cases hm'
    exact ⟨fun b _ hb => by rw [(htr hm).read_outside fun _ => hb, hmem], fun _ => (htr hm).irqs.trans hirqs⟩
  | stored bs m s' u hn hw hu ht =>
    refine ⟨u, ht, fun m' u' hm' => ?_, fun c v hm' => ?_⟩ <;> rw [hw.2.1] at hm' <;> cases hm'
    refine ⟨fun b hb hb' => ?_, fun he => ?_⟩
    · rw [hu.mem, written_mem, Memory.read_writeCells_outside _ (by rw [hn]; omega)]
      rw [(htr hw.2.1).read_outside fun _ => hb', hmem]
    · rw [hu.irqs, written_irqs, (htr hw.2.1).irqs, hirqs]
      rwa [hn, hw.sameUnit.cfg, hcfg]

/-! The monitor notices every write (R16, R33). -/

/-- A cell was written on the way: an entry of the monitor for it is dirty. -/
def Marked (a : Nat) (s t : State) : Prop := lookupKey a t.mon = (lookupKey a s.mon).map fun _ => .dirty

section Marked
variable {a : Nat} {s t u : State}

theorem Marked.spec (h : Marked a s t) :
    lookupKey a t.mon ≠ some .clean ∧ (lookupKey a s.mon = some .clean → lookupKey a t.mon = some .dirty) := by
  rw [h]
  cases lookupKey a s.mon <;> simp

theorem Marked.after (hn : Noticed s t) (h : Marked a t u) : Marked a s u := by
  rw [Marked, h]
  rcases hn a with ⟨e, -⟩ | ⟨e, e'⟩
  · rw [e]
  · rw [e, e']
    rfl

theorem Marked.before (h : Marked a s t) (hn : Noticed t u) : Marked a s u := by
  rcases hn a with ⟨e, -⟩ | ⟨e, -⟩
  · rw [Marked, e, h]
  · exact absurd e h.spec.1

theorem marked_storeCell (a : Nat) (s : State) (b : Byte) : Marked a s (s.storeCell a b) := by
  rw [Marked, State.storeCell_mon, Monitor.lookup_dirty]
  rcases lookupKey a s.mon with _ | _ | _ <;> simp

theorem marked_storeExisting {x : Nat} {bs : List Byte} (hp : populated s.cfg a = true) (hlo : x ≤ a) (hhi : a < x + bs.length) :
    Marked a s (s.storeExisting x bs) := by
  induction bs generalizing x s with
  | nil => exact absurd hhi (by simp; omega)
  | cons b bs ih =>
    rw [List.length_cons] at hhi
    rw [State.storeExisting]
    by_cases ha : x = a
    · subst ha
      rw [if_pos hp]
      exact (marked_storeCell x s b).before (noticed_access.storeExisting _ _ _)
    · have hn : Noticed s (if populated s.cfg x = true then s.storeCell x b else s) := by
        split
        · next hx => exact noticed_access.store s x b hx
        · exact noticed_chains.refl s
      refine (ih ?_ (by omega) (by omega)).after hn
      split <;> exact hp

theorem marked_otherWrites {ws : List Store} {w : Store} (hw : w ∈ ws) (hp : populated s.cfg a = true) (hlo : w.addr ≤ a)
    (hhi : a < w.addr + w.cells.length) : Marked a s (s.otherWrites ws) := by
  induction ws generalizing s with
  | nil => cases hw
  | cons x ws ih =>
    rw [State.otherWrites]
    rcases List.mem_cons.1 hw with rfl | hw
    · refine Marked.before ?_ (noticed_access.others _ ws)
      have hx := marked_storeExisting hp hlo hhi
      rw [State.otherStore]
      split
      · exact hx.before (noticed_access.signalled _ _ _)
      · exact hx
    · refine (ih hw ?_).after (noticed_access.otherStore s x)
      rwa [(sameUnit_access.otherStore s x).cfg]

theorem marked_physWrite {pa : Nat} {bs : List Byte} {x : Unit} (h : physWrite pa bs s = .ok x t) (hlo : pa ≤ a)
    (hhi : a < pa + bs.length) : Marked a s t := by
  induction bs generalizing pa s with
  | nil => exact absurd hhi (by simp; omega)
  | cons b bs ih =>
    rw [List.length_cons] at hhi
    obtain ⟨_, u, hb, hbs⟩ := bind_ok h
    by_cases ha : pa = a
    · subst ha
      obtain ⟨rfl, -⟩ := writeCell_ok hb
      exact ((marked_storeCell pa _ b).after (noticed_access.tick s)).before ((physWrite_within noticed_access _ bs).ok hbs)
    · exact (ih hbs (by omega) (by omega)).after ((writeCell_within noticed_access pa b).ok hb)

theorem marked_written {pa : Nat} {bs : List Byte} (hx : CellsExist s.cfg pa bs.length) (hlo : pa ≤ a) (hhi : a < pa + bs.length) :
    Marked a s (s.written pa bs) := by
  have hp : populated s.cfg a = true := by
    obtain ⟨k, rfl⟩ := Nat.exists_eq_add_of_le hlo
    exact hx k (by omega)
  have h := marked_storeExisting hp hlo hhi
  rw [storeExisting_exist hx] at h
  exact h.before (noticed_access.signalled _ _ _)

end Marked

/-- A store form that completes has marked the cells it stored, if it is no USS. -/
theorem StoreEnds.marked {i : Instr} {s1 s' t : State} {va : Word} {n a : Nat} {m : Mapped} (h : StoreEnds i s1 va n t)
    (hu : isUss i = false) (hm : unitTranslate va .write n s1 = .ok m s') (hterm : s1.cfg.trapEntry = .terminal)
    (ht : t.trapped = none) (hlo : m.pa ≤ a) (hhi : a < m.pa + n) : Marked a s1 t := by
  have htrap : ∀ c u, u.cfg = s1.cfg → t ≠ takeTrap c u := fun c u hc e => by
    rw [e, takeTrap_terminal (hc ▸ hterm)] at ht
    cases ht
  cases h with
  | before c e => exact absurd e (htrap c s1 rfl)
  | fails m' u' hu' => rw [hu] at hu'; cases hu'
  | stored bs m' u' u hn hw hsame hend =>
    rw [hw.2.1] at hm
    cases hm
    subst hn
    have hcells : CellsExist s'.cfg m.pa bs.length := by rw [hw.sameUnit.cfg]; exact hw.2.2
    rcases hend with rfl | ⟨c, e⟩
    · rw [Marked, hsame.mon hu]
      exact (marked_written hcells hlo hhi).after
        ((unitTranslate_within noticed_access.reading (fun _ => noticed_access) _ _).ok hw.2.1)
    · refine absurd e (htrap c u ?_)
      rw [hsame.cfg, (hw.sameUnit_written bs).cfg]

/-- Settles O55. -/
theorem writesAreNoticed : Obligations.WritesAreNoticed := by
  intro i s t a hu
  refine ⟨fun h => ?_, fun pa bs h hlo hhi => (marked_physWrite h hlo hhi).spec, fun ws rest w he hw hlo hhi hp => ?_,
    fun s1 s' va n m hp hq hm hterm _ h ht hlo hhi => ?_⟩
  · have hn : Noticed s t := Ends.keeps noticed_step ((noticed_exec hu).ends h)
    rcases hn a with ⟨e, hsame⟩ | ⟨-, e⟩
    · exact ⟨e.trans, fun hc => ⟨e.symm.trans hc, hsame (e.symm.trans hc)⟩⟩
    · exact ⟨fun _ => e, fun hc => by rw [e] at hc; cases hc⟩
  · rw [State.envTick, he]
    exact (marked_otherWrites (s := { s with env := rest }) hw hp hlo hhi).spec
  · obtain ⟨hs, hends⟩ := exec_stores hp hq h
    obtain ⟨-, hmon, -, hcfg⟩ := hs.same
    rw [← hmon]
    exact (hends.marked hu hm (by rwa [hcfg]) ht hlo hhi).spec

end Sys2Proof.Machine
end

section
/-! PROOFS of the family "other", interruptions, targets, and traps that start a program (R164, R170 to R173). -/

open Sys2Proof.Claims

namespace Sys2Proof.Machine

/-! A trap program (R164). -/

/-- The state in which a trap program starts, before what its entry writes. -/
def trapEntered (r : TrapStart) (s : State) : State :=
  { s with regs := r.file.regs, root := r.file.root % 2 ^ s.cfg.srLayout.rootBits.val, cc := r.file.cc % 2 ^ s.cfg.cw, ip := r.file.ip }

theorem takeTrap_program {s : State} (h : s.cfg.trapEntry = .program) (c : Condition) {r : TrapStart}
    (hr : r = Config.trapProgram ⟨c, ⟨s.regs, s.root, s.cc, s.ip⟩, s.mon, s.mem⟩) :
    takeTrap c s = (trapEntered r s).otherWrites r.stores := by
  rw [takeTrap, h, hr]
  rfl

/-- Settles O57: what the entry writes is noticed by the monitor as any write. -/
theorem trapProgramStarts : Obligations.TrapProgramStarts := by
  intro c s t r hp hr ht
  rw [takeTrap_program hp c hr] at ht
  subst ht
  have hu := sameUnit_otherWrites (trapEntered r s) r.stores
  refine ⟨hu.regs, hu.root, hu.cc, hu.ip, hu.cfg, otherWrites_env _ _, hu.turns, hu.served, hu.trapped, hu.irqs,
    fun a ha => sameCell_otherWrites ha _, fun a => ?_⟩
  exact (noticed_access.others (trapEntered r s) r.stores a).imp And.left id

/-! What other units write at a gate (R170, R172). -/

@[simp] theorem storeExisting_irqs (s : State) (a : Nat) (bs : List Byte) : (s.storeExisting a bs).irqs = s.irqs := by
  induction bs generalizing a s with
  | nil => rfl
  | cons b bs ih =>
    rw [State.storeExisting, ih]
    split <;> rfl

@[simp] theorem storeExisting_cfg (s : State) (a : Nat) (bs : List Byte) : (s.storeExisting a bs).cfg = s.cfg :=
  (sameUnit_access.storeExisting s a bs).cfg

theorem signalled_irqs (pa : Nat) (bs : List Byte) (s : State) : (signalled pa bs s).irqs = s.irqs ++
    if bs.length = 16 then ((lookupKey pa s.cfg.gates).map fun t => ⟨t, BitVec.ofNat 128 (fromCells bs)⟩).toList else [] := by
  unfold signalled
  split
  · cases lookupKey pa s.cfg.gates <;> simp
  · simp

/-- One write of another agent records its event, if it is one. -/
theorem otherStore_irqs (s : State) (w : Store) : (s.otherStore w).irqs = s.irqs ++ (eventOf s.cfg w).toList := by
  unfold State.otherStore eventOf
  by_cases hx : allExist s.cfg w.addr w.cells.length = true
  · rw [if_pos hx, signalled_irqs]
    by_cases hlen : w.cells.length = 16
    · rw [hlen] at hx
      simp [hlen, hx]
    · simp [hlen]
  · have hn : ¬(w.cells.length = 16 ∧ allExist s.cfg w.addr 16 = true) := fun h => hx (h.1 ▸ h.2)
    simp [hx, hn]

theorem otherWrites_irqs (s : State) (ws : List Store) : (s.otherWrites ws).irqs = s.irqs ++ ws.filterMap (eventOf s.cfg) := by
  induction ws generalizing s with
  | nil => simp [State.otherWrites]
  | cons w ws ih =>
    rw [State.otherWrites, ih, otherStore_irqs, (sameUnit_access.otherStore s w).cfg, List.append_assoc]
    cases he : eventOf s.cfg w <;> simp [he]

/-! A target's turn (R172). -/

section Turn
variable {s t : State} {m : TargetMove} {e : Interruption}

theorem step_target {ts : List Turn} (h : s.turns = .target m :: ts) : step s = targetStep m { s with turns := ts } := by
  simp [step, h]

theorem targetStep_none (h : s.irqs[m.event]? = none) : targetStep m s = .next s := by simp [targetStep, h]

theorem targetStep_stuck (h : s.irqs[m.event]? = some e) (hs : targetStuck s e.target = true) : targetStep m s = .next s := by
  simp [targetStep, h, hs]

variable (h : s.irqs[m.event]? = some e) (hs : targetStuck s e.target = false)
include h hs

theorem targetStep_address {k : Mapped} {u : State} (ht : targetTranslate e.entry m.write s = .ok k u) :
    targetStep m s = .next ((u.addServed ⟨m.event, .address k.pa⟩).otherWrites m.stores) := by simp [targetStep, h, hs, ht]

theorem targetStep_condition {c : Condition} {u : State} (ht : targetTranslate e.entry m.write s = .trap c u) :
    targetStep m s = .next (u.addServed ⟨m.event, .condition c⟩) := by simp [targetStep, h, hs, ht]

theorem targetStep_absent {r : Fault} {u : State} (ht : targetTranslate e.entry m.write s = .stuck r u) :
    targetStep m s = .next (u.addServed ⟨m.event, .stuck r⟩) := by simp [targetStep, h, hs, ht]

end Turn

/-- Settles O59. -/
theorem otherUnitsInterrupt : Obligations.OtherUnitsInterrupt := by
  refine ⟨fun s => ?_, fun s s1 t u m ts e k hq hturn hs1 he hstuck ht h => ?_⟩
  · rw [State.envTick]
    split
    · next h => simp [h]
    · next ws rest h => rw [otherWrites_irqs, h]; rfl
  · subst hs1
    rw [step_target hturn, targetStep_address (s := { s with turns := ts }) he hstuck ht] at h
    cases h
    have hu := targetTranslate_within sameUnit_access e.entry m.write
    rw [otherWrites_irqs]
    congr 1
    · exact (translate_quiet_ok (s := { s with turns := ts }) hq ht).irqs
    · exact congrArg (fun c => m.stores.filterMap (eventOf c)) (hu.ok ht).cfg

/-- What a target's turn leaves of the unit: all but the record of the target, memory and the monitor. -/
structure LeavesUnit (s t : State) : Prop where
  regs : t.regs = s.regs
  root : t.root = s.root
  cc : t.cc = s.cc
  ip : t.ip = s.ip
  trapped : t.trapped = s.trapped
  irqs : s.irqs <+: t.irqs
  turns : t.turns = s.turns
  cfg : t.cfg = s.cfg

theorem LeavesUnit.trans {s t u : State} (h : LeavesUnit s t) (h' : LeavesUnit t u) : LeavesUnit s u :=
  ⟨h'.1.trans h.1, h'.2.trans h.2, h'.3.trans h.3, h'.4.trans h.4, h'.5.trans h.5, h.6.trans h'.6, h'.7.trans h.7, h'.8.trans h.8⟩

theorem SameUnit.leavesUnit {s t : State} (h : SameUnit s t) : LeavesUnit s t :=
  ⟨h.regs, h.root, h.cc, h.ip, h.trapped, h.irqs, h.turns, h.cfg⟩

theorem leavesUnit_addServed (s : State) (v : Served) : LeavesUnit s (s.addServed v) :=
  ⟨rfl, rfl, rfl, rfl, rfl, List.prefix_refl _, rfl, rfl⟩

theorem targetStep_leavesUnit {m : TargetMove} {s t : State} (h : targetStep m s = .next t) : LeavesUnit s t := by
  have htr := fun e => targetTranslate_within sameUnit_access e m.write
  rcases targetStep_cases m s with ⟨-, hs⟩ | ⟨e, -, ⟨-, hs⟩ | ⟨-, ⟨k, u, ht, hs⟩ | ⟨c, u, ht, hs⟩ | ⟨r, u, ht, hs⟩⟩⟩ <;>
    rw [hs] at h <;> cases h
  · exact (sameUnit_chains.refl s).leavesUnit
  · exact (sameUnit_chains.refl s).leavesUnit
  · exact (((htr _).ok ht).leavesUnit.trans (leavesUnit_addServed u _)).trans (sameUnit_otherWrites _ _).leavesUnit
  · exact ((htr _).trap ht).leavesUnit.trans (leavesUnit_addServed u _)
  · exact ((htr _).stuck ht).leavesUnit.trans (leavesUnit_addServed u _)

/-- The fields of an entry under the layout of the spec (R171). -/
theorem targetTranslate_standard {u : State} (hl : u.cfg.irqLayout = Config.standardIrq) (r : BitVec 54) (x : BitVec 10) (b : Word)
    (w : Bool) : targetTranslate (r ++ x ++ b) w u = translate (r.toNat * 2 ^ 10) b (if w then .write else .data) 1 u := by
  have h54 : ((54 : Fin 65) : Nat) = 54 := rfl
  have hsum : BitVec.toNat (w := 128) (r ++ x ++ b) = (r.toNat * 2 ^ 10 + x.toNat) * 2 ^ 64 + b.toNat :=
    (toNat_append_eq _ _).trans (by rw [toNat_append_eq])
  have hr := r.isLt
  have hx := x.isLt
  have hb := b.isLt
  have hroot : entryRoot u.cfg (r ++ x ++ b) = r.toNat * 2 ^ 10 := by
    simp only [entryRoot, pointerAddr, fieldAt, hl, Config.standardIrq, h54, hsum]
    omega
  have hdata : entryData u.cfg (r ++ x ++ b) = b := by
    apply BitVec.eq_of_toNat_eq
    simp only [entryData, fieldAt, hl, Config.standardIrq, hsum, BitVec.toNat_ofNat]
    omega
  rw [targetTranslate, hroot, hdata]

/-- Settles O56. -/
theorem targetTurn : Obligations.TargetTurn := by
  intro s t s1 m ts hturn hs1 h
  rw [step_target hturn, ← hs1] at h
  have hirqs : s1.irqs = s.irqs := by rw [hs1]
  have hmem : s1.mem = s.mem := by rw [hs1]
  have hserved : s1.served = s.served := by rw [hs1]
  have hu := targetStep_leavesUnit h
  refine ⟨?_, fun hn => ?_, fun e he hstuck => ?_, fun e he hstuck => ?_, fun r x b w u hl => targetTranslate_standard hl r x b w⟩
  · rw [hs1] at hu
    exact ⟨hu.regs, hu.root, hu.cc, hu.ip, hu.trapped, hu.irqs, hu.turns, hu.cfg⟩
  · rw [targetStep_none (by rwa [hirqs])] at h
    cases h
    rfl
  · rw [targetStep_stuck (by rwa [hirqs]) (by rw [hs1]; exact hstuck)] at h
    cases h
    rfl
  · have he1 : s1.irqs[m.event]? = some e := by rwa [hirqs]
    have hstuck1 : targetStuck s1 e.target = false := by rw [hs1]; exact hstuck
    have hq1 : Quiet s → Quiet s1 := fun hq => by rw [hs1]; exact hq
    have htr := targetTranslate_within sameUnit_access e.entry m.write
    refine ⟨fun k u ht => ?_, fun c u ht => ?_, fun r u ht => ?_⟩
    · rw [targetStep_address he1 hstuck1 ht] at h
      cases h
      refine ⟨?_, fun hq a hout hholder => ?_⟩
      · rw [(sameUnit_otherWrites _ _).served, State.addServed_served, (htr.ok ht).served, hserved]
      · rw [(sameCell_otherWrites hout _).1, State.addServed_mem,
          (translate_quiet_ok (hq1 hq) ht).read_outside fun hk => hholder ?_, hmem]
        cases hw : m.write
        · rw [hw] at hk; cases hk
        · rfl
    · rw [targetStep_condition he1 hstuck1 ht] at h
      cases h
      refine ⟨?_, fun hq => ?_⟩
      · rw [State.addServed_served, (htr.trap ht).served, hserved]
      · obtain rfl := translate_quiet_trap (hq1 hq) ht
        exact ⟨hmem, hirqs⟩
    · rw [targetStep_absent he1 hstuck1 ht] at h
      cases h
      exact ⟨by rw [State.addServed_served, (htr.stuck ht).served, hserved], rfl, rfl⟩

end Sys2Proof.Machine
end

section
/-! PROOFS of the family "other", an instruction loaded from outside is the one that the next step runs: the loader's memory maps the
instruction's address and holds its cells. -/

open Sys2Proof.Claims

namespace Sys2Proof.Machine

/-! Cells and entries under writes elsewhere. -/

theorem Memory.readCells_writeCells_outside (m : Memory) {a b n : Nat} {bs : List Byte} (h : a + n ≤ b ∨ b + bs.length ≤ a) :
    (m.writeCells b bs).readCells a n = m.readCells a n :=
  Memory.readCells_congr fun x hlo hhi => Memory.read_writeCells_outside _ (by omega)

theorem entryAt_writeCells_outside (m : Memory) {a b : Nat} {bs : List Byte} (h : a + 8 ≤ b ∨ b + bs.length ≤ a) :
    entryAt (m.writeCells b bs) a = entryAt m a := by
  rw [entryAt, m.readCells_writeCells_outside h, entryAt]

/-! The loader's table entry. -/

/-- The entry that the loader writes, as a string. -/
def loaderEntry (root : Nat) : Word := BitVec.ofNat 64 (loaderDescriptor (loaderFrame root))

theorem loaderFrame_cases (root : Nat) : loaderFrame root = 3 ∧ root < 2 ^ 58 ∨ loaderFrame root = 0 ∧ 2 ^ 58 ≤ root := by
  unfold loaderFrame
  split
  · next h => exact .inl ⟨rfl, h⟩
  · next h => exact .inr ⟨rfl, Nat.le_of_not_lt h⟩

theorem loaderEntry_cases (root : Nat) : loaderEntry root = 0x060000000000001E#64 ∨ loaderEntry root = 0x1E#64 := by
  unfold loaderEntry
  rcases loaderFrame_cases root with ⟨h, -⟩ | ⟨h, -⟩ <;> rw [h]
  · exact .inl (by decide)
  · exact .inr (by decide)

theorem loaderEntry_toNat (root : Nat) : (loaderEntry root).toNat = loaderDescriptor (loaderFrame root) := by
  unfold loaderEntry
  rcases loaderFrame_cases root with ⟨h, -⟩ | ⟨h, -⟩ <;> rw [h] <;> rfl

/-- It is a descriptor of a 6th order frame that is not swapped out, and allows an instruction to be read. -/
theorem loaderEntry_allows (root : Nat) : entryKind 6 (loaderEntry root) = .descriptor ∧
    permits .instr (loaderEntry root) = true ∧ bitOf (loaderEntry root) 59 = false := by
  rcases loaderEntry_cases root with h | h <;> rw [h] <;> decide

theorem framePa_loaderEntry (root : Nat) (va : Word) : framePa 6 (loaderEntry root) va = loaderPa root va := by
  have hoff : offBits 6 = 57 := rfl
  rw [framePa, frameBase_eq (by decide) (by decide), hoff, loaderEntry_toNat, loaderPa, loaderDescriptor]
  congr 2
  omega

theorem tableIndex_root_lt (va : Word) : tableIndex 6 va < 128 := by
  have := va.isLt
  rw [tableIndex_eq (n := 5) (by decide), if_pos rfl]
  omega

section Map
variable (root : Nat) (va vb : Word) (m : Memory)

theorem loaderMap_eq : loaderMap root va m = m.writeCells (root + 8 * tableIndex 6 va) (toCells 8 (loaderEntry root).toNat) := by
  rw [loaderEntry_toNat]
  rfl

theorem entryAt_loaderMap : entryAt (loaderMap root va m) (root + 8 * tableIndex 6 va) = loaderEntry root := by
  rw [loaderMap_eq, entryAt_writeCells]

/-- An entry of the loader stays, also where it is the one for another address. -/
theorem entryAt_loaderMap_keeps (h : entryAt m (root + 8 * tableIndex 6 va) = loaderEntry root) :
    entryAt (loaderMap root vb m) (root + 8 * tableIndex 6 va) = loaderEntry root := by
  by_cases he : tableIndex 6 va = tableIndex 6 vb
  · rw [he]
    exact entryAt_loaderMap root vb m
  · rw [loaderMap_eq, entryAt_writeCells_outside _ (by rw [toCells_length]; omega), h]

/-- The loader's frame holds no cell of the root table. -/
theorem loaderPa_outside (hroot : root + 1024 ≤ 2 ^ 64) : loaderPa root va + 2 ≤ root ∨ root + 1024 ≤ loaderPa root va := by
  unfold loaderPa
  rcases loaderFrame_cases root with ⟨h, hr⟩ | ⟨h, hr⟩ <;> rw [h] <;> omega

theorem loaderPa_fits : loaderPa root va + 2 ≤ 2 ^ 64 := by
  have hoff : va.toNat % 2 ^ 57 < 2 ^ 57 := Nat.mod_lt _ (by decide)
  unfold loaderPa
  rcases loaderFrame_cases root with ⟨h, -⟩ | ⟨h, -⟩ <;> rw [h] <;> omega

theorem entryAt_loaded {bs : List Byte} (hroot : root + 1024 ≤ 2 ^ 64) (hlen : bs.length ≤ 2) :
    entryAt (m.writeCells (loaderPa root vb) bs) (root + 8 * tableIndex 6 va) = entryAt m (root + 8 * tableIndex 6 va) := by
  have hidx := tableIndex_root_lt va
  have hout := loaderPa_outside root vb hroot
  exact entryAt_writeCells_outside _ (by omega)

end Map

/-- An address that the loader mapped can be read there. -/
theorem readable_loaded {s : State} {root : Nat} {va : Word} (hq : Quiet s) (hcells : s.cfg.physCells = 2 ^ 64)
    (hroot : rootAddr s = root) (hle : root + 1024 ≤ 2 ^ 64) (heven : va.toNat % 2 = 0)
    (he : entryAt s.mem (root + 8 * tableIndex 6 va) = loaderEntry root) : Readable s va .instr 2 (loaderPa root va) := by
  obtain ⟨hkind, hperm, hswap⟩ := loaderEntry_allows root
  have hidx := tableIndex_root_lt va
  have hexist : ∀ a n, a + n ≤ 2 ^ 64 → CellsExist s.cfg a n := fun a n h k hk =>
    decide_eq_true (by rw [hcells]; omega)
  have hx := hexist (root + 8 * tableIndex 6 va) 8 (by omega)
  have hwalk : walk va .instr 6 root s = .ok ⟨loaderPa root va, 6, root + 8 * tableIndex 6 va⟩ s := by
    rw [walk_descriptor hq rfl hx (by rw [he]; exact hkind), he,
      frameAccess_present hq hx hperm (findHolder_quiet (k := false) hq he.symm rfl hx nofun) (by rw [he]; exact hswap), he,
      framePa_loaderEntry]
    rfl
  refine ⟨hq, ⟨⟨loaderPa root va, 6, root + 8 * tableIndex 6 va⟩, ?_, rfl⟩, hexist _ _ ?_⟩
  · rw [unitTranslate, hroot, translate_of_walk hwalk, if_neg]
    have hoff : offBits 6 = 57 := rfl
    simp only [crosses, hoff, decide_eq_true_eq, not_and]
    omega
  · exact loaderPa_fits root va

section Memory
variable {root : Nat} {ia : Word} {cells : List Byte} (m : Memory)

/-- The two halves of the instruction lie apart. -/
theorem loaderPa_add_two : loaderPa root (ia + 2#64) + 2 ≤ loaderPa root ia ∨
    loaderPa root ia + 2 ≤ loaderPa root (ia + 2#64) := by
  unfold loaderPa
  rw [BitVec.toNat_add]
  have := ia.isLt
  simp only [BitVec.toNat_ofNat]
  omega

theorem loaderMemory_entry (hroot : root + 1024 ≤ 2 ^ 64) (hlen : cells.length = 4) (va : Word) (hva : va = ia ∨ va = ia + 2#64) :
    entryAt (loaderMemory root ia cells m) (root + 8 * tableIndex 6 va) = loaderEntry root := by
  rw [loaderMemory, entryAt_loaded _ _ _ _ hroot (by simp [hlen]), entryAt_loaded _ _ _ _ hroot (by simp)]
  rcases hva with rfl | rfl
  · exact entryAt_loaderMap_keeps _ _ _ _ (entryAt_loaderMap _ _ _)
  · exact entryAt_loaderMap _ _ _

theorem loaderMemory_first (hlen : cells.length = 4) :
    (loaderMemory root ia cells m).readCells (loaderPa root ia) 2 = cells.take 2 := by
  have h2 : (cells.take 2).length = 2 := by simp [hlen]
  have hcells := Memory.readCells_writeCells (loaderMap root (ia + 2#64) (loaderMap root ia m)) (loaderPa root ia) (cells.take 2)
  rw [h2] at hcells
  rw [loaderMemory, Memory.readCells_writeCells_outside _ ?_, hcells]
  have := loaderPa_add_two (root := root) (ia := ia)
  rw [List.length_drop, hlen]
  omega

theorem loaderMemory_second (hlen : cells.length = 4) :
    (loaderMemory root ia cells m).readCells (loaderPa root (ia + 2#64)) 2 = cells.drop 2 := by
  have h2 : (cells.drop 2).length = 2 := by simp [hlen]
  have hcells := Memory.readCells_writeCells ((loaderMap root (ia + 2#64) (loaderMap root ia m)).writeCells (loaderPa root ia)
    (cells.take 2)) (loaderPa root (ia + 2#64)) (cells.drop 2)
  rwa [h2] at hcells

end Memory

/-! The loaded state. -/

theorem tableCells_length {nbits : Nat} (h : nbits ≤ 32) (w : Nat) : (tableCells nbits w).length = 4 := by
  rw [tableCells, List.length_append, toCells_length, List.length_replicate]
  omega

theorem getLsbD_zero_instrAddr (s : State) : s.instrAddr.getLsbD 0 = false := by simp [State.instrAddr]

theorem instrAddr_even (s : State) : s.instrAddr.toNat % 2 = 0 := by
  have h := getLsbD_zero_instrAddr s
  rw [BitVec.getLsbD, Nat.testBit_zero, decide_eq_false_iff_not] at h
  omega

/-- What decodes is the first two cells, or all four. -/
theorem decode_halves {cells rest : List Byte} {i : Instr} (hlen : cells.length = 4) (h : decode cells = .ok (i, rest)) :
    decode (cells.take 2) = .ok (i, []) ∨ decode (cells.take 2 ++ cells.drop 2) = .ok (i, []) := by
  obtain ⟨hwf, hcells⟩ := encodeOfDecode _ _ _ h
  have hdec := decodeOfEncode i [] hwf
  rw [List.append_nil] at hdec
  obtain ⟨len, -, hl, -⟩ := decode_whole hdec
  rw [hcells, List.length_append, hl] at hlen
  cases len with
  | two =>
    left
    rw [hcells, show 2 = (encode i).length from hl.symm, List.take_left, hdec]
  | four =>
    right
    have hrest : rest = [] := List.eq_nil_of_length_eq_zero (by simp only [Length.cells] at hlen; omega)
    rw [List.take_append_drop, hcells, hrest, List.append_nil, hdec]

/-- A unit steps as the instruction whose cells the loader's memory holds. -/
theorem step_loaded {s : State} {i : Instr} {m : Memory} {cells rest : List Byte} (hrun : Running s) (henc : s.cfg.encoding = .rp1)
    (hq : Quiet s) (hcells : s.cfg.physCells = 2 ^ 64) (hle : rootAddr s + 1024 ≤ 2 ^ 64)
    (hmem : s.mem = loaderMemory (rootAddr s) s.instrAddr cells m) (hlen : cells.length = 4) (hd : decode cells = .ok (i, rest)) :
    step s = exec i (beforeExec i s) := by
  have heven := instrAddr_even s
  have heven' : (s.instrAddr + 2#64).toNat % 2 = 0 := by
    rw [BitVec.toNat_add, BitVec.toNat_ofNat]
    omega
  have hentry := loaderMemory_entry m hle hlen (ia := s.instrAddr)
  have hfirst := readable_loaded hq hcells rfl hle heven (by rw [hmem]; exact hentry _ (.inl rfl))
  have hsecond := readable_loaded hq hcells rfl hle heven' (by rw [hmem]; exact hentry _ (.inr rfl))
  obtain ⟨htwo, hfour, -⟩ := stepRunsDecoded s i _ hrun henc hfirst
  rw [hmem, loaderMemory_first m hlen] at htwo
  rcases decode_halves hlen hd with h | h
  · exact htwo h
  · exact hfour _ hsecond (by rw [hmem, loaderMemory_first m hlen, loaderMemory_second m hlen, h])

/-- The root table that the load uses ends at the last physical address or before. -/
theorem loaderRoot_fits (s : State) : rootAddr { s with root := loaderRoot s } + 1024 ≤ 2 ^ 64 := by
  unfold loaderRoot
  split
  · next h => exact h
  · simp [rootAddr, pointerAddr]

/-- Settles O6. -/
theorem loadedWordRuns : Obligations.LoadedWordRuns := by
  intro s nbits w i hn hd
  have hia : (s.withFetchWord nbits w).instrAddr = s.instrAddr :=
    (BitVec.and_assoc ..).trans (congrArg (s.ip &&& ·) (BitVec.and_self ..))
  have hmem : (s.withFetchWord nbits w).mem =
      loaderMemory (rootAddr (s.withFetchWord nbits w)) (s.withFetchWord nbits w).instrAddr (tableCells nbits w) s.mem := by
    rw [hia]
    rfl
  unfold decodeTableWord at hd
  split at hd <;> cases hd
  next h =>
  exact step_loaded ⟨getLsbD_zero_instrAddr s, rfl, rfl⟩ rfl rfl rfl (loaderRoot_fits s) hmem (tableCells_length hn w) h

end Sys2Proof.Machine
end
